-- ==== Sys2Proof/Word.lean ====
section
/-! DEFINITION. Bytes, stored words and the four word widths (00_scope.md R7, R14, 10_state.md R42). -/

namespace Sys2Proof

/-- A byte: an unsigned integer of 8 bits (R14). -/
abbrev Byte := BitVec 8

/-- The physical store of one word, 64 bits, so that it can serve all four widths (R42). A word of
`w` bits stands in it zero-extended; the model gives the bits above `w` no other meaning (log 3). -/
abbrev Slot := BitVec 64

/-- The word widths the engine supports (R7). The order is that of `WSEL` (R26). -/
inductive Width where
  | w8
  | w16
  | w32
  | w64
deriving DecidableEq, Repr

/-- `w`, the width of a word in bits (R7). -/
def Width.bits : Width → Nat
  | .w8 => 8
  | .w16 => 16
  | .w32 => 32
  | .w64 => 64

/-- `u = w/8`, the width of a word in bytes (R7). -/
def Width.bytes : Width → Nat
  | .w8 => 1
  | .w16 => 2
  | .w32 => 4
  | .w64 => 8

/-- `b = 2·u`, the width of a block in bytes (R7). -/
def Width.block (W : Width) : Nat := 2 * W.bytes

/-- The 2-bit `WSEL` code of a width (R26). -/
def Width.code : Width → BitVec 2
  | .w8 => 0
  | .w16 => 1
  | .w32 => 2
  | .w64 => 3

/-- The width a 2-bit `WSEL` code names; all four values are legal (R26). -/
def Width.ofCode (c : BitVec 2) : Width :=
  if c = 0 then .w8 else if c = 1 then .w16 else if c = 2 then .w32 else .w64

end Sys2Proof
end

