-- ==== Sys2Proof/Config.lean ====
section
/-! DEFINITION. The implementation parameters (the summary table of 00_scope.md, section 4). None is a free value:
this hardware has no implementation-defined behaviour in the result of a legal command. -/

namespace Sys2Proof.Config

/-- KEY_MIN: the shortest key, in bytes (R9). -/
def keyMin : Nat := 1

/-- KEY_MAX: the longest key, in bytes (R9). -/
def keyMax : Nat := 256

/-- R_MAX: the largest round count (R10, D7). -/
def roundsMax : Nat := 255

/-- T_MAX: the capacity of `S` in words (R11, R23). -/
def subkeyCapacity : Nat := 512

/-- C_MAX: the capacity of `L` in words (R11, R24). -/
def keyWordCapacity : Nat := 256

/-- `LEN` is a 32-bit field: a payload is shorter than this many bytes (R12, D8). -/
def payloadBound : Nat := 2 ^ 32

end Sys2Proof.Config
end

