-- ==== Sys2Proof/Syntax.lean ====
section
/-! DEFINITION. The instructions: the seven commands (30_encoding.md R74) and the seventeen micro-operations (R85), one
constructor per row of spec/opcode_table.json, in the table's order. -/

namespace Sys2Proof

/-- The rows of the opcode table. A command's payload is no operand of its word: it stands beside the word in the packet
(R70), and the machine holds it while the command runs. Micro-operations "have no operand fields" (R85). -/
inductive Instr where
  /-- KEY (R122) -/
  | key
  /-- ENCODE (R171) -/
  | encode
  /-- DECODE (R179) -/
  | decode
  /-- SETUP.W8 (R160) -/
  | setupW8 (rounds : BitVec 8)
  /-- SETUP.W16 (R161) -/
  | setupW16 (rounds : BitVec 8)
  /-- SETUP.W32 (R162) -/
  | setupW32 (rounds : BitVec 8)
  /-- SETUP.W64 (R163) -/
  | setupW64 (rounds : BitVec 8)
  /-- ZERO (R90) -/
  | zero
  /-- PW (R91) -/
  | pw
  /-- QW (R92) -/
  | qw
  /-- ADDW (R93) -/
  | addw
  /-- SUBW (R94) -/
  | subw
  /-- XORW (R95) -/
  | xorw
  /-- ROTL (R96) -/
  | rotl
  /-- ROTR (R97) -/
  | rotr
  /-- MODW (R98) -/
  | modw
  /-- LEPACK (R99) -/
  | lepack
  /-- LEUNPACK (R100) -/
  | leunpack
  /-- RDW (R126) -/
  | rdw
  /-- RDB (R128) -/
  | rdb
  /-- MIXS (R150) -/
  | mixs
  /-- MIXL (R151) -/
  | mixl
  /-- EHR (R177) -/
  | ehr
  /-- DHR (R183) -/
  | dhr
deriving DecidableEq, Repr

end Sys2Proof
end

