-- ==== Sys2Proof/WellFormed.lean ====
section
/-! DEFINITION. Which payload length may stand beside an instruction (30_encoding.md R70, R76, R80 (d), R85). Every
other bound (an 8-bit round count, four widths) is carried by the types of Syntax.lean. -/

namespace Sys2Proof

/-- A packet's `LEN` is a 32-bit field (R12, R70). -/
def lenFits (len : Nat) : Bool := decide (len < Config.payloadBound)

/-- The instructions that must stand in a packet with an empty payload: the four SETUPs (R76). A micro-operation
stands in no packet at all (R85), so nothing may stand beside it either. -/
def Instr.takesPayload : Instr → Bool
  | .key | .encode | .decode => true
  | .setupW8 _ | .setupW16 _ | .setupW32 _ | .setupW64 _ => false
  | .zero | .pw | .qw | .addw | .subw | .xorw | .rotl | .rotr | .modw | .lepack | .leunpack => false
  | .rdw | .rdb | .mixs | .mixl | .ehr | .dhr => false

/-- The instruction may stand beside a payload of `len` bytes. -/
def Instr.wellFormed (i : Instr) (len : Nat) : Bool :=
  lenFits len && (i.takesPayload || decide (len = 0))

end Sys2Proof
end

