-- ==== Sys2Proof/Decode.lean ====
section
/-! DEFINITION. The decoder of command words (30_encoding.md R71 to R77, R80) and of micro-operation select codes (R85),
total, rejecting by name, and after it the encoder. -/

namespace Sys2Proof

/-- Why an encoding has no instruction: the cases (a) to (d) of R80, and the unused select codes of R85. -/
inductive DecodeError where
  /-- R80 (a): one of bits 15:11 is set. -/
  | reservedBits
  /-- R80 (b): `OP` is 0. -/
  | opZero
  /-- R80 (c): `ROUNDS` is not 0 in KEY, ENCODE or DECODE. -/
  | roundsNotZero
  /-- R80 (d): a SETUP with a payload. -/
  | lenNotZero
  /-- R85: a select code from 0x11 to 0x1F. -/
  | unusedSelect
deriving DecidableEq, Repr

/-- What is decoded: a 16-bit command word (R71), or a 5-bit select code inside the machine (R85). -/
inductive Code where
  | command (cw : BitVec 16)
  | select (uop : BitVec 5)
deriving DecidableEq, Repr

/-- The field `RSV`, bits 15:11 of the command word (R71). -/
def cwRsv (cw : BitVec 16) : BitVec 5 := cw.extractLsb' 11 5

/-- The field `OP`, bits 10:8 of the command word (R71). -/
def cwOp (cw : BitVec 16) : BitVec 3 := cw.extractLsb' 8 3

/-- The field `ROUNDS`, bits 7:0 of the command word (R71, R73). -/
def cwRounds (cw : BitVec 16) : BitVec 8 := cw.extractLsb' 0 8

/-- The bits `OP[1:0]`, the width of a SETUP (R75). -/
def cwWsel (cw : BitVec 16) : BitVec 2 := cw.extractLsb' 8 2

/-- A SETUP's bit `OP[2]` (R74: `OP` 4 to 7). -/
def cwIsSetup (cw : BitVec 16) : Bool := cw.getLsbD 10

/-- The SETUP of a width (R74, R75). -/
def setupInstr (W : Width) (r : BitVec 8) : Instr :=
  match W with
  | .w8 => .setupW8 r
  | .w16 => .setupW16 r
  | .w32 => .setupW32 r
  | .w64 => .setupW64 r

/-- Decoding a command word beside a payload of `len` bytes. It is total (R77): one of the seven commands of R74, or
illegal by R80. -/
def decodeCommand (cw : BitVec 16) (len : Nat) : Except DecodeError Instr :=
  if cwRsv cw ≠ 0 then .error .reservedBits
  else if cwOp cw = 0 then .error .opZero
  else if cwIsSetup cw then
    if len = 0 then .ok (setupInstr (Width.ofCode (cwWsel cw)) (cwRounds cw)) else .error .lenNotZero
  else if cwRounds cw ≠ 0 then .error .roundsNotZero
  else if cwOp cw = 1 then .ok .key
  else if cwOp cw = 2 then .ok .encode
  else .ok .decode

/-- Decoding a micro-operation select code (the table of R85). -/
def decodeSelect (uop : BitVec 5) : Except DecodeError Instr :=
  match uop.toNat with
  | 0x00 => .ok .zero
  | 0x01 => .ok .pw
  | 0x02 => .ok .qw
  | 0x03 => .ok .addw
  | 0x04 => .ok .subw
  | 0x05 => .ok .xorw
  | 0x06 => .ok .rotl
  | 0x07 => .ok .rotr
  | 0x08 => .ok .modw
  | 0x09 => .ok .lepack
  | 0x0A => .ok .leunpack
  | 0x0B => .ok .rdw
  | 0x0C => .ok .rdb
  | 0x0D => .ok .mixs
  | 0x0E => .ok .mixl
  | 0x0F => .ok .ehr
  | 0x10 => .ok .dhr
  | _ => .error .unusedSelect

/-- Decoding of either kind of code. A select code stands in no packet, so a payload beside it is refused as one is
beside a SETUP. -/
def decode (c : Code) (len : Nat) : Except DecodeError Instr :=
  match c with
  | .command cw => decodeCommand cw len
  | .select uop => if len = 0 then decodeSelect uop else .error .lenNotZero

/-- The instruction of an opcode-table row's bits: a row of at most 8 bits is a select code in bits 4:0 (R85), a longer one
a command word in bits 15:0 (R71) with an empty payload (log 14). -/
def decodeTableWord (nbits w : Nat) : Option Instr :=
  if nbits ≤ 8 then
    if w < 2 ^ 5 then (decode (.select (BitVec.ofNat 5 w)) 0).toOption else none
  else
    if w < 2 ^ 16 then (decode (.command (BitVec.ofNat 16 w)) 0).toOption else none

/-! ### The encoder, written from the same tables -/

/-- The command word made of its three fields, `RSV` being 0 (R71). -/
def commandWord (op : BitVec 3) (rounds : BitVec 8) : BitVec 16 := (0 : BitVec 5) ++ op ++ rounds

/-- The code of each instruction: the tables of R74 and R85. -/
def encode : Instr → Code
  | .key => .command (commandWord 1 0)
  | .encode => .command (commandWord 2 0)
  | .decode => .command (commandWord 3 0)
  | .setupW8 r => .command (commandWord 4 r)
  | .setupW16 r => .command (commandWord 5 r)
  | .setupW32 r => .command (commandWord 6 r)
  | .setupW64 r => .command (commandWord 7 r)
  | .zero => .select 0x00
  | .pw => .select 0x01
  | .qw => .select 0x02
  | .addw => .select 0x03
  | .subw => .select 0x04
  | .xorw => .select 0x05
  | .rotl => .select 0x06
  | .rotr => .select 0x07
  | .modw => .select 0x08
  | .lepack => .select 0x09
  | .leunpack => .select 0x0A
  | .rdw => .select 0x0B
  | .rdb => .select 0x0C
  | .mixs => .select 0x0D
  | .mixl => .select 0x0E
  | .ehr => .select 0x0F
  | .dhr => .select 0x10

end Sys2Proof
end

