-- ==== Sys2Proof/Machine/State.lean ====
section
/-! DEFINITION. The machine's state (10_state.md), the state after reset (R40, 70_reset_and_hazards.md R230), and the
reasons a step can stop. The groups are those of R20; the model's own fields are named as such. -/

namespace Sys2Proof.Machine

/-- A byte space: (offset, byte) pairs in canonical form, offsets strictly rising. An unlisted offset holds no value, and
reading it is a fault (R41, R56; log 2). -/
abbrev Memory := List Host.Cell

/-- Whether the engine slot holds an engine (R30). -/
inductive EngineState where
  | uninitialised
  | ready
deriving DecidableEq, Repr

/-- The phases of the sequencer (the table of R36). -/
inductive Phase where
  | idle
  | check
  | keyStore
  | kxLoad
  | kxInit
  | kxMix
  | blkRead
  | encPre
  | encRound
  | decRound
  | decPost
  | blkWrite
  | respond
deriving DecidableEq, Repr

/-- The status of a response (60_exceptions.md R200). `internal` is kept so that the document's four kinds map onto
codes 1 to 4; nothing produces it (R204). -/
inductive Status where
  | ok
  | invalidKeyLength
  | keyNotWordAligned
  | inputNotBlockAligned
  | internal
  | noKey
  | notReady
  | illegalCommand
deriving DecidableEq, Repr

/-- The 3-bit number of a status (R200, D10). -/
def Status.code : Status → BitVec 3
  | .ok => 0
  | .invalidKeyLength => 1
  | .keyNotWordAligned => 2
  | .inputNotBlockAligned => 3
  | .internal => 4
  | .noKey => 5
  | .notReady => 6
  | .illegalCommand => 7

/-- The key slot (R25). -/
structure KeySlot where
  /-- `KVALID` -/
  valid : Bool
  /-- `KLEN` -/
  klen : BitVec 9
  /-- `KEYBUF`: only the offsets that hold a value are listed. -/
  keybuf : Memory
deriving DecidableEq, Repr

/-- The engine slot (R23, R26, R27, R30). -/
structure EngineSlot where
  /-- `ENG_STATE` -/
  state : EngineState
  /-- `WSEL` -/
  wsel : Width
  /-- `ROUNDS` -/
  rounds : BitVec 8
  /-- `S`: exactly the entries that hold a value; `S[i]` is entry number `i`. -/
  S : List Slot
deriving DecidableEq, Repr

/-- The working registers (R21, R24). -/
structure Working where
  A : Slot
  B : Slot
  /-- `L`: exactly the entries that hold a value. -/
  L : List Slot
deriving DecidableEq, Repr

/-- The phase and the counters of the sequencer (R34, R36). R34 lets a model use natural numbers for the counters. -/
structure Sequencer where
  phase : Phase
  I : Nat
  J : Nat
  K : Nat
  RND : Nat
  BLK : Nat
deriving DecidableEq, Repr

/-- A response packet (30_encoding.md R78), and the response registers that it carries (10_state.md R33). -/
structure Response where
  status : Status
  info0 : BitVec 32
  info1 : BitVec 32
  rlen : BitVec 32
  /-- `RPAYLOAD` -/
  payload : List Byte
deriving DecidableEq, Repr

/-- The outcome of a command's checks: the status and the two lengths to report (R210). -/
structure Verdict where
  status : Status
  info0 : BitVec 32
  info1 : BitVec 32
deriving DecidableEq, Repr

/-- All checks passed. -/
def Verdict.ok : Verdict := ⟨.ok, 0, 0⟩

/-- What the host does at the command port, in the order it does it (R60, R70, R230; log 4, log 5). -/
inductive PortEvent where
  /-- A packet, run as one atomic step (R60). -/
  | command (cw : BitVec 16) (payload : List Byte)
  /-- The same packet, run one phase visit per step (R36). -/
  | paced (cw : BitVec 16) (payload : List Byte)
  /-- The host does nothing for one step. -/
  | pause
  /-- The host asserts `rst` (R230). -/
  | reset
deriving DecidableEq, Repr

/-- The command in progress (R39: lent by the host for the command's duration) and the two channels of the port. -/
structure Port where
  /-- `CW` of the command in progress, 0 when there is none. -/
  cw : BitVec 16
  /-- `PAYLOAD` of the command in progress; `LEN` is its length (R70). -/
  payload : List Byte
  /-- What the host has lined up. -/
  inbox : List PortEvent
  /-- The responses delivered so far, oldest first. -/
  outbox : List Response
deriving DecidableEq, Repr

/-- The operand and result latches of the datapath. They are the model's own: the spec gives the micro-operations operands
and results, and no place where these stand (R85; log 7). -/
structure Datapath where
  x : Slot
  y : Slot
  k : Slot
  /-- The byte operand of LEPACK; the first `u` of the eight are used. -/
  bytes : Vector Byte 8
  /-- The word result. -/
  res : Slot
  /-- The byte-sequence result of LEUNPACK. -/
  resBytes : List Byte
deriving DecidableEq, Repr

/-- The latches with nothing in them. -/
def Datapath.idle : Datapath := ⟨0, 0, 0, Vector.replicate 8 0, 0, []⟩

/-- The state of the machine. -/
structure State where
  key : KeySlot
  eng : EngineSlot
  work : Working
  seq : Sequencer
  resp : Response
  port : Port
  /-- The outcome CHECK has settled for RESPOND to write (the model's own; log 10). -/
  verdict : Verdict
  /-- The select code being driven at this moment (R85; the model's own; log 7). -/
  uop : Option (BitVec 5)
  dp : Datapath
deriving DecidableEq, Repr

/-- The state after reset. `KVALID = 0`, `ENG_STATE = Uninitialised` and `PHASE = IDLE` are the spec's (R40, R230); every other
register is unspecified there and zero here (log 1), `KEYBUF`, `S` and `L` hold no value (log 2), and no command stands
at the port (log 5). -/
def State.reset : State where
  key := { valid := false, klen := 0, keybuf := [] }
  eng := { state := .uninitialised, wsel := .w8, rounds := 0, S := [] }
  work := { A := 0, B := 0, L := [] }
  seq := { phase := .idle, I := 0, J := 0, K := 0, RND := 0, BLK := 0 }
  resp := { status := .ok, info0 := 0, info1 := 0, rlen := 0, payload := [] }
  port := { cw := 0, payload := [], inbox := [], outbox := [] }
  verdict := Verdict.ok
  uop := none
  dp := Datapath.idle

/-- Why the machine stops with a fault: a read of storage that holds no value (R41: "A model should make a read of valueless
state a fault"; R56: an out-of-range read). All are safe: the hardware would go on. No command sequence reaches one. -/
inductive Fault where
  /-- A read of `KEYBUF` at an offset that holds no value: RDW and the SETUPs. Safe. -/
  | keybufNoValue
  /-- A read of `S` at an index that holds no value: MIXS, ENCODE, DECODE and the sequencer's operand routing. Safe. -/
  | subkeyNoValue
  /-- A read of `L` at an index that holds no value: MIXL. Safe. -/
  | keyWordNoValue
  /-- A read of `PAYLOAD` beyond `LEN`: RDB. Safe. -/
  | payloadOutOfRange
deriving DecidableEq, Repr

/-- Why a step has no meaning. All are safe. -/
inductive Refusal where
  /-- An instruction whose meaning is not written yet: exec's arm. Safe. -/
  | notModelled (mnemonic : String)
  /-- A payload of 2^32 bytes or more, which no packet can express (R70, U20, U22): accepting a packet. Safe. -/
  | payloadTooLong
  /-- A select code from 0x11 to 0x1F (R85, U8: "no behaviour is defined"): driving a micro-operation. Safe. -/
  | unusedSelectCode
deriving DecidableEq, Repr

end Sys2Proof.Machine
end

