-- ==== Sys2Proof/Machine/Ops.lean ====
section
/-! DEFINITION. The shared operations: the word datapath as pure functions (40_word_datapath.md), the byte space
(20_memory.md), and how a command ends, with a status or with a result (60_exceptions.md R210, 00_scope.md R16). -/

namespace Sys2Proof.Machine

/-! ### The word datapath -/

/-- The word of `w` bits that a store holds: its low `w` bits (R42). -/
def toWord (w : Nat) (x : Slot) : BitVec w := x.setWidth w

/-- A word put into a store (R42; log 3). -/
def ofWord {w : Nat} (v : BitVec w) : Slot := v.setWidth 64

/-- ZERO: the word with every bit clear (R90). -/
def zeroWord (w : Nat) : BitVec w := 0

/-- PW: the constant `P_w`, tabulated (R8, R91). -/
def pWord : (W : Width) → BitVec W.bits
  | .w8 => (0xB7 : BitVec 8)
  | .w16 => (0xB7E1 : BitVec 16)
  | .w32 => (0xB7E15163 : BitVec 32)
  | .w64 => (0xB7E151628AED2A6B : BitVec 64)

/-- QW: the constant `Q_w`, tabulated (R8, R92). -/
def qWord : (W : Width) → BitVec W.bits
  | .w8 => (0x9F : BitVec 8)
  | .w16 => (0x9E37 : BitVec 16)
  | .w32 => (0x9E3779B9 : BitVec 32)
  | .w64 => (0x9E3779B97F4A7C15 : BitVec 64)

/-- ADDW: addition modulo `2^w`, the carry dropped (R93). -/
def addWord {w : Nat} (x y : BitVec w) : BitVec w := x + y

/-- SUBW: subtraction modulo `2^w`, the borrow dropped (R94). -/
def subWord {w : Nat} (x y : BitVec w) : BitVec w := x - y

/-- XORW: bitwise exclusive or (R95). -/
def xorWord {w : Nat} (x y : BitVec w) : BitVec w := x ^^^ y

/-- ROTL: rotation left by the count reduced modulo `w` (R96). The count 0 is an arm of its own. -/
def rotlWord {w : Nat} (x : BitVec w) (n : Nat) : BitVec w :=
  let s := n % w
  if s = 0 then x else (x <<< s) + (x >>> (w - s))

/-- ROTR: rotation right by the count reduced modulo `w` (R97). -/
def rotrWord {w : Nat} (x : BitVec w) (n : Nat) : BitVec w :=
  let s := n % w
  if s = 0 then x else (x >>> s) + (x <<< (w - s))

/-- MODW: a word's value reduced modulo `w`, the rotation count (R98). -/
def modWord {w : Nat} (x : BitVec w) : Nat := x.toNat % w

/-- The natural number that a byte sequence stands for, the first byte the least significant (R50). -/
def leNat : List Byte → Nat
  | [] => 0
  | d :: ds => d.toNat + 256 * leNat ds

/-- LEPACK: the word of a byte sequence (R99). -/
def lePack (w : Nat) (ds : List Byte) : BitVec w := BitVec.ofNat w (leNat ds)

/-- The low `n` bytes of a number, the least significant first (R50). -/
def leBytes : Nat → Nat → List Byte
  | 0, _ => []
  | n + 1, v => BitVec.ofNat 8 v :: leBytes n (v / 256)

/-- LEUNPACK: the `u` bytes of a word (R100). -/
def leUnpack (W : Width) (x : BitVec W.bits) : List Byte := leBytes W.bytes x.toNat

/-! ### The byte space -/

/-- `Memory.read m a`: the byte at offset `a`; none where no value is held (R41, R56). -/
def Memory.read : Memory → Nat → Option Byte
  | [], _ => none
  | (k, v) :: m, a => if k = a then some v else Memory.read m a

/-- `Memory.write m a b`: the byte at offset `a` set to `b`, the form kept canonical (R57). -/
def Memory.write : Memory → Nat → Byte → Memory
  | [], a, b => [(a, b)]
  | (k, v) :: m, a, b =>
    if a < k then (a, b) :: (k, v) :: m
    else if a = k then (a, b) :: m
    else (k, v) :: Memory.write m a b

/-- MemWrite: bytes written at increasing offsets from `a` on (R57). -/
def Memory.writeBytes (m : Memory) (a : Nat) : List Byte → Memory
  | [] => m
  | b :: bs => Memory.writeBytes (Memory.write m a b) (a + 1) bs

/-- MemRead: the `n` bytes from offset `a` on (R56); none if any of them holds no value. -/
def Memory.readBytes (m : Memory) (a : Nat) : Nat → Option (List Byte)
  | 0 => some []
  | n + 1 =>
    match Memory.read m a, Memory.readBytes m (a + 1) n with
    | some b, some bs => some (b :: bs)
    | _, _ => none

/-- The canonical form: offsets strictly rising. -/
abbrev Memory.wf (m : Memory) : Prop := (m.map Prod.fst).Pairwise (· < ·)

/-! ### Outcomes -/

/-- The three outcomes of a step of this machine. -/
abbrev Out := Host.Outcome State Fault Refusal

/-- Going on from a next state; a stop stays a stop. -/
def andThen (o : Out) (f : State → Out) : Out :=
  match o with
  | .next s => f s
  | .fault r => .fault r
  | .refused r => .refused r

/-! ### How a command ends -/

/-- The response registers that a verdict and an output buffer fill (R33, R78). -/
def responseOf (v : Verdict) (bytes : List Byte) : Response where
  status := v.status
  info0 := v.info0
  info1 := v.info1
  rlen := BitVec.ofNat 32 bytes.length
  payload := bytes

/-- The end of a command: the response is written and delivered, the sequencer is idle, and what the host lent goes back
(R33, R36 RESPOND, R39, R210; log 8). -/
def deliver (v : Verdict) (bytes : List Byte) (s : State) : State :=
  { s with
    seq := { s.seq with phase := .idle }
    resp := responseOf v bytes
    port := { s.port with cw := 0, payload := [], outbox := s.port.outbox ++ [responseOf v bytes] }
    verdict := Verdict.ok
    dp := Datapath.idle }

/-- `raise <Status>(info0, info1)`, this machine's taking of an exception: the status and the lengths are recorded in
the response, no output byte, both slots as they were, and the sequencer idle (R210, R211). There is no handler to enter
and no return to take (R212): the response is the trap. -/
def raise (v : Verdict) (s : State) : State := deliver v [] s

/-- `respond OK(bytes)` (R16, R78): what a successful command does last. -/
def respond (bytes : List Byte) (s : State) : State := deliver Verdict.ok bytes s

end Sys2Proof.Machine
end

