-- ==== Sys2Proof/Machine/Operands.lean ====
section
/-! DEFINITION. The operand forms: the width in use, the operand latches of the datapath, the readers' accesses to `KEYBUF` and
`PAYLOAD`, the entries of `S` and `L` (10_state.md, 20_memory.md, 41_key_container_and_readers.md). -/

namespace Sys2Proof.Machine

/-- `LEN`, the byte count of the payload of the command in progress (R70). -/
def State.len (s : State) : Nat := s.port.payload.length

/-- The width `w` of the command in progress: the one a SETUP names, else the engine slot's (R21, R26). -/
def State.width (s : State) : Width :=
  if cwIsSetup s.port.cw then Width.ofCode (cwWsel s.port.cw) else s.eng.wsel

/-- The operand `x` of a micro-operation. -/
def State.opX (s : State) : BitVec s.width.bits := toWord s.width.bits s.dp.x

/-- The operand `y` of a micro-operation, or its count `n`. -/
def State.opY (s : State) : BitVec s.width.bits := toWord s.width.bits s.dp.y

/-- The subkey operand `k` of a half-round. -/
def State.opK (s : State) : BitVec s.width.bits := toWord s.width.bits s.dp.k

/-- The byte operand of LEPACK: exactly `u` bytes (R99). -/
def State.opBytes (s : State) : List Byte := s.dp.bytes.toList.take s.width.bytes

/-- The register `A` as a word of the width in use (R21). -/
def State.regA (s : State) : BitVec s.width.bits := toWord s.width.bits s.work.A

/-- The register `B` as a word of the width in use (R21). -/
def State.regB (s : State) : BitVec s.width.bits := toWord s.width.bits s.work.B

/-- A word result. -/
def State.setRes (s : State) {w : Nat} (v : BitVec w) : State := { s with dp := { s.dp with res := ofWord v } }

/-- The updated operand `x` of a half-round. -/
def State.setX (s : State) {w : Nat} (v : BitVec w) : State := { s with dp := { s.dp with x := ofWord v } }

/-- A byte-sequence result. -/
def State.setResBytes (s : State) (ds : List Byte) : State := { s with dp := { s.dp with resBytes := ds } }

/-- MemRead(KEYBUF, addr, n) (R56). -/
def memReadKeybuf (s : State) (addr n : Nat) : Option (List Byte) := Memory.readBytes s.key.keybuf addr n

/-- MemRead(PAYLOAD, addr, n) (R56): none beyond `LEN`. -/
def memReadPayload (s : State) (addr n : Nat) : Option (List Byte) :=
  if addr + n ≤ s.len then some ((s.port.payload.drop addr).take n) else none

/-- `S[i]`; none where no value is held (R23, R41). -/
def State.subkey? (s : State) (i : Nat) : Option Slot := s.eng.S[i]?

/-- `L[j]`; none where no value is held (R24, R41). -/
def State.keyWord? (s : State) (j : Nat) : Option Slot := s.work.L[j]?

/-- `t = 2·(r+1)`, the length of the subkey table (R11). -/
def subkeyCount (r : BitVec 8) : Nat := 2 * (r.toNat + 1)

/-- `c = KLEN/u`, the number of key words (R11, R144). -/
def keyWordCount (W : Width) (s : State) : Nat := s.key.klen.toNat / W.bytes

/-- The word reader run to its end: the `n` words of a byte sequence, `u` bytes each (R125, R126, R144). -/
def readWords (W : Width) : Nat → List Byte → List (BitVec W.bits)
  | 0, _ => []
  | n + 1, ds => lePack W.bits (ds.take W.bytes) :: readWords W n (ds.drop W.bytes)

/-- The block reader run to its end: the `n` pairs `(A, B)` of a byte sequence, `A` in the lower half (R51, R128). -/
def readBlocks (W : Width) : Nat → List Byte → List (BitVec W.bits × BitVec W.bits)
  | 0, _ => []
  | n + 1, ds =>
    (lePack W.bits (ds.take W.bytes), lePack W.bits ((ds.drop W.bytes).take W.bytes))
      :: readBlocks W n (ds.drop W.block)

/-- The bytes of one output block: `A`'s, then `B`'s (R130). -/
def blockBytes (W : Width) (p : BitVec W.bits × BitVec W.bits) : List Byte := leUnpack W p.1 ++ leUnpack W p.2

end Sys2Proof.Machine
end

