-- ==== Sys2Proof/Machine/Flags.lean ====
section
/-! DEFINITION. There are no arithmetic flags (10_state.md R32): the only one-bit status state is `KVALID` and `ENG_STATE`. What
stands here instead of flag computations is every status computation: the checks a command makes, in the order of
60_exceptions.md R207, each answering the verdict of the first check that fails. -/

namespace Sys2Proof.Machine

/-- The verdict of an illegal command (R80, R200). -/
def illegalVerdict : Verdict := ⟨.illegalCommand, 0, 0⟩

/-- KEY's check (R122, R201): `LEN = 0 or LEN > 256`. -/
def keyCheck (s : State) : Option Verdict :=
  if s.len < Config.keyMin ∨ Config.keyMax < s.len then some ⟨.invalidKeyLength, BitVec.ofNat 32 s.len, 0⟩ else none

/-- SETUP's checks (R141, R142, R143): a key in the slot, then a length that is a multiple of `u`. -/
def setupCheck (W : Width) (s : State) : Option Verdict :=
  if s.key.valid = false then some ⟨.noKey, 0, 0⟩
  else if s.key.klen.toNat % W.bytes ≠ 0 then
    some ⟨.keyNotWordAligned, s.key.klen.setWidth 32, BitVec.ofNat 32 W.bytes⟩
  else none

/-- The checks of ENCODE and DECODE (R169, R170, R178): an engine in the slot, then a length that is a multiple of `b`. -/
def transformCheck (s : State) : Option Verdict :=
  if s.eng.state = .uninitialised then some ⟨.notReady, 0, 0⟩
  else if s.len % s.eng.wsel.block ≠ 0 then
    some ⟨.inputNotBlockAligned, BitVec.ofNat 32 s.len, BitVec.ofNat 32 s.eng.wsel.block⟩
  else none

end Sys2Proof.Machine
end

