-- ==== Sys2Proof/Machine/BlockTransform.lean ====
section
/-! DEFINITION. The two-word block transform (43_block_transform.md): the half-rounds EHR and DHR, and the commands ENCODE and
DECODE. -/

namespace Sys2Proof.Machine

/-! ### The half-rounds -/

/-- The value EHR computes: `rotl_w(x ⊕ y, y mod w) ⊞ k` (R177). -/
def ehrWord {w : Nat} (x y k : BitVec w) : BitVec w := addWord (rotlWord (xorWord x y) (modWord y)) k

/-- The value DHR computes: `rotr_w(x ⊟ k, y mod w) ⊕ y` (R183). With the same `y` and `k` it undoes `ehrWord` (R184). -/
def dhrWord {w : Nat} (x y k : BitVec w) : BitVec w := xorWord (rotrWord (subWord x k) (modWord y)) y

/-- EHR (R177): `x` is updated. -/
def execEhr (s : State) : Out := .next (s.setX (ehrWord s.opX s.opY s.opK))

/-- DHR (R183): `x` is updated. -/
def execDhr (s : State) : Out := .next (s.setX (dhrWord s.opX s.opY s.opK))

/-! ### One block -/

/-- `S[i]` as a word. Every index used is below the number of entries (R176; the commands check that the entries hold
values), so no default is ever read. -/
def subkeyWord (W : Width) (S : List Slot) (i : Nat) : BitVec W.bits := toWord W.bits (S.getD i 0)

/-- `n` encode rounds from round `rnd` on (R174): the second half uses the `A` that the first has written. -/
def encodeRounds (W : Width) (S : List Slot) :
    Nat → Nat → BitVec W.bits × BitVec W.bits → BitVec W.bits × BitVec W.bits
  | 0, _, p => p
  | n + 1, rnd, p =>
    let a := ehrWord p.1 p.2 (subkeyWord W S (2 * rnd))
    let b := ehrWord p.2 a (subkeyWord W S (2 * rnd + 1))
    encodeRounds W S n (rnd + 1) (a, b)

/-- ENCODE of one block: pre-whitening, then the rounds 1 to `r` (R173, R174). -/
def encodeBlock (W : Width) (S : List Slot) (r : Nat) (p : BitVec W.bits × BitVec W.bits) :
    BitVec W.bits × BitVec W.bits :=
  encodeRounds W S r 1 (addWord p.1 (subkeyWord W S 0), addWord p.2 (subkeyWord W S 1))

/-- The decode rounds from `r` down to 1 (R181): `B` is undone first. -/
def decodeRounds (W : Width) (S : List Slot) :
    Nat → BitVec W.bits × BitVec W.bits → BitVec W.bits × BitVec W.bits
  | 0, p => p
  | n + 1, p =>
    let b := dhrWord p.2 p.1 (subkeyWord W S (2 * (n + 1) + 1))
    let a := dhrWord p.1 b (subkeyWord W S (2 * (n + 1)))
    decodeRounds W S n (a, b)

/-- DECODE of one block: the rounds, then the final subtraction (R181, R182). It undoes `encodeBlock` and is undone by it
(R184). -/
def decodeBlock (W : Width) (S : List Slot) (r : Nat) (p : BitVec W.bits × BitVec W.bits) :
    BitVec W.bits × BitVec W.bits :=
  let q := decodeRounds W S r p
  (subWord q.1 (subkeyWord W S 0), subWord q.2 (subkeyWord W S 1))

/-! ### A whole buffer -/

/-- The output blocks of a buffer: each block by itself, in order (R172, R175). -/
def blocksOut (W : Width) (f : BitVec W.bits × BitVec W.bits → BitVec W.bits × BitVec W.bits) (payload : List Byte) :
    List (BitVec W.bits × BitVec W.bits) :=
  (readBlocks W (payload.length / W.block) payload).map f

/-- The output bytes of a buffer (R130, R175); with `encodeBlock` and `decodeBlock` they give an aligned buffer back, in either
order (R184). -/
def bytesOut (W : Width) (f : BitVec W.bits × BitVec W.bits → BitVec W.bits × BitVec W.bits) (payload : List Byte) :
    List Byte :=
  (blocksOut W f payload).flatMap (blockBytes W)

/-- The scratch that a transform leaves: the last block in `A` and `B`, the round index past the loop, the blocks
counted; with no block only `BLK` is written (R20, R36; log 8). -/
def transformScratch (W : Width) (rndEnd : Nat) (blocks : List (BitVec W.bits × BitVec W.bits)) (s : State) : State :=
  match blocks.getLast? with
  | none => { s with seq := { s.seq with BLK := 0 } }
  | some p =>
    { s with
      work := { s.work with A := ofWord p.1, B := ofWord p.2 }
      seq := { s.seq with RND := rndEnd, BLK := blocks.length } }

/-- The common procedure of ENCODE and DECODE (R171, R179) for a block function of the engine's `S` and `r`. The subkeys
must hold values if a block is to be read (R41). -/
def transform (rndEnd : Nat)
    (f : (W : Width) → List Slot → Nat → BitVec W.bits × BitVec W.bits → BitVec W.bits × BitVec W.bits)
    (s : State) : Out :=
  match transformCheck s with
  | some v => .next (raise v s)
  | none =>
    if 0 < s.len ∧ s.eng.S.length < subkeyCount s.eng.rounds then .fault .subkeyNoValue
    else
      let g := f s.eng.wsel s.eng.S s.eng.rounds.toNat
      .next (respond (bytesOut s.eng.wsel g s.port.payload)
        (transformScratch s.eng.wsel rndEnd (blocksOut s.eng.wsel g s.port.payload) s))

/-- ENCODE (R171). -/
def execEncode (s : State) : Out := transform (s.eng.rounds.toNat + 1) encodeBlock s

/-- DECODE (R179). -/
def execDecode (s : State) : Out := transform 0 decodeBlock s

end Sys2Proof.Machine
end

