-- ==== Sys2Proof/Machine/KeyContainer.lean ====
section
/-! DEFINITION. The key container and the two readers (41_key_container_and_readers.md): KEY, RDW, RDB. -/

namespace Sys2Proof.Machine

/-- The key slot with the payload as its key: all three parts replaced at once, and no other offset of `KEYBUF`
holds a value afterwards (R25, R122). -/
def storeKey (s : State) : State :=
  { s with
    key := { valid := true, klen := BitVec.ofNat 9 s.len, keybuf := Memory.writeBytes [] 0 s.port.payload } }

/-- KEY (R122, R123). -/
def execKey (s : State) : Out :=
  match keyCheck s with
  | some v => .next (raise v s)
  | none => .next (respond [] (storeKey s))

/-- RDW (R126): word `q` of `KEYBUF`. The index `q` is `J`, the index into `L` at which the word will stand (log 7). -/
def execRdw (s : State) : Out :=
  match memReadKeybuf s (s.seq.J * s.width.bytes) s.width.bytes with
  | none => .fault .keybufNoValue
  | some ds => .next (s.setRes (lePack s.width.bits ds))

/-- RDB (R128): block `n` of `PAYLOAD` into `A` and `B`. The index `n` is `BLK` (R171; log 7). -/
def execRdb (s : State) : Out :=
  match memReadPayload s (s.seq.BLK * s.width.block) s.width.bytes,
        memReadPayload s (s.seq.BLK * s.width.block + s.width.bytes) s.width.bytes with
  | some da, some db =>
    .next { s with
      work := { s.work with A := ofWord (lePack s.width.bits da), B := ofWord (lePack s.width.bits db) } }
  | _, _ => .fault .payloadOutOfRange

end Sys2Proof.Machine
end

