-- ==== Sys2Proof/Machine/KeyExpansion.lean ====
section
/-! DEFINITION. Key expansion (42_key_expansion.md): the subkey mixer and the four SETUP commands. -/

namespace Sys2Proof.Machine

/-! ### The mixer -/

/-- The value MIXS computes: `rotl_w(S[I] ⊞ A ⊞ B, 3)` (R150). -/
def mixSWord {w : Nat} (si a b : BitVec w) : BitVec w := rotlWord (addWord (addWord si a) b) 3

/-- The value MIXL computes: `rotl_w(L[J] ⊞ A ⊞ B, (A ⊞ B) mod w)`, with the new `A` and the previous `B` (R151). -/
def mixLWord {w : Nat} (lj a b : BitVec w) : BitVec w :=
  rotlWord (addWord (addWord lj a) b) (modWord (addWord a b))

/-- MIXS (R150): `A` and `S[I]` both take the value. -/
def execMixs (s : State) : Out :=
  match s.subkey? s.seq.I with
  | none => .fault .subkeyNoValue
  | some si =>
    let a := ofWord (mixSWord (toWord s.width.bits si) s.regA s.regB)
    .next { s with
      work := { s.work with A := a }
      eng := { s.eng with S := s.eng.S.set s.seq.I a } }

/-- MIXL (R151): `B` and `L[J]` both take the value. -/
def execMixl (s : State) : Out :=
  match s.keyWord? s.seq.J with
  | none => .fault .keyWordNoValue
  | some lj =>
    let b := ofWord (mixLWord (toWord s.width.bits lj) s.regA s.regB)
    .next { s with work := { s.work with B := b, L := s.work.L.set s.seq.J b } }

/-! ### The whole expansion -/

/-- What the mixing loop works on: the two arrays, the two accumulators and the two indices (R146, R148). -/
structure Mix (w : Nat) where
  S : List (BitVec w)
  L : List (BitVec w)
  A : BitVec w
  B : BitVec w
  I : Nat
  J : Nat

/-- The progression of step 2: `n` words from `x` on, each `Q_w` above the one before (R145). -/
def subkeysFrom (W : Width) (x : BitVec W.bits) : Nat → List (BitVec W.bits)
  | 0 => []
  | n + 1 => x :: subkeysFrom W (addWord x (qWord W)) n

/-- The arrays after steps 1 and 2, and the start of step 3 (R144, R145, R146). -/
def mixStart (W : Width) (t c : Nat) (keyBytes : List Byte) : Mix W.bits where
  S := subkeysFrom W (pWord W) t
  L := readWords W c keyBytes
  A := zeroWord W.bits
  B := zeroWord W.bits
  I := 0
  J := 0

/-- One mixing iteration (R148): MIXS, then MIXL with the new `A`, then the two indices. Both indices are always in range
(R149), so no default is ever read. -/
def mixOnce {w : Nat} (t c : Nat) (m : Mix w) : Mix w :=
  let a := mixSWord (m.S.getD m.I 0) m.A m.B
  let b := mixLWord (m.L.getD m.J 0) a m.B
  { S := m.S.set m.I a
    L := m.L.set m.J b
    A := a
    B := b
    I := (m.I + 1) % t
    J := (m.J + 1) % c }

/-- The mixing loop: `n` iterations. -/
def mixLoop {w : Nat} (t c : Nat) : Nat → Mix w → Mix w
  | 0, m => m
  | n + 1, m => mixLoop t c n (mixOnce t c m)

/-- The number of mixing iterations, `3·max(t, c)` (R147). -/
def mixCount (t c : Nat) : Nat := 3 * max t c

/-- Key expansion: steps 1 to 3 (R143 to R149). -/
def expandKey (W : Width) (r : BitVec 8) (keyBytes : List Byte) : Mix W.bits :=
  let t := subkeyCount r
  let c := keyBytes.length / W.bytes
  mixLoop t c (mixCount t c) (mixStart W t c keyBytes)

/-- Step 4 (R152): the engine slot becomes `(WSEL, ROUNDS, S)` and Ready, and `L` is discarded. The accumulators and counters
keep what the loop left in them (log 8). -/
def installEngine (W : Width) (r : BitVec 8) (k : Nat) (m : Mix W.bits) (s : State) : State :=
  { s with
    eng := { state := .ready, wsel := W, rounds := r, S := m.S.map ofWord }
    work := { A := ofWord m.A, B := ofWord m.B, L := [] }
    seq := { s.seq with I := m.I, J := m.J, K := k } }

/-- The common procedure of the SETUP commands (R143). -/
def setup (W : Width) (r : BitVec 8) (s : State) : Out :=
  match setupCheck W s with
  | some v => .next (raise v s)
  | none =>
    match memReadKeybuf s 0 s.key.klen.toNat with
    | none => .fault .keybufNoValue
    | some keyBytes =>
      .next (respond [] (installEngine W r (mixCount (subkeyCount r) (keyWordCount W s)) (expandKey W r keyBytes) s))

/-- SETUP.W8 (R160). -/
def execSetupW8 (r : BitVec 8) (s : State) : Out := setup .w8 r s

/-- SETUP.W16 (R161). -/
def execSetupW16 (r : BitVec 8) (s : State) : Out := setup .w16 r s

/-- SETUP.W32 (R162). -/
def execSetupW32 (r : BitVec 8) (s : State) : Out := setup .w32 r s

/-- SETUP.W64 (R163). -/
def execSetupW64 (r : BitVec 8) (s : State) : Out := setup .w64 r s

end Sys2Proof.Machine
end

