-- ==== Sys2Proof/Machine/WordDatapath.lean ====
section
/-! DEFINITION. The eleven primitive micro-operations (40_word_datapath.md). Each takes its operands from the datapath's latches at
the width in use and leaves its result in a latch; none touches other state, none raises a status (R101; log 7). -/

namespace Sys2Proof.Machine

/-- ZERO (R90). -/
def execZero (s : State) : Out := .next (s.setRes (zeroWord s.width.bits))

/-- PW (R91). -/
def execPw (s : State) : Out := .next (s.setRes (pWord s.width))

/-- QW (R92). -/
def execQw (s : State) : Out := .next (s.setRes (qWord s.width))

/-- ADDW (R93). -/
def execAddw (s : State) : Out := .next (s.setRes (addWord s.opX s.opY))

/-- SUBW (R94): `x` is the minuend, `y` the subtrahend. -/
def execSubw (s : State) : Out := .next (s.setRes (subWord s.opX s.opY))

/-- XORW (R95). -/
def execXorw (s : State) : Out := .next (s.setRes (xorWord s.opX s.opY))

/-- ROTL (R96): the count is the word `y`. -/
def execRotl (s : State) : Out := .next (s.setRes (rotlWord s.opX s.opY.toNat))

/-- ROTR (R97): the count is the word `y`. -/
def execRotr (s : State) : Out := .next (s.setRes (rotrWord s.opX s.opY.toNat))

/-- MODW (R98). -/
def execModw (s : State) : Out := .next (s.setRes (BitVec.ofNat s.width.bits (modWord s.opX)))

/-- LEPACK (R99). -/
def execLepack (s : State) : Out := .next (s.setRes (lePack s.width.bits s.opBytes))

/-- LEUNPACK (R100). -/
def execLeunpack (s : State) : Out := .next (s.setResBytes (leUnpack s.width s.opX))

end Sys2Proof.Machine
end

