-- ==== Sys2Proof/Machine/Dispatch.lean ====
section
/-! DEFINITION. One arm per instruction. -/

namespace Sys2Proof.Machine

def exec (i : Instr) (s : State) : Host.Outcome State Fault Refusal :=
  match i with
  | .key => Sys2Proof.Machine.execKey s
  | .encode => Sys2Proof.Machine.execEncode s
  | .decode => Sys2Proof.Machine.execDecode s
  | .setupW8 r => Sys2Proof.Machine.execSetupW8 r s
  | .setupW16 r => Sys2Proof.Machine.execSetupW16 r s
  | .setupW32 r => Sys2Proof.Machine.execSetupW32 r s
  | .setupW64 r => Sys2Proof.Machine.execSetupW64 r s
  | .zero => Sys2Proof.Machine.execZero s
  | .pw => Sys2Proof.Machine.execPw s
  | .qw => Sys2Proof.Machine.execQw s
  | .addw => Sys2Proof.Machine.execAddw s
  | .subw => Sys2Proof.Machine.execSubw s
  | .xorw => Sys2Proof.Machine.execXorw s
  | .rotl => Sys2Proof.Machine.execRotl s
  | .rotr => Sys2Proof.Machine.execRotr s
  | .modw => Sys2Proof.Machine.execModw s
  | .lepack => Sys2Proof.Machine.execLepack s
  | .leunpack => Sys2Proof.Machine.execLeunpack s
  | .rdw => Sys2Proof.Machine.execRdw s
  | .rdb => Sys2Proof.Machine.execRdb s
  | .mixs => Sys2Proof.Machine.execMixs s
  | .mixl => Sys2Proof.Machine.execMixl s
  | .ehr => Sys2Proof.Machine.execEhr s
  | .dhr => Sys2Proof.Machine.execDhr s

end Sys2Proof.Machine
end

