-- ==== Sys2Proof/Machine/Sequencer.lean ====
section
/-! DEFINITION. The sequencer, this hardware's program counter (10_state.md R36, R37): the program of micro-operations that each phase
drives, kept as data so that it can be counted (70_reset_and_hazards.md R244), and one visit of a phase. A command run
visit by visit ends as the atomic command of Dispatch.lean does (R36: "both give the same responses and the same state
between commands"). -/

namespace Sys2Proof.Machine

/-! ### Micro-instructions -/

/-- Where the operands of a micro-operation come from (log 7). -/
inductive Route where
  /-- The latches stay as they are. -/
  | keep
  /-- `J` becomes the index of the key word to read (RDW). -/
  | keyWord (q : Nat)
  /-- `x` is `A`, `y` is `S[i]`. -/
  | aSubkey (i : Nat)
  /-- `x` is `B`, `y` is `S[i]`. -/
  | bSubkey (i : Nat)
  /-- `x` is `A`, `y` is `B`, `k` is `S[i]`. -/
  | aHalf (i : Nat)
  /-- `x` is `B`, `y` is `A`, `k` is `S[i]`. -/
  | bHalf (i : Nat)
  /-- `x` is `A`. -/
  | onlyA
  /-- `x` is `B`. -/
  | onlyB
deriving DecidableEq, Repr

/-- Where the result of a micro-operation goes. -/
inductive Dest where
  /-- Nowhere: the micro-operation wrote its registers itself. -/
  | stay
  /-- The result into `A`. -/
  | toA
  /-- The result into `B`. -/
  | toB
  /-- The updated operand into `A`. -/
  | xToA
  /-- The updated operand into `B`. -/
  | xToB
  /-- The result into the operand `y`. -/
  | toY
  /-- The result as the next entry of `L`. -/
  | pushL
  /-- The result as the next entry of `S`, and into the operand `x`. -/
  | pushS
  /-- The result bytes at the end of `RPAYLOAD`. -/
  | emit
deriving DecidableEq, Repr

/-- One use of a datapath unit: route, micro-operation, destination (R85). -/
structure Micro where
  route : Route
  uop : Instr
  dest : Dest
deriving DecidableEq, Repr

/-- Operand routing that reads a subkey: none where it holds no value. -/
def withSubkey (i : Nat) (f : Slot → State) (s : State) : Out :=
  match s.subkey? i with
  | none => .fault .subkeyNoValue
  | some k => .next (f k)

/-- The operands put in place. -/
def applyRoute (r : Route) (s : State) : Out :=
  match r with
  | .keep => .next s
  | .keyWord q => .next { s with seq := { s.seq with J := q } }
  | .aSubkey i => withSubkey i (fun k => { s with dp := { s.dp with x := s.work.A, y := k } }) s
  | .bSubkey i => withSubkey i (fun k => { s with dp := { s.dp with x := s.work.B, y := k } }) s
  | .aHalf i => withSubkey i (fun k => { s with dp := { s.dp with x := s.work.A, y := s.work.B, k := k } }) s
  | .bHalf i => withSubkey i (fun k => { s with dp := { s.dp with x := s.work.B, y := s.work.A, k := k } }) s
  | .onlyA => .next { s with dp := { s.dp with x := s.work.A } }
  | .onlyB => .next { s with dp := { s.dp with x := s.work.B } }

/-- The result put in its place. -/
def applyDest (d : Dest) (s : State) : State :=
  match d with
  | .stay => s
  | .toA => { s with work := { s.work with A := s.dp.res } }
  | .toB => { s with work := { s.work with B := s.dp.res } }
  | .xToA => { s with work := { s.work with A := s.dp.x } }
  | .xToB => { s with work := { s.work with B := s.dp.x } }
  | .toY => { s with dp := { s.dp with y := s.dp.res } }
  | .pushL => { s with work := { s.work with L := s.work.L ++ [s.dp.res] } }
  | .pushS => { s with eng := { s.eng with S := s.eng.S ++ [s.dp.res] }, dp := { s.dp with x := s.dp.res } }
  | .emit => { s with resp := { s.resp with payload := s.resp.payload ++ s.dp.resBytes } }

/-- One micro-instruction. -/
def drive (m : Micro) (s : State) : Out :=
  andThen (applyRoute m.route s) fun s₁ => andThen (exec m.uop s₁) fun s₂ => .next (applyDest m.dest s₂)

/-- Micro-instructions in the order listed; each sees every earlier write (R61). -/
def runProgram : List Micro → State → Out
  | [], s => .next s
  | m :: ms, s => andThen (drive m s) (runProgram ms)

/-! ### The program of each phase -/

/-- What a phase writes before its micro-operations: KX_LOAD makes the engine slot Uninitialised and starts `L` afresh,
KX_INIT starts `S` afresh (R36, R143). -/
def prepare (s : State) : State :=
  match s.seq.phase with
  | .kxLoad => { s with eng := { s.eng with state := .uninitialised }, work := { s.work with L := [] } }
  | .kxInit => { s with eng := { s.eng with S := [] } }
  | .idle | .check | .keyStore | .kxMix | .blkRead | .encPre | .encRound | .decRound | .decPost | .blkWrite
  | .respond => s

/-- The micro-operations a visit of the present phase drives (R36; the commands' pseudocode in R143, R171, R179). -/
def program (s : State) : List Micro :=
  match s.seq.phase with
  | .kxLoad => (List.range (keyWordCount s.width s)).map fun q => ⟨.keyWord q, .rdw, .pushL⟩
  | .kxInit =>
    [⟨.keep, .pw, .pushS⟩, ⟨.keep, .qw, .toY⟩]
      ++ List.replicate (subkeyCount (cwRounds s.port.cw) - 1) ⟨.keep, .addw, .pushS⟩
      ++ [⟨.keep, .zero, .toA⟩, ⟨.keep, .zero, .toB⟩]
  | .kxMix => [⟨.keep, .mixs, .stay⟩, ⟨.keep, .mixl, .stay⟩]
  | .blkRead => [⟨.keep, .rdb, .stay⟩]
  | .encPre => [⟨.aSubkey 0, .addw, .toA⟩, ⟨.bSubkey 1, .addw, .toB⟩]
  | .encRound => [⟨.aHalf (2 * s.seq.RND), .ehr, .xToA⟩, ⟨.bHalf (2 * s.seq.RND + 1), .ehr, .xToB⟩]
  | .decRound => [⟨.bHalf (2 * s.seq.RND + 1), .dhr, .xToB⟩, ⟨.aHalf (2 * s.seq.RND), .dhr, .xToA⟩]
  | .decPost => [⟨.bSubkey 1, .subw, .toB⟩, ⟨.aSubkey 0, .subw, .toA⟩]
  | .blkWrite => [⟨.onlyA, .leunpack, .emit⟩, ⟨.onlyB, .leunpack, .emit⟩]
  | .idle | .check | .keyStore | .respond => []

/-- The sequencer moves to a phase (R16). -/
def State.toPhase (s : State) (p : Phase) : State := { s with seq := { s.seq with phase := p } }

/-- KX_MIX after its two micro-operations: the indices and the count step; after the last iteration the engine slot becomes
Ready and `L` is discarded (R36, R148, R152). -/
def advanceMix (s : State) : State :=
  let t := subkeyCount (cwRounds s.port.cw)
  let c := keyWordCount s.width s
  let s₁ : State :=
    { s with seq := { s.seq with I := (s.seq.I + 1) % t, J := (s.seq.J + 1) % c, K := s.seq.K + 1 } }
  if s₁.seq.K < mixCount t c then s₁
  else
    { s₁ with
      eng := { s.eng with state := .ready, wsel := s.width, rounds := cwRounds s.port.cw }
      work := { s.work with L := [] }
      seq := { s₁.seq with phase := .respond } }

/-- The counters and the phase after a visit's micro-operations (the column "next" of R36). -/
def advance (s : State) : State :=
  let r := s.eng.rounds.toNat
  match s.seq.phase with
  | .kxLoad => s.toPhase .kxInit
  | .kxInit => { s with seq := { s.seq with phase := .kxMix, I := 0, J := 0, K := 0 } }
  | .kxMix => advanceMix s
  | .blkRead =>
    if cwOp s.port.cw = 3 then
      { s with seq := { s.seq with RND := r, phase := if r = 0 then .decPost else .decRound } }
    else s.toPhase .encPre
  | .encPre => { s with seq := { s.seq with RND := 1, phase := if 1 ≤ r then .encRound else .blkWrite } }
  | .encRound =>
    { s with
      seq := { s.seq with RND := s.seq.RND + 1, phase := if s.seq.RND + 1 ≤ r then .encRound else .blkWrite } }
  | .decRound =>
    { s with
      seq := { s.seq with RND := s.seq.RND - 1, phase := if 1 ≤ s.seq.RND - 1 then .decRound else .decPost } }
  | .decPost => s.toPhase .blkWrite
  | .blkWrite =>
    { s with
      seq :=
        { s.seq with
          BLK := s.seq.BLK + 1
          phase := if (s.seq.BLK + 1) * s.width.block < s.len then .blkRead else .respond } }
  | .idle | .check | .keyStore | .respond => s

/-! ### CHECK, and a visit -/

/-- The checks of a decoded command (R207, steps 2 and 3). A micro-operation makes none. -/
def commandCheck (i : Instr) (s : State) : Option Verdict :=
  match i with
  | .key => keyCheck s
  | .encode | .decode => transformCheck s
  | .setupW8 _ => setupCheck .w8 s
  | .setupW16 _ => setupCheck .w16 s
  | .setupW32 _ => setupCheck .w32 s
  | .setupW64 _ => setupCheck .w64 s
  | .zero | .pw | .qw | .addw | .subw | .xorw | .rotl | .rotr | .modw | .lepack | .leunpack | .rdw | .rdb | .mixs
  | .mixl | .ehr | .dhr => none

/-- The phase after CHECK for a command whose checks pass (R36). -/
def firstPhase (i : Instr) (s : State) : Phase :=
  match i with
  | .key => .keyStore
  | .setupW8 _ | .setupW16 _ | .setupW32 _ | .setupW64 _ => .kxLoad
  | .encode | .decode => if 0 < s.len then .blkRead else .respond
  | .zero | .pw | .qw | .addw | .subw | .xorw | .rotl | .rotr | .modw | .lepack | .leunpack | .rdw | .rdb | .mixs
  | .mixl | .ehr | .dhr => .respond

/-- The block count of an ENCODE or a DECODE starts at 0 (R171, R179). -/
def startBlocks (i : Instr) (s : State) : State :=
  match i with
  | .encode | .decode => { s with seq := { s.seq with BLK := 0 } }
  | .key | .setupW8 _ | .setupW16 _ | .setupW32 _ | .setupW64 _ => s
  | .zero | .pw | .qw | .addw | .subw | .xorw | .rotl | .rotr | .modw | .lepack | .leunpack | .rdw | .rdb | .mixs
  | .mixl | .ehr | .dhr => s

/-- CHECK settles the verdict of a command (R207): the decode check, then the command's own checks. -/
def settle (s : State) : Verdict :=
  match decodeCommand s.port.cw s.len with
  | .error _ => illegalVerdict
  | .ok i => (commandCheck i s).getD Verdict.ok

/-- A visit of CHECK (R36): RESPOND on any failure, else the command's first phase, with a fresh output buffer (R59). -/
def checkVisit (s : State) : State :=
  let s₁ : State := { s with verdict := settle s, resp := { s.resp with payload := [] } }
  match decodeCommand s.port.cw s.len with
  | .error _ => s₁.toPhase .respond
  | .ok i => if (commandCheck i s).isSome then s₁.toPhase .respond else (startBlocks i s₁).toPhase (firstPhase i s)

/-- A visit of a phase that drives the datapath. -/
def dataVisit (s : State) : Out :=
  andThen (runProgram (program (prepare s)) (prepare s)) fun t => .next (advance t)

/-- One visit of the present phase (R36). -/
def visit (s : State) : Out :=
  match s.seq.phase with
  | .idle => .next s
  | .check => .next (checkVisit s)
  | .keyStore => .next ((storeKey s).toPhase .respond)
  | .respond => .next (deliver s.verdict s.resp.payload s)
  | .kxLoad => dataVisit s
  | .kxInit => dataVisit s
  | .kxMix => dataVisit s
  | .blkRead => dataVisit s
  | .encPre => dataVisit s
  | .encRound => dataVisit s
  | .decRound => dataVisit s
  | .decPost => dataVisit s
  | .blkWrite => dataVisit s

/-- `n` visits. -/
def runVisits : Nat → State → Out
  | 0, s => .next s
  | n + 1, s => andThen (visit s) (runVisits n)

/-! ### Counts -/

/-- The visits that a command whose checks pass takes from CHECK to the end of RESPOND: every loop is a counted loop (R37). -/
def successVisits (i : Instr) (s : State) : Nat :=
  let perSetup (W : Width) (r : BitVec 8) := 4 + mixCount (subkeyCount r) (keyWordCount W s)
  let perTransform := 2 + s.len / s.eng.wsel.block * (3 + s.eng.rounds.toNat)
  match i with
  | .key => 3
  | .setupW8 r => perSetup .w8 r
  | .setupW16 r => perSetup .w16 r
  | .setupW32 r => perSetup .w32 r
  | .setupW64 r => perSetup .w64 r
  | .encode | .decode => perTransform
  | .zero | .pw | .qw | .addw | .subw | .xorw | .rotl | .rotr | .modw | .lepack | .leunpack | .rdw | .rdb | .mixs
  | .mixl | .ehr | .dhr => 2

/-- The visits that the command at CHECK takes: two if it fails (CHECK and RESPOND). -/
def visitCount (s : State) : Nat :=
  match decodeCommand s.port.cw s.len with
  | .error _ => 2
  | .ok i => if (commandCheck i s).isSome then 2 else successVisits i s

/-- The micro-operations driven in the next `n` visits, in order (R244). -/
def drivenIn : Nat → State → List Instr
  | 0, _ => []
  | n + 1, s =>
    (program (prepare s)).map Micro.uop
      ++ (match visit s with
          | .next t => drivenIn n t
          | .fault _ => []
          | .refused _ => [])

/-- The primitive units inside one use of a composed micro-operation (R85, R126, R128, R244): the sum `A ⊞ B` of MIXL is taken
once. -/
def unitsOf : Instr → List Instr
  | .mixs => [.addw, .addw, .rotl]
  | .mixl => [.addw, .addw, .modw, .rotl]
  | .ehr => [.xorw, .modw, .rotl, .addw]
  | .dhr => [.subw, .modw, .rotr, .xorw]
  | .rdw => [.lepack]
  | .rdb => [.lepack, .lepack]
  | .key => []
  | .encode => []
  | .decode => []
  | .setupW8 _ => []
  | .setupW16 _ => []
  | .setupW32 _ => []
  | .setupW64 _ => []
  | .zero => [.zero]
  | .pw => [.pw]
  | .qw => [.qw]
  | .addw => [.addw]
  | .subw => [.subw]
  | .xorw => [.xorw]
  | .rotl => [.rotl]
  | .rotr => [.rotr]
  | .modw => [.modw]
  | .lepack => [.lepack]
  | .leunpack => [.leunpack]

end Sys2Proof.Machine
end

