-- ==== Sys2Proof/Machine/Fetch.lean ====
section
/-! DEFINITION. What stands around the instructions: the command port, reset, and the driving of one micro-operation (30_encoding.md
R70, R80, R85, 20_memory.md R60, 70_reset_and_hazards.md R230, R232, 60_exceptions.md R223). Step.lean only calls these. -/

namespace Sys2Proof.Machine

/-- A packet accepted from the port: its word and its payload are lent to the machine (R39, R70). -/
def State.accept (s : State) (cw : BitVec 16) (payload : List Byte) (rest : List PortEvent) : State :=
  { s with port := { s.port with cw := cw, payload := payload, inbox := rest } }

/-- The command just accepted, as one atomic step (R60). An illegal one ends with IllegalCommand, and its payload is
discarded (R80). -/
def runCommand (s : State) : Out :=
  match decodeCommand s.port.cw s.len with
  | .error _ => .next (raise illegalVerdict s)
  | .ok i => exec i s

/-- A payload that no packet can express is refused (U20, U22); otherwise `f` goes on. -/
def framed (payload : List Byte) (f : Out) : Out :=
  if payload.length < Config.payloadBound then f else .refused .payloadTooLong

/-- The state after reset, in any phase: a command in progress is abandoned without a response (R230, R232). What the
host has lined up and what it has been answered are the host's (log 6). -/
def State.afterReset (s : State) (rest : List PortEvent) : State :=
  { State.reset with port := { State.reset.port with inbox := rest, outbox := s.port.outbox } }

/-- A step in IDLE (R60, R223): the next port event, or nothing at all. -/
def idleStep (s : State) : Out :=
  match s.port.inbox with
  | [] => .next s
  | .pause :: rest => .next { s with port := { s.port with inbox := rest } }
  | .reset :: rest => .next (s.afterReset rest)
  | .command cw payload :: rest => framed payload (runCommand (s.accept cw payload rest))
  | .paced cw payload :: rest => framed payload (.next ((s.accept cw payload rest).toPhase .check))

/-- A step while a command is in progress: a reset abandons it (R232), else the present phase is visited. No further packet
is accepted before the response (R60). -/
def busyStep (s : State) : Out :=
  match s.port.inbox with
  | .reset :: rest => .next (s.afterReset rest)
  | .pause :: rest => visit { s with port := { s.port with inbox := rest } }
  | [] => visit s
  | .command _ _ :: _ => visit s
  | .paced _ _ :: _ => visit s

/-- A micro-operation being driven (R85); an unused select code has no meaning (U8). -/
def runSelect (uop : BitVec 5) (s : State) : Out :=
  match decodeSelect uop with
  | .error _ => .refused .unusedSelectCode
  | .ok i => exec i { s with uop := none }

/-- One step: the micro-operation being driven, else the present phase, else the port. -/
def fetchStep (s : State) : Out :=
  match s.uop with
  | some uop => runSelect uop s
  | none => if s.seq.phase = .idle then idleStep s else busyStep s

/-- A list, or another in the place of an empty one. -/
def orElseList {α : Type} (l d : List α) : List α := if l.isEmpty then d else l

/-- The operands that a command in progress would lend to a micro-operation, zeros where none are held: one block of
payload, one key word, one entry of `L`, two of `S` (log 13). -/
def lendOperands (s : State) : State :=
  { s with
    port := { s.port with payload := orElseList s.port.payload (List.replicate 16 0) }
    key := { s.key with keybuf := orElseList s.key.keybuf (Memory.writeBytes [] 0 (List.replicate 8 0)) }
    eng := { s.eng with S := orElseList s.eng.S [0, 0] }
    work := { s.work with L := orElseList s.work.L [0] } }

/-- A select code placed so that the next step drives it. -/
def placeSelect (uop : BitVec 5) (s : State) : State :=
  { (if s.seq.phase = .idle then lendOperands s else s) with uop := some uop }

/-- A packet with an empty payload placed so that the next step accepts and runs it. -/
def placeCommand (cw : BitVec 16) (s : State) : State :=
  { s with
    uop := none
    seq := { s.seq with phase := .idle }
    port := { s.port with inbox := .command cw [] :: s.port.inbox } }

/-- A row's bits placed where the machine takes its next instruction from (log 13, log 14). -/
def placeTableWord (s : State) (nbits w : Nat) : State :=
  if nbits ≤ 8 then placeSelect (BitVec.ofNat 5 w) s else placeCommand (BitVec.ofNat 16 w) s

end Sys2Proof.Machine
end

