-- ==== Sys2Proof/Machine/Step.lean ====
section
/-! DEFINITION. The step of the machine, and the placing of a table row's word for it. -/

namespace Sys2Proof.Machine

/-- One step of the machine (Fetch.lean). -/
def step (s : State) : Host.Outcome State Fault Refusal := fetchStep s

/-- `s` with a table row's word standing where the next step takes its instruction from (Fetch.lean). -/
def State.withFetchWord (s : State) (nbits w : Nat) : State := placeTableWord s nbits w

end Sys2Proof.Machine
end

