-- ==== Sys2Proof/Machine/Assembler.lean ====
section
/-! DEFINITION. The text form of commands and responses (30_encoding.md R83) and the pseudo-command NEWENGINE (R84). -/

namespace Sys2Proof.Machine

/-- NEWENGINE.W<n> (R84): KEY, then SETUP only if KEY answered OK. The response that stands at the end is the first one that
is not OK, else OK. -/
def newEngine (W : Width) (r : BitVec 8) (keyBytes : List Byte) (s : State) : Out :=
  andThen (framed keyBytes (runCommand (s.accept (commandWord 1 0) keyBytes s.port.inbox))) fun t =>
    if t.resp.status = .ok then
      runCommand (t.accept (commandWord ((1 : BitVec 1) ++ W.code) r) [] t.port.inbox)
    else .next t

/-- One hexadecimal digit. -/
def hexDigit (n : Nat) : Char := (['0', '1', '2', '3', '4', '5', '6', '7', '8', '9', 'A', 'B', 'C', 'D', 'E', 'F'].getD n '?')

/-- A byte as two hexadecimal digits after a space. -/
def spacedByte (b : Byte) : List Char := [' ', hexDigit (b.toNat / 16), hexDigit (b.toNat % 16)]

/-- A byte sequence in text, each byte after a space, lowest offset first. -/
def spacedBytes (ds : List Byte) : String := String.ofList (ds.flatMap spacedByte)

/-- A command in text (R83). Micro-operations have no text form beyond their name (R85). -/
def commandText (i : Instr) (payload : List Byte) : String :=
  match i with
  | .key => "KEY" ++ spacedBytes payload
  | .encode => "ENCODE" ++ spacedBytes payload
  | .decode => "DECODE" ++ spacedBytes payload
  | .setupW8 r => "SETUP.W8 " ++ toString r.toNat
  | .setupW16 r => "SETUP.W16 " ++ toString r.toNat
  | .setupW32 r => "SETUP.W32 " ++ toString r.toNat
  | .setupW64 r => "SETUP.W64 " ++ toString r.toNat
  | .zero => "ZERO"
  | .pw => "PW"
  | .qw => "QW"
  | .addw => "ADDW"
  | .subw => "SUBW"
  | .xorw => "XORW"
  | .rotl => "ROTL"
  | .rotr => "ROTR"
  | .modw => "MODW"
  | .lepack => "LEPACK"
  | .leunpack => "LEUNPACK"
  | .rdw => "RDW"
  | .rdb => "RDB"
  | .mixs => "MIXS"
  | .mixl => "MIXL"
  | .ehr => "EHR"
  | .dhr => "DHR"

/-- The name of a status (R200). -/
def Status.name : Status → String
  | .ok => "OK"
  | .invalidKeyLength => "InvalidKeyLength"
  | .keyNotWordAligned => "KeyNotWordAligned"
  | .inputNotBlockAligned => "InputNotBlockAligned"
  | .internal => "Internal"
  | .noKey => "NoKey"
  | .notReady => "NotReady"
  | .illegalCommand => "IllegalCommand"

/-- A response in text (R83). -/
def responseText (r : Response) : String :=
  match r.status with
  | .ok => "OK" ++ spacedBytes r.payload
  | .invalidKeyLength => r.status.name ++ "(" ++ toString r.info0.toNat ++ ")"
  | .keyNotWordAligned | .inputNotBlockAligned | .internal | .noKey | .notReady | .illegalCommand =>
    if r.info0 = 0 ∧ r.info1 = 0 then r.status.name
    else r.status.name ++ "(" ++ toString r.info0.toNat ++ ", " ++ toString r.info1.toNat ++ ")"

end Sys2Proof.Machine
end

