-- ==== Sys2Proof/Safety.lean ====
section
/-! DEFINITION. The terms claims are stated in: the invariant of the machine (10_state.md R35), safe runs, what a command delivers,
and the declarative forms of key expansion and of the block transform. -/

namespace Sys2Proof.Machine

/-! ### The invariant -/

/-- A SETUP whose checks have passed is in progress (R143). -/
def SetupInProgress (s : State) : Prop :=
  cwIsSetup s.port.cw = true ∧ s.key.valid = true ∧ s.key.klen.toNat % s.width.bytes = 0

/-- An ENCODE or a DECODE whose checks have passed is in progress, with a block still to finish (R171, R179). -/
def TransformInProgress (s : State) : Prop :=
  (s.port.cw = 0x0200 ∨ s.port.cw = 0x0300) ∧ s.eng.state = .ready ∧ s.len % s.eng.wsel.block = 0 ∧
    s.seq.BLK * s.eng.wsel.block < s.len

/-- What holds in each phase (R34 ranges, R36, R149). -/
def PhaseInv (s : State) : Prop :=
  let t := subkeyCount (cwRounds s.port.cw)
  let c := keyWordCount s.width s
  let r := s.eng.rounds.toNat
  match s.seq.phase with
  | .idle => True
  | .check => True
  | .respond => True
  | .keyStore => Config.keyMin ≤ s.len ∧ s.len ≤ Config.keyMax
  | .kxLoad => SetupInProgress s
  | .kxInit => SetupInProgress s ∧ s.eng.state = .uninitialised ∧ s.work.L.length = c
  | .kxMix =>
    SetupInProgress s ∧ s.eng.state = .uninitialised ∧ s.work.L.length = c ∧ s.eng.S.length = t ∧
      s.seq.I < t ∧ s.seq.J < c ∧ s.seq.K < mixCount t c
  | .blkRead => TransformInProgress s
  | .encPre => TransformInProgress s
  | .encRound => TransformInProgress s ∧ 1 ≤ s.seq.RND ∧ s.seq.RND ≤ r
  | .decRound => TransformInProgress s ∧ 1 ≤ s.seq.RND ∧ s.seq.RND ≤ r
  | .decPost => TransformInProgress s
  | .blkWrite => TransformInProgress s

/-- The invariant: `KEYBUF` is canonical; a key in the slot has 1 to 256 bytes and `KEYBUF` holds exactly its offsets (R25, R35
(b)); an engine in the slot has exactly `2·(ROUNDS+1)` subkeys (R35 (a)); no status is `Internal` (R204); and what the
present phase needs (R36). -/
structure Inv (s : State) : Prop where
  keybufCanonical : Memory.wf s.key.keybuf
  key : s.key.valid = true →
    Config.keyMin ≤ s.key.klen.toNat ∧ s.key.klen.toNat ≤ Config.keyMax ∧
      s.key.keybuf.map Prod.fst = List.range s.key.klen.toNat
  engine : s.eng.state = .ready → s.eng.S.length = subkeyCount s.eng.rounds
  response : s.resp.status ≠ .internal
  verdict : s.verdict.status ≠ .internal
  delivered : ∀ r ∈ s.port.outbox, r.status ≠ .internal
  phase : PhaseInv s

/-! ### Safe runs -/

/-- A run of `n` steps that meets no fault and no refusal. -/
def SafeRun (n : Nat) (s : State) : Prop := ∃ t, Host.Core.run core n s = .next t

/-- The packets lined up at the port are ones a host can send: their payloads have at most 2^32 − 1 bytes (R12, R70). -/
def WellFramed (s : State) : Prop :=
  ∀ ev ∈ s.port.inbox,
    match ev with
    | .command _ payload => payload.length < Config.payloadBound
    | .paced _ payload => payload.length < Config.payloadBound
    | .pause => True
    | .reset => True

/-- The machine waits for a command: no micro-operation is driven and the phase is IDLE. -/
def Idle (s : State) : Prop := s.uop = none ∧ s.seq.phase = .idle

/-- Nothing at the port disturbs a command in progress: what stands first there, if anything does, is neither a pause nor a
reset. A packet that waits behind is not taken before the response (R60). -/
def Undisturbed (s : State) : Prop := ∀ ev, s.port.inbox.head? = some ev → ev ≠ .pause ∧ ev ≠ .reset

/-- The command in progress in `s` ends after exactly `n` visits: then the phase is IDLE, and after no smaller number of them is it
so (R36, R37). -/
def EndsAfter (n : Nat) (s : State) : Prop :=
  (∃ t, runVisits n s = .next t ∧ t.seq.phase = .idle) ∧
    ∀ k, k < n → ∃ t, runVisits k s = .next t ∧ t.seq.phase ≠ .idle

/-! ### Commands at the port, and what they deliver -/

/-- `s` with one packet standing first at the port. -/
def State.offer (s : State) (cw : BitVec 16) (payload : List Byte) : State :=
  { s with port := { s.port with inbox := .command cw payload :: s.port.inbox } }

/-- `s` with the same packet standing first at the port, to be run phase by phase. -/
def State.offerPaced (s : State) (cw : BitVec 16) (payload : List Byte) : State :=
  { s with port := { s.port with inbox := .paced cw payload :: s.port.inbox } }

/-- `s` with a payload lent to the command in progress. -/
def State.withPayload (s : State) (payload : List Byte) : State := { s with port := { s.port with payload := payload } }

/-- The command that ran from `s` to `t` delivered exactly this response packet (R33, R78), consumed nothing else of the
port, and left the sequencer idle (R212). -/
def Delivers (status : Status) (info0 info1 : Nat) (payload : List Byte) (s t : State) : Prop :=
  t.resp.status = status ∧ t.resp.info0.toNat = info0 ∧ t.resp.info1.toNat = info1 ∧
    t.resp.rlen.toNat = payload.length ∧ t.resp.payload = payload ∧
    t.port.outbox = s.port.outbox ++ [t.resp] ∧ t.port.inbox = s.port.inbox ∧ t.seq.phase = .idle

/-- The two slots, the only state one command can pass to a later one (R20), are as they were. -/
def SlotsKept (s t : State) : Prop := t.key = s.key ∧ t.eng = s.eng

/-- Beside the response, nothing at all was written: slots, working registers and counters are as they were. -/
def NothingWritten (s t : State) : Prop :=
  SlotsKept s t ∧ t.work = s.work ∧
    t.seq.I = s.seq.I ∧ t.seq.J = s.seq.J ∧ t.seq.K = s.seq.K ∧ t.seq.RND = s.seq.RND ∧ t.seq.BLK = s.seq.BLK

/-- A failing command: this error response, and no change to anything else (R210). -/
def FailsWith (status : Status) (info0 info1 : Nat) (s t : State) : Prop :=
  Delivers status info0 info1 [] s t ∧ NothingWritten s t

/-- Only the word result of the datapath differs. -/
def OnlyResult (s t : State) : Prop := t = { s with dp := { s.dp with res := t.dp.res } }

/-- The result of a micro-operation, as a word of the width in use. -/
def State.result (s t : State) : BitVec s.width.bits := t.dp.res.setWidth s.width.bits

/-- The two states agree on everything that steers the sequencer: the phase and the counters, the command word, the four
lengths `LEN`, `KLEN`, and those of `S` and `L`, the valid bits, the width and the round count, which offsets of `KEYBUF` hold a
value, and the verdict. Key bytes, subkeys, key words, `A`, `B`, the payload's bytes and the latches may differ. -/
def SameControl (s s' : State) : Prop :=
  s.seq = s'.seq ∧ s.port.cw = s'.port.cw ∧ s.len = s'.len ∧
    s.key.valid = s'.key.valid ∧ s.key.klen = s'.key.klen ∧
    s.key.keybuf.map Prod.fst = s'.key.keybuf.map Prod.fst ∧
    s.eng.state = s'.eng.state ∧ s.eng.wsel = s'.eng.wsel ∧ s.eng.rounds = s'.eng.rounds ∧
    s.eng.S.length = s'.eng.S.length ∧ s.work.L.length = s'.work.L.length ∧ s.verdict = s'.verdict

/-- No status of the machine is `Internal` (R204). -/
def NoInternal (s : State) : Prop :=
  s.resp.status ≠ .internal ∧ s.verdict.status ≠ .internal ∧ ∀ r ∈ s.port.outbox, r.status ≠ .internal

/-! ### Declarative forms -/

/-- `v` stands at offset `off` of a byte sequence, least significant byte first (R50). -/
def WordAt (W : Width) (ds : List Byte) (off : Nat) (v : BitVec W.bits) : Prop :=
  ∀ k, k < W.bytes → ds[off + k]? = some (v.extractLsb' (8 * k) 8)

/-- `v` stands at offset `off` of `KEYBUF`, least significant byte first (R50). -/
def KeyWordAt (W : Width) (m : Memory) (off : Nat) (v : BitVec W.bits) : Prop :=
  ∀ k, k < W.bytes → Memory.read m (off + k) = some (v.extractLsb' (8 * k) 8)

/-- `S` is the subkey table that key expansion gives for the key in `KEYBUF` (R143): there are the values of `S`, `L`, `A` and `B`
after each number of mixing iterations, they start and step as the rules say, and `S` is where they end. -/
def IsExpansion (W : Width) (r : Nat) (keybuf : Memory) (klen : Nat) (S : List Slot) : Prop :=
  let w := W.bits
  let t := 2 * (r + 1)
  let c := klen / W.bytes
  let m := 3 * max t c
  ∃ (Sn Ln : Nat → Nat → BitVec w) (A B : Nat → BitVec w),
    (∀ j, j < c → KeyWordAt W keybuf (j * W.bytes) (Ln 0 j)) ∧
    (∀ i, i < t → (Sn 0 i).toNat = ((pWord W).toNat + i * (qWord W).toNat) % 2 ^ w) ∧
    A 0 = 0 ∧ B 0 = 0 ∧
    (∀ n, n < m →
      A (n + 1) = (Sn n (n % t) + A n + B n).rotateLeft 3 ∧
      B (n + 1) = (Ln n (n % c) + A (n + 1) + B n).rotateLeft ((A (n + 1) + B n).toNat % w) ∧
      Sn (n + 1) = Function.update (Sn n) (n % t) (A (n + 1)) ∧
      Ln (n + 1) = Function.update (Ln n) (n % c) (B (n + 1))) ∧
    S.length = t ∧ (∀ i, i < t → S[i]? = some ((Sn m i).setWidth 64))

/-- The block `(a', b')` is ENCODE's image of `(a, b)` under the subkeys `K 0 … K (2r+1)` (R173, R174): there are the values of `A`
and `B` after each round. -/
def IsEncoded {w : Nat} (K : Nat → BitVec w) (r : Nat) (a b a' b' : BitVec w) : Prop :=
  ∃ A B : Nat → BitVec w,
    A 0 = a + K 0 ∧ B 0 = b + K 1 ∧
    (∀ i, 1 ≤ i → i ≤ r →
      A i = (A (i - 1) ^^^ B (i - 1)).rotateLeft ((B (i - 1)).toNat % w) + K (2 * i) ∧
      B i = (B (i - 1) ^^^ A i).rotateLeft ((A i).toNat % w) + K (2 * i + 1)) ∧
    a' = A r ∧ b' = B r

/-- The block `(a', b')` is DECODE's image of `(a, b)` (R181, R182): there are the values of `A` and `B` before round `i` is
undone, from `i = r` down. -/
def IsDecoded {w : Nat} (K : Nat → BitVec w) (r : Nat) (a b a' b' : BitVec w) : Prop :=
  ∃ A B : Nat → BitVec w,
    A r = a ∧ B r = b ∧
    (∀ i, 1 ≤ i → i ≤ r →
      B (i - 1) = (B i - K (2 * i + 1)).rotateRight ((A i).toNat % w) ^^^ A i ∧
      A (i - 1) = (A i - K (2 * i)).rotateRight ((B (i - 1)).toNat % w) ^^^ B (i - 1)) ∧
    a' = A 0 - K 0 ∧ b' = B 0 - K 1

/-- The subkeys of the engine slot as words of its width. -/
def State.subkeys (s : State) (i : Nat) : BitVec s.eng.wsel.bits := (s.eng.S.getD i 0).setWidth s.eng.wsel.bits

/-- The engine slot holds an engine, with all its subkeys (R35 (a)). -/
def EngineReady (s : State) : Prop := s.eng.state = .ready ∧ s.eng.S.length = 2 * (s.eng.rounds.toNat + 1)

/-- The key slot holds a key of 1 to 256 bytes, each of them in `KEYBUF` (R25, R35 (b)). -/
def KeyReady (s : State) : Prop :=
  s.key.valid = true ∧ 1 ≤ s.key.klen.toNat ∧ s.key.klen.toNat ≤ 256 ∧
    ∀ k, k < s.key.klen.toNat → (Memory.read s.key.keybuf k).isSome

end Sys2Proof.Machine
end

