-- ==== Sys2Proof/Certificates/Slice0/Obligations.lean ====
section
/-! DEFINITION. The statements for the provers. "Delivers", "FailsWith", "IsExpansion" and the other terms are those of Safety.lean. -/

open Sys2Proof Sys2Proof.Machine

/-! ### Encoding -/

/-- Words written out from the tables of R74 and R85 decode to the instructions they stand for. -/
def Obligations.WrittenOutWordsDecode : Prop :=
  decodeCommand 0b0000000100000000 16 = .ok .key ∧
  decodeCommand 0b0000001000000000 8 = .ok .encode ∧
  decodeCommand 0b0000001100000000 8 = .ok .decode ∧
  decodeCommand 0b0000010000001100 0 = .ok (.setupW8 12) ∧
  decodeCommand 0b0000010100010000 0 = .ok (.setupW16 16) ∧
  decodeCommand 0b0000011000001100 0 = .ok (.setupW32 12) ∧
  decodeCommand 0b0000011100011000 0 = .ok (.setupW64 24) ∧
  decodeSelect 0b00011 = .ok .addw ∧
  decodeSelect 0b01100 = .ok .rdb ∧
  decodeSelect 0b01101 = .ok .mixs ∧
  decodeSelect 0b10000 = .ok .dhr

/-- Decoding and encoding agree both ways: every well-formed instruction is what its code decodes to, and every code
that decodes to an instruction is that instruction's code. -/
def Obligations.DecodeAndEncodeAgree : Prop :=
  (∀ (i : Instr) (len : Nat), i.wellFormed len = true → decode (encode i) len = .ok i) ∧
  (∀ (c : Code) (len : Nat) (i : Instr), decode c len = .ok i → encode i = c ∧ (i.takesPayload = true ∨ len = 0))

/-- R74: a command word selects the row whose match it gives under the row's mask, a SETUP also needs an empty
payload, and a word that selects no row, or a SETUP with a payload, has no instruction. -/
def Obligations.CommandWordsSelectTheirRows : Prop :=
  ∀ (cw : BitVec 16) (len : Nat),
    (decodeCommand cw len = .ok .key ↔ cw &&& 0xFFFF = 0x0100) ∧
    (decodeCommand cw len = .ok .encode ↔ cw &&& 0xFFFF = 0x0200) ∧
    (decodeCommand cw len = .ok .decode ↔ cw &&& 0xFFFF = 0x0300) ∧
    (∀ r : BitVec 8,
      (decodeCommand cw len = .ok (.setupW8 r) ↔ cw &&& 0xFF00 = 0x0400 ∧ r.toNat = cw.toNat % 256 ∧ len = 0) ∧
      (decodeCommand cw len = .ok (.setupW16 r) ↔ cw &&& 0xFF00 = 0x0500 ∧ r.toNat = cw.toNat % 256 ∧ len = 0) ∧
      (decodeCommand cw len = .ok (.setupW32 r) ↔ cw &&& 0xFF00 = 0x0600 ∧ r.toNat = cw.toNat % 256 ∧ len = 0) ∧
      (decodeCommand cw len = .ok (.setupW64 r) ↔ cw &&& 0xFF00 = 0x0700 ∧ r.toNat = cw.toNat % 256 ∧ len = 0)) ∧
    ((∃ e, decodeCommand cw len = .error e) ↔
      ¬ (cw &&& 0xFFFF = 0x0100 ∨ cw &&& 0xFFFF = 0x0200 ∨ cw &&& 0xFFFF = 0x0300 ∨
          ((cw &&& 0xFF00 = 0x0400 ∨ cw &&& 0xFF00 = 0x0500 ∨ cw &&& 0xFF00 = 0x0600 ∨ cw &&& 0xFF00 = 0x0700) ∧ len = 0)))

/-- R80: the four kinds of illegal command end with IllegalCommand, which is code 7, both lengths 0, no response payload
and no change to any state; the payload is accepted and discarded. That the word and the payload at the port are then 0 and
empty is the model's representation of "accepted and discarded" (log 5). -/
def Obligations.IllegalCommandsChangeNothing : Prop :=
  Status.code .illegalCommand = 7 ∧
  ∀ (s : State) (cw : BitVec 16) (payload : List Byte),
    Idle s → payload.length < 2 ^ 32 →
    (cw.toNat / 2 ^ 11 ≠ 0 ∨ cw.toNat / 2 ^ 8 % 8 = 0 ∨
      (cw.toNat / 2 ^ 8 % 8 ≤ 3 ∧ cw.toNat % 2 ^ 8 ≠ 0) ∨ (4 ≤ cw.toNat / 2 ^ 8 % 8 ∧ payload.length ≠ 0)) →
    ∃ t, step (s.offer cw payload) = .next t ∧ FailsWith .illegalCommand 0 0 s t ∧
      t.port.cw = 0 ∧ t.port.payload = []

/-! ### The step -/

/-- A step in IDLE runs the command that stands first at the port: it is exec of the decoded instruction, at the
state in which the packet has been taken from the port and its word and payload are lent to the machine. The port as a queue is the
model's (log 5). -/
def Obligations.StepRunsTheAcceptedCommand : Prop :=
  ∀ (s : State) (cw : BitVec 16) (payload : List Byte) (rest : List PortEvent) (i : Instr),
    Idle s → s.port.inbox = .command cw payload :: rest → payload.length < 2 ^ 32 →
    decodeCommand cw payload.length = .ok i →
    step s = exec i { s with port := { s.port with cw := cw, payload := payload, inbox := rest } }

/-- A step runs the micro-operation whose select code is being driven, and the code is then driven no more. The driven
code as a field is the model's (log 7). -/
def Obligations.StepRunsTheDrivenMicroOperation : Prop :=
  ∀ (s : State) (uop : BitVec 5) (i : Instr),
    s.uop = some uop → decodeSelect uop = .ok i → step s = exec i { s with uop := none }

/-- With nothing at the port the machine stays in IDLE as it is, and a host that pauses changes nothing but its own
queue. The modelling of the port is the model's choice (log 5). -/
def Obligations.IdleMachineWaits : Prop :=
  ∀ s : State, Idle s →
    (s.port.inbox = [] → step s = .next s) ∧
    (∀ rest, s.port.inbox = .pause :: rest → step s = .next { s with port := { s.port with inbox := rest } })

/-- What has no meaning is refused by name: a select code above 0x10 (U8; log 12), and a packet whose payload no
32-bit length can state (U20, U22; log 12), run whole or paced. -/
def Obligations.MeaninglessInputsAreRefused : Prop :=
  (∀ (s : State) (uop : BitVec 5), s.uop = some uop → 0x11 ≤ uop.toNat → step s = .refused .unusedSelectCode) ∧
  (∀ (s : State) (cw : BitVec 16) (payload : List Byte), Idle s → 2 ^ 32 ≤ payload.length →
    step (s.offer cw payload) = .refused .payloadTooLong ∧ step (s.offerPaced cw payload) = .refused .payloadTooLong)

/-! ### Reset -/

/-- The state after reset meets the invariant, and its two valid bits and its phase are as R40 states. -/
def Obligations.ResetMeetsTheInvariant : Prop :=
  Inv State.reset ∧ Idle State.reset ∧
    State.reset.eng.state = .uninitialised ∧ State.reset.key.valid = false ∧ State.reset.seq.phase = .idle

/-- R232: a reset may come in any phase; a command in progress is abandoned without a response, and the state after
it is the reset state. The values beside the three the spec gives are
the model's (log 1, log 6). -/
def Obligations.ResetAbandonsACommand : Prop :=
  ∀ (s : State) (rest : List PortEvent), s.uop = none → s.port.inbox = .reset :: rest →
    ∃ t, step s = .next t ∧ t.port.outbox = s.port.outbox ∧ t.port.inbox = rest ∧
      { t with port := { t.port with inbox := [], outbox := [] } } = State.reset

/-- R230: after a reset, in whatever phase it came, both slots are invalid and the sequencer is idle; KEY works, a
SETUP gives NoKey, ENCODE and DECODE give NotReady, an illegal word gives IllegalCommand. -/
def Obligations.FirstCommandsAfterReset : Prop :=
  ∀ (s : State) (rest : List PortEvent), s.uop = none → s.port.inbox = .reset :: rest →
    ∃ t, step s = .next t ∧ t.eng.state = .uninitialised ∧ t.key.valid = false ∧ t.seq.phase = .idle ∧
      ∀ payload : List Byte, payload.length < 2 ^ 32 →
        (1 ≤ payload.length → payload.length ≤ 256 →
          ∃ t', step (t.offer 0x0100 payload) = .next t' ∧ t'.resp.status = .ok ∧ t'.key.valid = true) ∧
        (∀ (W : Width) (r : BitVec 8),
          ∃ t', step (t.offer (commandWord ((1 : BitVec 1) ++ W.code) r) []) = .next t' ∧ FailsWith .noKey 0 0 t t') ∧
        (∃ t', step (t.offer 0x0200 payload) = .next t' ∧ FailsWith .notReady 0 0 t t') ∧
        (∃ t', step (t.offer 0x0300 payload) = .next t' ∧ FailsWith .notReady 0 0 t t') ∧
        (∀ (cw : BitVec 16) (e : DecodeError), decodeCommand cw payload.length = .error e →
          ∃ t', step (t.offer cw payload) = .next t' ∧ FailsWith .illegalCommand 0 0 t t')

/-! ### The word datapath -/

/-- R90, R91, R92: ZERO, PW and QW, select codes 0x00, 0x01 and 0x02, give the constants of the width in use, and
write nothing but the result. -/
def Obligations.ConstantsOfTheWidthInUse : Prop :=
  decodeSelect 0x00 = .ok .zero ∧ decodeSelect 0x01 = .ok .pw ∧ decodeSelect 0x02 = .ok .qw ∧
  ∀ s : State, ∃ t₀ t₁ t₂, exec .zero s = .next t₀ ∧ exec .pw s = .next t₁ ∧ exec .qw s = .next t₂ ∧
    OnlyResult s t₀ ∧ OnlyResult s t₁ ∧ OnlyResult s t₂ ∧
    (s.result t₀).toNat = 0 ∧
    (s.result t₁).toNat =
      (match s.width with
        | .w8 => 0xB7
        | .w16 => 0xB7E1
        | .w32 => 0xB7E15163
        | .w64 => 0xB7E151628AED2A6B) ∧
    (s.result t₂).toNat =
      (match s.width with
        | .w8 => 0x9F
        | .w16 => 0x9E37
        | .w32 => 0x9E3779B9
        | .w64 => 0x9E3779B97F4A7C15)

/-- R93: ADDW, select code 0x03, gives `(x + y) mod 2^w`, and writes nothing but the result. -/
def Obligations.AdderAddsModuloTheWidth : Prop :=
  decodeSelect 0x03 = .ok .addw ∧
  ∀ s : State, ∃ t, exec .addw s = .next t ∧ OnlyResult s t ∧
    (s.result t).toNat = (s.dp.x.toNat % 2 ^ s.width.bits + s.dp.y.toNat % 2 ^ s.width.bits) % 2 ^ s.width.bits

/-- R94: SUBW, select code 0x04, gives `x − y` when `x >= y`, else `x − y + 2^w`, and writes nothing but the result.
-/
def Obligations.SubtractorSubtractsModuloTheWidth : Prop :=
  decodeSelect 0x04 = .ok .subw ∧
  ∀ s : State, ∃ t, exec .subw s = .next t ∧ OnlyResult s t ∧
    let x := s.dp.x.toNat % 2 ^ s.width.bits
    let y := s.dp.y.toNat % 2 ^ s.width.bits
    (s.result t).toNat = if y ≤ x then x - y else x + 2 ^ s.width.bits - y

/-- R95: XORW, select code 0x05, gives the exclusive or of each bit, and writes nothing but the result. -/
def Obligations.XorIsTakenBitByBit : Prop :=
  decodeSelect 0x05 = .ok .xorw ∧
  ∀ s : State, ∃ t, exec .xorw s = .next t ∧ OnlyResult s t ∧
    ∀ k, k < s.width.bits → (s.result t).getLsbD k = (s.dp.x.getLsbD k ^^ s.dp.y.getLsbD k)

/-- R96: ROTL, select code 0x06, moves bit `k` of `x` to bit `(k + s) mod w`, where `s` is the count reduced modulo
`w`, and writes nothing but the result. -/
def Obligations.RotateLeftMovesEachBit : Prop :=
  decodeSelect 0x06 = .ok .rotl ∧
  ∀ s : State, ∃ t, exec .rotl s = .next t ∧ OnlyResult s t ∧
    let w := s.width.bits
    let n := s.dp.y.toNat % 2 ^ w % w
    ∀ k, k < w → (s.result t).getLsbD ((k + n) % w) = s.dp.x.getLsbD k

/-- R97: ROTR, select code 0x07, moves bit `(k + s) mod w` of `x` to bit `k`, where `s` is the count reduced modulo
`w`, and writes nothing but the result. -/
def Obligations.RotateRightMovesEachBit : Prop :=
  decodeSelect 0x07 = .ok .rotr ∧
  ∀ s : State, ∃ t, exec .rotr s = .next t ∧ OnlyResult s t ∧
    let w := s.width.bits
    let n := s.dp.y.toNat % 2 ^ w % w
    ∀ k, k < w → (s.result t).getLsbD k = s.dp.x.getLsbD ((k + n) % w)

/-- R98: MODW, select code 0x08, gives `x mod w`, the low `log2(w)` bits of `x`, in `[0, w)`, and writes nothing but
the result. -/
def Obligations.ModGivesTheRotationCount : Prop :=
  decodeSelect 0x08 = .ok .modw ∧
  ∀ s : State, ∃ t, exec .modw s = .next t ∧ OnlyResult s t ∧
    (s.result t).toNat = s.dp.x.toNat % s.width.bits ∧ (s.result t).toNat < s.width.bits

/-- R99: LEPACK, select code 0x09, puts byte `k` of its operand in bits `8k+7 : 8k`, and writes nothing but the
result. -/
def Obligations.PackIsLittleEndian : Prop :=
  decodeSelect 0x09 = .ok .lepack ∧
  ∀ s : State, ∃ t, exec .lepack s = .next t ∧ OnlyResult s t ∧
    ∀ k, k < s.width.bytes → s.dp.bytes[k]? = some ((s.result t).extractLsb' (8 * k) 8)

/-- R100: LEUNPACK, select code 0x0A, gives exactly `u` bytes, byte `k` being bits `8k+7 : 8k` of `x`, and writes
nothing but the byte result; packing and unpacking are inverse to each other. -/
def Obligations.UnpackIsLittleEndian : Prop :=
  decodeSelect 0x0A = .ok .leunpack ∧
  (∀ s : State, ∃ t, exec .leunpack s = .next t ∧ t = { s with dp := { s.dp with resBytes := t.dp.resBytes } } ∧
    t.dp.resBytes.length = s.width.bytes ∧ ∀ k, k < s.width.bytes → t.dp.resBytes[k]? = some (s.dp.x.extractLsb' (8 * k) 8)) ∧
  (∀ (W : Width) (x : BitVec W.bits), lePack W.bits (leUnpack W x) = x) ∧
  (∀ (W : Width) (ds : List Byte), ds.length = W.bytes → leUnpack W (lePack W.bits ds) = ds)

/-! ### Readers, mixer, half-rounds -/

/-- R126: RDW gives the word of `KEYBUF` at offset `q·u`, where the index `q` is `J` (the model's reading of the
operand, log 7), and writes nothing but the result. -/
def Obligations.WordReaderReadsTheKey : Prop :=
  ∀ s : State,
    (∀ k, k < s.width.bytes → (Memory.read s.key.keybuf (s.seq.J * s.width.bytes + k)).isSome) →
    ∃ t, exec .rdw s = .next t ∧ OnlyResult s t ∧
      KeyWordAt s.width s.key.keybuf (s.seq.J * s.width.bytes) (s.result t)

/-- R128: RDB loads `A` from the lower half of block `n` of the payload and `B` from the upper half, where the index
`n` is `BLK` (log 7), and writes nothing but `A` and `B`. -/
def Obligations.BlockReaderLoadsTheRegisters : Prop :=
  ∀ s : State, s.seq.BLK * s.width.block + s.width.block ≤ s.len →
    ∃ t, exec .rdb s = .next t ∧ t = { s with work := { s.work with A := t.work.A, B := t.work.B } } ∧
      WordAt s.width s.port.payload (s.seq.BLK * s.width.block) (t.work.A.setWidth s.width.bits) ∧
      WordAt s.width s.port.payload (s.seq.BLK * s.width.block + s.width.bytes) (t.work.B.setWidth s.width.bits)

/-- R150: MIXS, select code 0x0D, gives `rotl_w(S[I] ⊞ A ⊞ B, 3)` to both `A` and `S[I]`, and writes nothing else. -/
def Obligations.MixSUpdatesOneSubkey : Prop :=
  decodeSelect 0x0D = .ok .mixs ∧ ∀ (s : State) (si : Slot), s.eng.S[s.seq.I]? = some si →
    ∃ t, exec .mixs s = .next t ∧
      t = { s with work := { s.work with A := t.work.A }, eng := { s.eng with S := s.eng.S.set s.seq.I t.work.A } } ∧
      t.work.A.setWidth s.width.bits =
        (si.setWidth s.width.bits + s.work.A.setWidth s.width.bits + s.work.B.setWidth s.width.bits).rotateLeft 3

/-- R151: MIXL, select code 0x0E, gives `rotl_w(L[J] ⊞ A ⊞ B, (A ⊞ B) mod w)` to both `B` and `L[J]`, and writes
nothing else. -/
def Obligations.MixLUpdatesOneKeyWord : Prop :=
  decodeSelect 0x0E = .ok .mixl ∧ ∀ (s : State) (lj : Slot), s.work.L[s.seq.J]? = some lj →
    ∃ t, exec .mixl s = .next t ∧
      t = { s with work := { s.work with B := t.work.B, L := s.work.L.set s.seq.J t.work.B } } ∧
      let a : BitVec s.width.bits := s.work.A.setWidth s.width.bits
      let b : BitVec s.width.bits := s.work.B.setWidth s.width.bits
      t.work.B.setWidth s.width.bits =
        (lj.setWidth s.width.bits + a + b).rotateLeft ((a + b).toNat % s.width.bits)

/-- R177: EHR, select code 0x0F, gives `rotl_w(x ⊕ y, y mod w) ⊞ k` to `x`, and writes nothing else.
The operand latches are the model's (log 7). -/
def Obligations.EncodeHalfRoundUpdatesX : Prop :=
  decodeSelect 0x0F = .ok .ehr ∧
  ∀ s : State, ∃ t, exec .ehr s = .next t ∧ t = { s with dp := { s.dp with x := t.dp.x } } ∧
    let x : BitVec s.width.bits := s.dp.x.setWidth s.width.bits
    let y : BitVec s.width.bits := s.dp.y.setWidth s.width.bits
    t.dp.x.setWidth s.width.bits = (x ^^^ y).rotateLeft (y.toNat % s.width.bits) + s.dp.k.setWidth s.width.bits

/-- R183: DHR, select code 0x10, gives `rotr_w(x ⊟ k, y mod w) ⊕ y` to `x`, and writes nothing else. The operand
latches are the model's (log 7). -/
def Obligations.DecodeHalfRoundUpdatesX : Prop :=
  decodeSelect 0x10 = .ok .dhr ∧
  ∀ s : State, ∃ t, exec .dhr s = .next t ∧ t = { s with dp := { s.dp with x := t.dp.x } } ∧
    let y : BitVec s.width.bits := s.dp.y.setWidth s.width.bits
    t.dp.x.setWidth s.width.bits =
      (s.dp.x.setWidth s.width.bits - s.dp.k.setWidth s.width.bits).rotateRight (y.toNat % s.width.bits) ^^^ y

/-- DHR undoes EHR and EHR undoes DHR, with the same `y` and `k`: the word `x` is back (R177, R184). -/
def Obligations.HalfRoundsUndoEachOther : Prop :=
  ∀ s : State,
    (∃ t t', exec .ehr s = .next t ∧ exec .dhr t = .next t' ∧ t'.dp.x.setWidth s.width.bits = s.dp.x.setWidth s.width.bits) ∧
    (∃ t t', exec .dhr s = .next t ∧ exec .ehr t = .next t' ∧ t'.dp.x.setWidth s.width.bits = s.dp.x.setWidth s.width.bits)

/-- A micro-operation that would read storage holding no value stops, by name, and none of its effect takes place
(R41, R56; log 2). -/
def Obligations.ReadsOfNoValueStop : Prop :=
  ∀ s : State,
    ((∃ k, k < s.width.bytes ∧ Memory.read s.key.keybuf (s.seq.J * s.width.bytes + k) = none) →
      exec .rdw s = .fault .keybufNoValue) ∧
    (s.len < s.seq.BLK * s.width.block + s.width.block → exec .rdb s = .fault .payloadOutOfRange) ∧
    (s.eng.S.length ≤ s.seq.I → exec .mixs s = .fault .subkeyNoValue) ∧
    (s.work.L.length ≤ s.seq.J → exec .mixl s = .fault .keyWordNoValue)

/-! ### KEY -/

/-- KEY with 1 to 256 bytes replaces the whole key slot: `KVALID`, `KLEN`, and in `KEYBUF` the payload's bytes in
the order presented and no other byte; the response is OK with no payload; the engine slot, the working registers
and the counters are as they were. -/
def Obligations.KeyReplacesTheWholeKeySlot : Prop :=
  ∀ s : State, 1 ≤ s.len → s.len ≤ 256 →
    ∃ t, exec .key s = .next t ∧ Delivers .ok 0 0 [] s t ∧
      t.key.valid = true ∧ t.key.klen.toNat = s.len ∧
      (∀ k, Memory.read t.key.keybuf k = s.port.payload[k]?) ∧ Memory.wf t.key.keybuf ∧
      t.eng = s.eng ∧ t.work = s.work ∧ t.seq = { s.seq with phase := .idle } ∧ t.uop = s.uop

/-- R123: KEY takes the lengths 1 to 256 and rejects every other with InvalidKeyLength and the full length in INFO0;
a key of odd length is taken, and it is a SETUP at w=16, 32 or 64 that then rejects it. -/
def Obligations.KeyLengthBoundaries : Prop :=
  ∀ (s : State) (payload : List Byte), Idle s → payload.length < 2 ^ 32 →
    ∃ t, step (s.offer 0x0100 payload) = .next t ∧
      (1 ≤ payload.length ∧ payload.length ≤ 256 → Delivers .ok 0 0 [] s t) ∧
      (payload.length = 0 ∨ 256 < payload.length → FailsWith .invalidKeyLength payload.length 0 s t) ∧
      (payload.length ≤ 256 → payload.length % 2 = 1 → ∀ (W : Width) (r : BitVec 8), W ≠ .w8 →
        ∃ t', exec (setupInstr W r) t = .next t' ∧ FailsWith .keyNotWordAligned payload.length W.bytes t t')

/-! ### SETUP -/

/-- A SETUP of width `W` and round count `r`, with a key in the slot whose length is a multiple of `u`, completes:
the engine slot becomes Ready with that width and round count and with the table that key expansion gives (R143 to
R152), `L` is discarded, the response is OK with no payload, and the key slot and the transforms' counters are as
they were. -/
def Obligations.SetupExpandsTheKey : Prop :=
  ∀ (W : Width) (r : BitVec 8) (s : State), KeyReady s → s.key.klen.toNat % W.bytes = 0 →
    ∃ t, exec (setupInstr W r) s = .next t ∧ Delivers .ok 0 0 [] s t ∧
      t.eng.state = .ready ∧ t.eng.wsel = W ∧ t.eng.rounds = r ∧
      IsExpansion W r.toNat s.key.keybuf s.key.klen.toNat t.eng.S ∧
      t.key = s.key ∧ t.work.L = [] ∧ t.seq.RND = s.seq.RND ∧ t.seq.BLK = s.seq.BLK ∧ t.uop = s.uop

/-- R141: a SETUP with no key in the slot ends with NoKey, both lengths 0, and changes nothing. -/
def Obligations.SetupWithoutAKey : Prop :=
  ∀ (W : Width) (r : BitVec 8) (s : State), s.key.valid = false →
    ∃ t, exec (setupInstr W r) s = .next t ∧ FailsWith .noKey 0 0 s t ∧ Status.code .noKey = 5

/-- R142: a SETUP whose `u` does not divide the key's length ends with KeyNotWordAligned, INFO0 the key's length and
INFO1 `u`, and changes nothing: there is no padding. At w=8 the check always passes. -/
def Obligations.SetupOfAMisalignedKey : Prop :=
  (∀ (W : Width) (r : BitVec 8) (s : State), s.key.valid = true → s.key.klen.toNat % W.bytes ≠ 0 →
    ∃ t, exec (setupInstr W r) s = .next t ∧ FailsWith .keyNotWordAligned s.key.klen.toNat W.bytes s t) ∧
  (∀ (r : BitVec 8) (s : State), KeyReady s → ∃ t, exec (.setupW8 r) s = .next t ∧ t.resp.status = .ok)

/-- R153: two successful SETUPs with equal key bytes, equal `r` and equal `w` leave equal engine slots, whatever
else the two states hold, and the two engines then answer every ENCODE and DECODE alike. -/
def Obligations.EqualKeysGiveEqualTables : Prop :=
  ∀ (W : Width) (r : BitVec 8) (s s' t t' : State),
    s.key.klen = s'.key.klen → (∀ k, k < s.key.klen.toNat → Memory.read s.key.keybuf k = Memory.read s'.key.keybuf k) →
    exec (setupInstr W r) s = .next t → exec (setupInstr W r) s' = .next t' →
    t.resp.status = .ok → t'.resp.status = .ok →
    t.eng = t'.eng ∧
    ∀ (p : List Byte) (i : Instr), i = .encode ∨ i = .decode → ∀ u, exec i (t.withPayload p) = .next u →
      ∃ u', exec i (t'.withPayload p) = .next u' ∧ u'.resp = u.resp

/-! ### ENCODE and DECODE -/

/-- ENCODE of a block-aligned payload with an engine in the slot completes: the response is OK with a payload of the
same length, each block of it the image of the block at the same offsets (R171 to R175), and the key slot, the
engine slot, `L` and the mixing indices are as they were. -/
def Obligations.EncodeTransformsEachBlock : Prop :=
  ∀ s : State, EngineReady s → s.len < 2 ^ 32 → s.len % s.eng.wsel.block = 0 →
    ∃ t out, exec .encode s = .next t ∧ Delivers .ok 0 0 out s t ∧ out.length = s.len ∧
      (∀ n, n < s.len / s.eng.wsel.block → ∃ a b a' b',
        WordAt s.eng.wsel s.port.payload (n * s.eng.wsel.block) a ∧
        WordAt s.eng.wsel s.port.payload (n * s.eng.wsel.block + s.eng.wsel.bytes) b ∧
        IsEncoded s.subkeys s.eng.rounds.toNat a b a' b' ∧
        WordAt s.eng.wsel out (n * s.eng.wsel.block) a' ∧
        WordAt s.eng.wsel out (n * s.eng.wsel.block + s.eng.wsel.bytes) b') ∧
      SlotsKept s t ∧ t.work.L = s.work.L ∧ t.seq.I = s.seq.I ∧ t.seq.J = s.seq.J ∧ t.seq.K = s.seq.K ∧ t.uop = s.uop

/-- DECODE of a block-aligned payload with an engine in the slot completes, whatever the payload's bytes: the
response is OK with a payload of the same length, each block of it the image of the block at the same offsets (R179
to R182), and the key slot, the engine slot, `L` and the mixing indices are as they were. -/
def Obligations.DecodeTransformsEachBlock : Prop :=
  ∀ s : State, EngineReady s → s.len < 2 ^ 32 → s.len % s.eng.wsel.block = 0 →
    ∃ t out, exec .decode s = .next t ∧ Delivers .ok 0 0 out s t ∧ out.length = s.len ∧
      (∀ n, n < s.len / s.eng.wsel.block → ∃ a b a' b',
        WordAt s.eng.wsel s.port.payload (n * s.eng.wsel.block) a ∧
        WordAt s.eng.wsel s.port.payload (n * s.eng.wsel.block + s.eng.wsel.bytes) b ∧
        IsDecoded s.subkeys s.eng.rounds.toNat a b a' b' ∧
        WordAt s.eng.wsel out (n * s.eng.wsel.block) a' ∧
        WordAt s.eng.wsel out (n * s.eng.wsel.block + s.eng.wsel.bytes) b') ∧
      SlotsKept s t ∧ t.work.L = s.work.L ∧ t.seq.I = s.seq.I ∧ t.seq.J = s.seq.J ∧ t.seq.K = s.seq.K ∧ t.uop = s.uop

/-- R169: ENCODE and DECODE with no engine in the slot end with NotReady, both lengths 0, whatever the payload's
length, and change nothing. -/
def Obligations.TransformWithoutAnEngine : Prop :=
  ∀ s : State, s.eng.state = .uninitialised →
    (∃ t, exec .encode s = .next t ∧ FailsWith .notReady 0 0 s t) ∧
    (∃ t, exec .decode s = .next t ∧ FailsWith .notReady 0 0 s t) ∧ Status.code .notReady = 6

/-- R170, R178: ENCODE and DECODE of a payload whose length is not a multiple of `b` end with InputNotBlockAligned,
INFO0 the length and INFO1 `b`; nothing is emitted and the engine stays Ready. -/
def Obligations.TransformOfAMisalignedPayload : Prop :=
  ∀ s : State, s.eng.state = .ready → s.len < 2 ^ 32 → s.len % s.eng.wsel.block ≠ 0 →
    (∃ t, exec .encode s = .next t ∧ FailsWith .inputNotBlockAligned s.len s.eng.wsel.block s t ∧ t.eng.state = .ready) ∧
    (∃ t, exec .decode s = .next t ∧ FailsWith .inputNotBlockAligned s.len s.eng.wsel.block s t ∧ t.eng.state = .ready)

/-- R185: with `r = 0` ENCODE adds the two subkeys to each block and DECODE subtracts them, and a SETUP with `r = 0`
is a legal command of every width and is accepted, leaving two subkeys. -/
def Obligations.ZeroRoundsOnlyWhitens : Prop :=
  (∀ s : State, EngineReady s → s.eng.rounds = 0 → s.len % s.eng.wsel.block = 0 →
    ∃ t t', exec .encode s = .next t ∧ exec .decode s = .next t' ∧ t.resp.status = .ok ∧ t'.resp.status = .ok ∧
      ∀ n, n < s.len / s.eng.wsel.block → ∀ a b,
        WordAt s.eng.wsel s.port.payload (n * s.eng.wsel.block) a →
        WordAt s.eng.wsel s.port.payload (n * s.eng.wsel.block + s.eng.wsel.bytes) b →
        WordAt s.eng.wsel t.resp.payload (n * s.eng.wsel.block) (a + s.subkeys 0) ∧
        WordAt s.eng.wsel t.resp.payload (n * s.eng.wsel.block + s.eng.wsel.bytes) (b + s.subkeys 1) ∧
        WordAt s.eng.wsel t'.resp.payload (n * s.eng.wsel.block) (a - s.subkeys 0) ∧
        WordAt s.eng.wsel t'.resp.payload (n * s.eng.wsel.block + s.eng.wsel.bytes) (b - s.subkeys 1)) ∧
  (∀ W : Width, decodeCommand (commandWord ((1 : BitVec 1) ++ W.code) 0) 0 = .ok (setupInstr W 0) ∧
    ∀ s : State, KeyReady s → s.key.klen.toNat % W.bytes = 0 →
      ∃ t, exec (setupInstr W 0) s = .next t ∧ t.resp.status = .ok ∧ t.eng.rounds = 0 ∧ t.eng.S.length = 2)

/-- R186: an ENCODE or a DECODE that answers OK answers as many bytes as it was given. -/
def Obligations.TransformsPreserveLength : Prop :=
  ∀ (s t : State), s.len < 2 ^ 32 → (exec .encode s = .next t ∨ exec .decode s = .next t) → t.resp.status = .ok →
    t.resp.payload.length = s.len ∧ t.resp.rlen.toNat = s.len

/-- R187: the response to an ENCODE or a DECODE is a function of `(WSEL, ROUNDS, S)` and the payload alone in an
engine that is Ready, and the command leaves those unchanged, so that issuing it again gives the same response. -/
def Obligations.TransformsArePure : Prop :=
  ∀ (s s' t : State) (i : Instr), i = .encode ∨ i = .decode →
    s.eng = s'.eng → s.port.payload = s'.port.payload → exec i s = .next t →
    t.eng = s.eng ∧ (∃ t', exec i s' = .next t' ∧ t'.resp = t.resp) ∧
    (∃ t', exec i (t.withPayload s.port.payload) = .next t' ∧ t'.resp = t.resp)

/-- R175: encoding a buffer gives the concatenation of what its parts give, wherever it is cut at a block boundary:
nothing is carried from block to block. The same holds of decoding. -/
def Obligations.BlocksAreIndependent : Prop :=
  ∀ (s : State) (i : Instr) (p q : List Byte), i = .encode ∨ i = .decode →
    EngineReady s → p.length % s.eng.wsel.block = 0 → q.length % s.eng.wsel.block = 0 →
    ∃ t t₁ t₂, exec i (s.withPayload (p ++ q)) = .next t ∧ exec i (s.withPayload p) = .next t₁ ∧
      exec i (s.withPayload q) = .next t₂ ∧ t.resp.payload = t₁.resp.payload ++ t₂.resp.payload

/-- R184: with any engine of any width and round count, decoding what encoding a block-aligned buffer gave returns the
buffer, and encoding what decoding it gave returns it too. -/
def Obligations.DecodeAndEncodeInvertEachOther : Prop :=
  ∀ (s : State) (p : List Byte), EngineReady s → p.length % s.eng.wsel.block = 0 →
    (∃ t t', exec .encode (s.withPayload p) = .next t ∧ exec .decode (t.withPayload t.resp.payload) = .next t' ∧
      t.resp.status = .ok ∧ t'.resp.status = .ok ∧ t'.resp.payload = p) ∧
    (∃ t t', exec .decode (s.withPayload p) = .next t ∧ exec .encode (t.withPayload t.resp.payload) = .next t' ∧
      t.resp.status = .ok ∧ t'.resp.status = .ok ∧ t'.resp.payload = p)

/-! ### Rules about every command -/

/-- R31: a KEY never changes the engine slot and a SETUP never changes the key slot, so ENCODE and DECODE answer
after a KEY what they answered before it. -/
def Obligations.SlotsAreIndependent : Prop :=
  (∀ s t : State, exec .key s = .next t →
    t.eng = s.eng ∧
    ∀ (p : List Byte) (i : Instr), i = .encode ∨ i = .decode → ∀ u, exec i (s.withPayload p) = .next u →
      ∃ u', exec i (t.withPayload p) = .next u' ∧ u'.resp = u.resp) ∧
  (∀ (W : Width) (r : BitVec 8) (s t : State), exec (setupInstr W r) s = .next t → t.key = s.key)

/-- R30: the transitions of the engine slot. A reset makes it Uninitialised; a SETUP that succeeds makes it Ready
with the new width and round count; a SETUP that fails, and every KEY, ENCODE and DECODE, leaves it as it was. -/
def Obligations.EngineSlotTransitions : Prop :=
  (∀ (s : State) (rest : List PortEvent), s.uop = none → s.port.inbox = .reset :: rest →
    ∃ t, step s = .next t ∧ t.eng.state = .uninitialised) ∧
  (∀ (s t : State) (cw : BitVec 16) (payload : List Byte), Idle s → step (s.offer cw payload) = .next t →
    (∀ (W : Width) (r : BitVec 8), decodeCommand cw payload.length = .ok (setupInstr W r) → t.resp.status = .ok →
      t.eng.state = .ready ∧ t.eng.wsel = W ∧ t.eng.rounds = r) ∧
    ((t.resp.status ≠ .ok ∨ ∀ (W : Width) (r : BitVec 8), decodeCommand cw payload.length ≠ .ok (setupInstr W r)) →
      t.eng = s.eng))

/-- R207: each command makes its checks in a fixed order and reports the first that fails: decode, then the slot it
needs, then the length; otherwise it runs to completion and ends OK. -/
def Obligations.FirstFailingCheckIsReported : Prop :=
  ∀ (s : State) (cw : BitVec 16) (payload : List Byte), Inv s → Idle s → payload.length < 2 ^ 32 →
    ∃ t, step (s.offer cw payload) = .next t ∧
      t.resp.status =
        match decodeCommand cw payload.length with
        | .error _ => .illegalCommand
        | .ok .key => if payload.length = 0 ∨ 256 < payload.length then .invalidKeyLength else .ok
        | .ok .encode =>
          if s.eng.state = .uninitialised then .notReady
          else if payload.length % s.eng.wsel.block ≠ 0 then .inputNotBlockAligned else .ok
        | .ok .decode =>
          if s.eng.state = .uninitialised then .notReady
          else if payload.length % s.eng.wsel.block ≠ 0 then .inputNotBlockAligned else .ok
        | .ok (.setupW8 _) => if s.key.valid = false then .noKey else .ok
        | .ok (.setupW16 _) =>
          if s.key.valid = false then .noKey else if s.key.klen.toNat % 2 ≠ 0 then .keyNotWordAligned else .ok
        | .ok (.setupW32 _) =>
          if s.key.valid = false then .noKey else if s.key.klen.toNat % 4 ≠ 0 then .keyNotWordAligned else .ok
        | .ok (.setupW64 _) =>
          if s.key.valid = false then .noKey else if s.key.klen.toNat % 8 ≠ 0 then .keyNotWordAligned else .ok
        | .ok _ => t.resp.status

/-- R200, R206: the number of each status, and which command can end with which; an undecodable word ends with
IllegalCommand only. -/
def Obligations.CommandsEndOnlyWithTheirStatuses : Prop :=
  (Status.code .ok = 0 ∧ Status.code .invalidKeyLength = 1 ∧ Status.code .keyNotWordAligned = 2 ∧
    Status.code .inputNotBlockAligned = 3 ∧ Status.code .internal = 4 ∧ Status.code .noKey = 5 ∧
    Status.code .notReady = 6 ∧ Status.code .illegalCommand = 7) ∧
  (∀ s t : State, exec .key s = .next t → t.resp.status ∈ [Status.ok, .invalidKeyLength]) ∧
  (∀ (r : BitVec 8) (s t : State), exec (.setupW8 r) s = .next t → t.resp.status ∈ [Status.ok, .noKey]) ∧
  (∀ (r : BitVec 8) (s t : State),
    exec (.setupW16 r) s = .next t ∨ exec (.setupW32 r) s = .next t ∨ exec (.setupW64 r) s = .next t →
    t.resp.status ∈ [Status.ok, .keyNotWordAligned, .noKey]) ∧
  (∀ s t : State, exec .encode s = .next t ∨ exec .decode s = .next t →
    t.resp.status ∈ [Status.ok, .inputNotBlockAligned, .notReady]) ∧
  (∀ (s t : State) (cw : BitVec 16) (payload : List Byte) (e : DecodeError), Idle s →
    decodeCommand cw payload.length = .error e → step (s.offer cw payload) = .next t → t.resp.status = .illegalCommand)

/-- R210: raising a status with two lengths writes them to the response, with no payload, delivers it, goes to IDLE,
and writes nothing else; and a command that ends with any status but OK has done just that: no byte of output, both
slots, the working registers and the counters as they were. -/
def Obligations.FailuresChangeNothing : Prop :=
  (∀ (v : Verdict) (s : State), FailsWith v.status v.info0.toNat v.info1.toNat s (raise v s)) ∧
  ∀ (s t : State) (cw : BitVec 16) (payload : List Byte), Idle s → step (s.offer cw payload) = .next t →
    t.resp.status ≠ .ok →
    NothingWritten s t ∧ t.resp.rlen = 0 ∧ t.resp.payload = [] ∧ t.seq.phase = .idle ∧ t.uop = none ∧
      t.port.outbox = s.port.outbox ++ [t.resp]

/-- R79: the lengths that the three length errors report, and 0 and 0 with every other status (R78). -/
def Obligations.OffendingLengthsAreReported : Prop :=
  ∀ (s t : State) (cw : BitVec 16) (payload : List Byte), Idle s → step (s.offer cw payload) = .next t →
    (t.resp.status = .invalidKeyLength → t.resp.info0.toNat = payload.length ∧ t.resp.info1 = 0) ∧
    (t.resp.status = .keyNotWordAligned →
      t.resp.info0.toNat = s.key.klen.toNat ∧
      ∃ (W : Width) (r : BitVec 8), decodeCommand cw payload.length = .ok (setupInstr W r) ∧ t.resp.info1.toNat = W.bytes) ∧
    (t.resp.status = .inputNotBlockAligned →
      t.resp.info0.toNat = payload.length ∧ t.resp.info1.toNat = s.eng.wsel.block) ∧
    (t.resp.status = .ok ∨ t.resp.status = .noKey ∨ t.resp.status = .notReady ∨ t.resp.status = .illegalCommand →
      t.resp.info0 = 0 ∧ t.resp.info1 = 0)

/-- R212: after any response, OK or not, the sequencer is in IDLE; and the identical command issued again after an
error gives the identical error. -/
def Obligations.ErrorsLeaveNothingSticky : Prop :=
  ∀ (s t : State) (cw : BitVec 16) (payload : List Byte), Idle s → step (s.offer cw payload) = .next t →
    Idle t ∧ (t.resp.status ≠ .ok → ∃ t', step (t.offer cw payload) = .next t' ∧ t'.resp = t.resp)

/-- R204: no step of any kind produces the status Internal. -/
def Obligations.StatusIsNeverInternal : Prop :=
  ∀ s t : State, step s = .next t → NoInternal s → NoInternal t

/-- R84: NEWENGINE is KEY, then SETUP only if KEY answered OK; its response is the first that is not OK, else OK. -/
def Obligations.NewEngineIsKeyThenSetup : Prop :=
  ∀ (W : Width) (r : BitVec 8) (keyBytes : List Byte) (s : State), Idle s → keyBytes.length < 2 ^ 32 →
    ∃ t, step (s.offer 0x0100 keyBytes) = .next t ∧
      (t.resp.status ≠ .ok → newEngine W r keyBytes s = .next t) ∧
      (t.resp.status = .ok → newEngine W r keyBytes s = step (t.offer (commandWord ((1 : BitVec 1) ++ W.code) r) []))

/-- The key's bytes reach no response to KEY, SETUP, ENCODE or DECODE: two states that differ only in the bytes of
`KEYBUF` answer every command alike (R25, R218: "no command returns `KEYBUF`"). -/
def Obligations.KeyBytesReachNoResponse : Prop :=
  ∀ (s s' t t' : State) (cw : BitVec 16) (payload : List Byte), Idle s →
    s' = { s with key := { s.key with keybuf := s'.key.keybuf } } →
    step (s.offer cw payload) = .next t → step (s'.offer cw payload) = .next t' → t'.resp = t.resp

/-! ### Invariants, the sequencer -/

/-- Every step, whatever it does, keeps the invariant: `KEYBUF` stays canonical and holds exactly the key, a Ready
engine has exactly `2·(ROUNDS+1)` subkeys, no status is Internal, and every phase finds what it needs. -/
def Obligations.StepKeepsTheInvariant : Prop :=
  ∀ s t : State, Inv s → step s = .next t → Inv t

/-- No run of commands, paced or whole, with pauses and resets anywhere, ever meets a fault or a refusal: from every
state that meets the invariant, with well-framed packets at the port and no micro-operation driven from outside. -/
def Obligations.RunsNeverFault : Prop :=
  ∀ (n : Nat) (s : State), Inv s → s.uop = none → WellFramed s → SafeRun n s

/-- R36: a command run phase by phase ends as the same command run as one step, with the same response and the same
state, after one step to accept it and exactly the number of visits that `visitCount` gives: after any smaller number the phase is
not IDLE. What stands behind the packet at the port is any list of events that does not begin with a pause or a reset. Pacing
is the model's (log 4). -/
def Obligations.PacedCommandEndsAsTheAtomicOne : Prop :=
  ∀ (s : State) (cw : BitVec 16) (payload : List Byte), Inv s → Idle s → Undisturbed s → payload.length < 2 ^ 32 →
    let n := visitCount ((s.accept cw payload s.port.inbox).toPhase .check)
    (∃ t, step (s.offer cw payload) = .next t ∧ t.seq.phase = .idle ∧
      Host.Core.run core (1 + n) (s.offerPaced cw payload) = .next t) ∧
    ∀ k, k < n → ∃ t, Host.Core.run core (1 + k) (s.offerPaced cw payload) = .next t ∧ t.seq.phase ≠ .idle

/-- From every state at CHECK that meets the invariant, the phase is IDLE after a number of visits that is a function of the
operation and of LEN, KLEN, `r` and `w` alone (R37), and after no smaller number of them: 2 for a command that is illegal
or fails a check, and the counted loops of R36 for one that passes. `visitCount` is that number. -/
def Obligations.VisitsAreCounted : Prop :=
  ∀ s : State, Inv s → s.seq.phase = .check →
    ((∃ e, decodeCommand s.port.cw s.len = .error e) → EndsAfter 2 s) ∧
    (decodeCommand s.port.cw s.len = .ok .key → EndsAfter (if 1 ≤ s.len ∧ s.len ≤ 256 then 3 else 2) s) ∧
    (∀ (W : Width) (r : BitVec 8), decodeCommand s.port.cw s.len = .ok (setupInstr W r) →
      EndsAfter
        (if s.key.valid = true ∧ s.key.klen.toNat % W.bytes = 0 then
          4 + 3 * max (2 * (r.toNat + 1)) (s.key.klen.toNat / W.bytes)
        else 2) s) ∧
    (decodeCommand s.port.cw s.len = .ok .encode ∨ decodeCommand s.port.cw s.len = .ok .decode →
      EndsAfter
        (if s.eng.state = .ready ∧ s.len % s.eng.wsel.block = 0 then
          2 + s.len / s.eng.wsel.block * (3 + s.eng.rounds.toNat)
        else 2) s) ∧
    EndsAfter (visitCount s) s

/-- R244 for a SETUP whose checks pass: the micro-operations it drives, counted. With `c` key words, `t` subkeys and
`m = 3·max(t, c)` iterations these are `c` RDW, 1 PW, 1 QW, `t − 1` ADDW, 2 ZERO, `m` MIXS and `m` MIXL, and no
others; in primitive units, each pair of MIXS and MIXL is 4 ADDW, 1 MODW and 2 ROTL. -/
def Obligations.WorkCountsOfSetup : Prop :=
  ∀ (s : State) (W : Width) (r : BitVec 8), Inv s → s.seq.phase = .check →
    decodeCommand s.port.cw s.len = .ok (setupInstr W r) → s.key.valid = true → s.key.klen.toNat % W.bytes = 0 →
    let us := drivenIn (visitCount s) s
    let c := s.key.klen.toNat / W.bytes
    let t := 2 * (r.toNat + 1)
    let m := 3 * max t c
    us.count .rdw = c ∧ us.count .pw = 1 ∧ us.count .qw = 1 ∧ us.count .addw = t - 1 ∧ us.count .zero = 2 ∧
      us.count .mixs = m ∧ us.count .mixl = m ∧ us.length = c + 1 + 1 + (t - 1) + 2 + m + m ∧
      (us.flatMap unitsOf).count .addw = (t - 1) + 4 * m ∧ (us.flatMap unitsOf).count .modw = m ∧
      (us.flatMap unitsOf).count .rotl = 2 * m

/-- R244 for an ENCODE or a DECODE whose checks pass: with `n` blocks, `n` RDB and `2n` LEUNPACK; ENCODE `2n` ADDW
and `2rn` EHR; DECODE `2rn` DHR and `2n` SUBW; and no others; in primitive units, each EHR is 1 XORW, 1 MODW, 1 ROTL
and 1 ADDW, and each DHR 1 SUBW, 1 MODW, 1 ROTR and 1 XORW. -/
def Obligations.WorkCountsOfTransforms : Prop :=
  ∀ s : State, Inv s → s.seq.phase = .check → s.eng.state = .ready → s.len % s.eng.wsel.block = 0 →
    let us := drivenIn (visitCount s) s
    let n := s.len / s.eng.wsel.block
    let r := s.eng.rounds.toNat
    (decodeCommand s.port.cw s.len = .ok .encode →
      us.count .rdb = n ∧ us.count .addw = 2 * n ∧ us.count .ehr = 2 * r * n ∧ us.count .leunpack = 2 * n ∧
        us.length = n + 2 * n + 2 * r * n + 2 * n ∧
        (us.flatMap unitsOf).count .addw = 2 * n + 2 * r * n ∧ (us.flatMap unitsOf).count .xorw = 2 * r * n ∧
        (us.flatMap unitsOf).count .modw = 2 * r * n ∧ (us.flatMap unitsOf).count .rotl = 2 * r * n) ∧
    (decodeCommand s.port.cw s.len = .ok .decode →
      us.count .rdb = n ∧ us.count .dhr = 2 * r * n ∧ us.count .subw = 2 * n ∧ us.count .leunpack = 2 * n ∧
        us.length = n + 2 * r * n + 2 * n + 2 * n ∧
        (us.flatMap unitsOf).count .subw = 2 * n + 2 * r * n ∧ (us.flatMap unitsOf).count .xorw = 2 * r * n ∧
        (us.flatMap unitsOf).count .modw = 2 * r * n ∧ (us.flatMap unitsOf).count .rotr = 2 * r * n)

/-- R32, R36: the sequencer's control never depends on a key byte, a subkey or a byte of data. Two states that agree
on what steers it, and may differ in every such value, go through the same visit to states that again agree. -/
def Obligations.ControlDoesNotDependOnData : Prop :=
  ∀ s s' t : State, SameControl s s' → visit s = .next t → ∃ t', visit s' = .next t' ∧ SameControl t t'
end

