-- ==== Sys2Proof/Laws/Datapath.lean ====
section
/-! SUPPORT. The word datapath: its values as natural numbers and as library operations, the inverse pairs, and the packing of
words into bytes and back. -/

namespace Sys2Proof.Machine

theorem bits_pos (W : Width) : 0 < W.bits := by cases W <;> decide

theorem bits_le_slot (W : Width) : W.bits ≤ 64 := by cases W <;> decide

theorem bytes_pos (W : Width) : 0 < W.bytes := by cases W <;> decide

theorem bits_eq_bytes (W : Width) : W.bits = 8 * W.bytes := by cases W <;> rfl

theorem three_lt_bits (W : Width) : 3 < W.bits := by cases W <;> decide

/-- A word put into a store comes back. -/
@[simp] theorem toWord_ofWord (W : Width) (v : BitVec W.bits) : toWord W.bits (ofWord v) = v := by
  have := bits_le_slot W
  apply BitVec.eq_of_toNat_eq
  simp only [toWord, ofWord, BitVec.toNat_setWidth]
  have h := v.isLt
  have hle : 2 ^ W.bits ≤ 2 ^ 64 := Nat.pow_le_pow_right (by decide) this
  rw [Nat.mod_eq_of_lt (Nat.lt_of_lt_of_le h hle), Nat.mod_eq_of_lt h]

@[simp] theorem addWord_toNat {w : Nat} (x y : BitVec w) : (addWord x y).toNat = (x.toNat + y.toNat) % 2 ^ w :=
  BitVec.toNat_add x y

theorem subWord_toNat {w : Nat} (x y : BitVec w) : (subWord x y).toNat = (2 ^ w - y.toNat + x.toNat) % 2 ^ w :=
  BitVec.toNat_sub x y

/-- What SUBW undoes (R94). -/
@[simp] theorem subWord_addWord {w : Nat} (x y : BitVec w) : subWord (addWord x y) y = x := by
  simp [subWord, addWord]

/-- What ADDW undoes (R94). -/
@[simp] theorem addWord_subWord {w : Nat} (x y : BitVec w) : addWord (subWord x y) y = x := by
  simp [subWord, addWord]

/-- XORW undoes itself (R95). -/
@[simp] theorem xorWord_xorWord {w : Nat} (x y : BitVec w) : xorWord (xorWord x y) y = x := by
  simp [xorWord]

/-- ROTL is the library's rotation, which also reduces its count (R96). -/
theorem rotlWord_eq_rotateLeft {w : Nat} (x : BitVec w) (n : Nat) : rotlWord x n = x.rotateLeft n := by
  unfold rotlWord
  by_cases hs : n % w = 0
  · simp only [hs, if_true]
    rw [← BitVec.rotateLeft_mod_eq_rotateLeft, hs]
    ext i hi
    simp [BitVec.rotateLeft, BitVec.rotateLeftAux]
  · simp only [hs, if_false]
    rcases Nat.eq_zero_or_pos w with rfl | hw
    · exact Subsingleton.elim _ _
    have hlt : n % w < w := Nat.mod_lt _ hw
    rw [← BitVec.rotateLeft_mod_eq_rotateLeft, BitVec.add_eq_or_of_and_eq_zero]
    · simp [BitVec.rotateLeft, BitVec.rotateLeftAux]
    · ext i hi
      simp only [BitVec.getElem_and, BitVec.getElem_shiftLeft, BitVec.getElem_ushiftRight, BitVec.getElem_zero]
      by_cases h : i < n % w
      · simp [h]
      · have : w ≤ w - n % w + i := by omega
        simp [BitVec.getLsbD_of_ge x _ this]

/-- ROTR is the library's rotation, which also reduces its count (R97). -/
theorem rotrWord_eq_rotateRight {w : Nat} (x : BitVec w) (n : Nat) : rotrWord x n = x.rotateRight n := by
  unfold rotrWord
  by_cases hs : n % w = 0
  · simp only [hs, if_true]
    rw [← BitVec.rotateRight_mod_eq_rotateRight, hs]
    ext i hi
    simp [BitVec.rotateRight, BitVec.rotateRightAux]
  · simp only [hs, if_false]
    rcases Nat.eq_zero_or_pos w with rfl | hw
    · exact Subsingleton.elim _ _
    have hlt : n % w < w := Nat.mod_lt _ hw
    rw [← BitVec.rotateRight_mod_eq_rotateRight, BitVec.add_eq_or_of_and_eq_zero]
    · simp [BitVec.rotateRight, BitVec.rotateRightAux]
    · ext i hi
      simp only [BitVec.getElem_and, BitVec.getElem_shiftLeft, BitVec.getElem_ushiftRight, BitVec.getElem_zero]
      by_cases h : i < w - n % w
      · simp [h]
      · have : w ≤ n % w + i := by omega
        simp [BitVec.getLsbD_of_ge x _ this]

/-- What ROTR undoes (R97). -/
@[simp] theorem rotrWord_rotlWord {w : Nat} (x : BitVec w) (n : Nat) : rotrWord (rotlWord x n) n = x := by
  rw [rotlWord_eq_rotateLeft, rotrWord_eq_rotateRight]
  ext i hi
  simp only [BitVec.getElem_rotateRight, BitVec.getElem_rotateLeft]
  grind

/-- What ROTL undoes (R97). -/
@[simp] theorem rotlWord_rotrWord {w : Nat} (x : BitVec w) (n : Nat) : rotlWord (rotrWord x n) n = x := by
  rw [rotlWord_eq_rotateLeft, rotrWord_eq_rotateRight]
  ext i hi
  simp only [BitVec.getElem_rotateRight, BitVec.getElem_rotateLeft]
  grind

/-- An index reduced modulo the width, when it is less than twice the width. -/
theorem mod_of_lt_twice {w n : Nat} (h : n < 2 * w) : n % w = if n < w then n else n - w := by
  split
  · exact Nat.mod_eq_of_lt ‹_›
  · rw [Nat.mod_eq_sub_mod (by omega), Nat.mod_eq_of_lt (by omega)]

/-- ROTL in bits (R96). -/
theorem rotlWord_getLsbD {w : Nat} (x : BitVec w) (n k : Nat) (hk : k < w) :
    (rotlWord x n).getLsbD ((k + n % w) % w) = x.getLsbD k := by
  have hn : n % w < w := Nat.mod_lt _ (by omega)
  rw [rotlWord_eq_rotateLeft, ← BitVec.rotateLeft_mod_eq_rotateLeft, BitVec.getLsbD_rotateLeft, Nat.mod_mod,
    mod_of_lt_twice (n := k + n % w) (by omega)]
  split
  · rw [decide_eq_false (by omega), cond_false]
    simp only [decide_eq_true ‹k + n % w < w›, Bool.true_and]
    congr 1
    omega
  · rw [decide_eq_true (by omega), cond_true]
    congr 1
    omega

/-- ROTR in bits (R97). -/
theorem rotrWord_getLsbD {w : Nat} (x : BitVec w) (n k : Nat) (hk : k < w) :
    (rotrWord x n).getLsbD k = x.getLsbD ((k + n % w) % w) := by
  have hn : n % w < w := Nat.mod_lt _ (by omega)
  rw [rotrWord_eq_rotateRight, ← BitVec.rotateRight_mod_eq_rotateRight, BitVec.getLsbD_rotateRight, Nat.mod_mod,
    mod_of_lt_twice (n := k + n % w) (by omega)]
  split
  · rw [decide_eq_true (by omega), cond_true]
    congr 1
    omega
  · rw [decide_eq_false (by omega), cond_false]
    simp only [decide_eq_true hk, Bool.true_and]
    congr 1
    omega

/-- A rotation count fits the rotator (R98, R103). -/
theorem modWord_lt {w : Nat} (hw : 0 < w) (x : BitVec w) : modWord x < w := Nat.mod_lt _ hw

/-! ### Bytes -/

@[simp] theorem leBytes_length (n v : Nat) : (leBytes n v).length = n := by
  induction n generalizing v with
  | zero => rfl
  | succ n ih => simp [leBytes, ih]

@[simp] theorem leUnpack_length (W : Width) (x : BitVec W.bits) : (leUnpack W x).length = W.bytes := by
  simp [leUnpack]

theorem leNat_lt (ds : List Byte) : leNat ds < 256 ^ ds.length := by
  induction ds with
  | nil => simp [leNat]
  | cons d ds ih =>
    have := d.isLt
    simp only [leNat, List.length_cons, Nat.pow_succ]
    omega

theorem leNat_leBytes (n v : Nat) : leNat (leBytes n v) = v % 256 ^ n := by
  induction n generalizing v with
  | zero => simp [leBytes, leNat, Nat.mod_one]
  | succ n ih =>
    have h256 : (256 : Nat) ^ (n + 1) = 256 * 256 ^ n := by rw [Nat.pow_succ, Nat.mul_comm]
    simp only [leBytes, leNat, ih, BitVec.toNat_ofNat, h256, Nat.mod_mul]

theorem leBytes_leNat (ds : List Byte) : leBytes ds.length (leNat ds) = ds := by
  induction ds with
  | nil => rfl
  | cons d ds ih =>
    have hd := d.isLt
    have hdiv : (d.toNat + 256 * leNat ds) / 256 = leNat ds := by omega
    have hmod : BitVec.ofNat 8 (d.toNat + 256 * leNat ds) = d := by
      apply BitVec.eq_of_toNat_eq
      simp only [BitVec.toNat_ofNat]
      omega
    simp only [leNat, List.length_cons, leBytes, hdiv, hmod, ih]

theorem pow256_bytes (W : Width) : 256 ^ W.bytes = 2 ^ W.bits := by cases W <;> rfl

/-- LEPACK undoes LEUNPACK (R100). -/
@[simp] theorem lePack_leUnpack (W : Width) (x : BitVec W.bits) : lePack W.bits (leUnpack W x) = x := by
  apply BitVec.eq_of_toNat_eq
  have hx := x.isLt
  simp only [lePack, leUnpack, leNat_leBytes, BitVec.toNat_ofNat, pow256_bytes, Nat.mod_mod]
  exact Nat.mod_eq_of_lt hx

/-- LEUNPACK undoes LEPACK on exactly `u` bytes (R100). -/
theorem leUnpack_lePack (W : Width) (ds : List Byte) (h : ds.length = W.bytes) :
    leUnpack W (lePack W.bits ds) = ds := by
  have hlt := leNat_lt ds
  rw [h, pow256_bytes] at hlt
  simp only [lePack, leUnpack, BitVec.toNat_ofNat]
  rw [Nat.mod_eq_of_lt hlt, ← h, leBytes_leNat]

theorem leBytes_getElem? (n v k : Nat) (h : k < n) : (leBytes n v)[k]? = some (BitVec.ofNat 8 (v / 256 ^ k)) := by
  induction n generalizing v k with
  | zero => omega
  | succ n ih =>
    cases k with
    | zero => simp [leBytes]
    | succ k =>
      simp only [leBytes, List.getElem?_cons_succ]
      rw [ih _ _ (by omega), Nat.div_div_eq_div_mul, Nat.pow_succ, Nat.mul_comm]

/-- Byte `k` of LEUNPACK is bits `8k+7 … 8k` of the word (R100). -/
theorem leUnpack_getElem? (W : Width) (x : BitVec W.bits) (k : Nat) (h : k < W.bytes) :
    (leUnpack W x)[k]? = some (x.extractLsb' (8 * k) 8) := by
  rw [leUnpack, leBytes_getElem? _ _ _ h]
  congr 1
  apply BitVec.eq_of_toNat_eq
  simp [BitVec.extractLsb'_toNat, Nat.shiftRight_eq_div_pow, Nat.pow_mul]

/-- Each byte of a packed word stands where LEPACK puts it (R99). -/
theorem lePack_byte (W : Width) (ds : List Byte) (h : ds.length = W.bytes) (k : Nat) (hk : k < W.bytes) :
    ds[k]? = some ((lePack W.bits ds).extractLsb' (8 * k) 8) := by
  have := leUnpack_getElem? W (lePack W.bits ds) k hk
  rwa [leUnpack_lePack W ds h] at this

/-- DHR undoes EHR, with the same other word and subkey (R184). -/
@[simp] theorem dhrWord_ehrWord {w : Nat} (x y k : BitVec w) : dhrWord (ehrWord x y k) y k = x := by
  simp [dhrWord, ehrWord]

/-- EHR undoes DHR, with the same other word and subkey (R184). -/
@[simp] theorem ehrWord_dhrWord {w : Nat} (x y k : BitVec w) : ehrWord (dhrWord x y k) y k = x := by
  simp [dhrWord, ehrWord]

end Sys2Proof.Machine
end

