-- ==== Sys2Proof/Laws/Decoding.lean ====
section
/-! SUPPORT. The fields of a command word, and what the decoder answers for each. -/

namespace Sys2Proof

theorem commandWord_toNat (op : BitVec 3) (r : BitVec 8) : (commandWord op r).toNat = 256 * op.toNat + r.toNat := by
  have hz : (0 : BitVec 5).toNat = 0 := rfl
  simp only [commandWord, BitVec.toNat_append, hz, Nat.zero_shiftLeft, Nat.zero_or]
  rw [← Nat.shiftLeft_add_eq_or_of_lt r.isLt, Nat.shiftLeft_eq]
  omega

/-- A command word is its three fields side by side (R71). -/
theorem commandWord_fields (cw : BitVec 16) (h : cwRsv cw = 0) : cw = commandWord (cwOp cw) (cwRounds cw) := by
  apply BitVec.eq_of_toNat_eq
  have h' : (cwRsv cw).toNat = 0 := by rw [h]; rfl
  rw [commandWord_toNat]
  simp only [cwRsv, cwOp, cwRounds, BitVec.extractLsb'_toNat, Nat.shiftRight_eq_div_pow] at h' ⊢
  omega

@[simp] theorem cwRounds_commandWord (op : BitVec 3) (r : BitVec 8) : cwRounds (commandWord op r) = r := by
  apply BitVec.eq_of_toNat_eq
  simp only [cwRounds, BitVec.extractLsb'_toNat, Nat.shiftRight_eq_div_pow, commandWord_toNat]
  omega

@[simp] theorem cwOp_commandWord (op : BitVec 3) (r : BitVec 8) : cwOp (commandWord op r) = op := by
  apply BitVec.eq_of_toNat_eq
  simp only [cwOp, BitVec.extractLsb'_toNat, Nat.shiftRight_eq_div_pow, commandWord_toNat]
  omega

@[simp] theorem cwRsv_commandWord (op : BitVec 3) (r : BitVec 8) : cwRsv (commandWord op r) = 0 := by
  apply BitVec.eq_of_toNat_eq
  have hz : (0 : BitVec 5).toNat = 0 := rfl
  simp only [cwRsv, BitVec.extractLsb'_toNat, Nat.shiftRight_eq_div_pow, commandWord_toNat, hz]
  omega

theorem cwIsSetup_eq (cw : BitVec 16) : cwIsSetup cw = (cwOp cw).getLsbD 2 := by
  simp [cwIsSetup, cwOp]

theorem cwWsel_eq (cw : BitVec 16) : cwWsel cw = (cwOp cw).extractLsb' 0 2 := by
  ext i hi
  simp only [cwWsel, cwOp, BitVec.getElem_extractLsb', BitVec.getLsbD_extractLsb']
  simp; omega

/-- The eight operation codes. -/
theorem op_cases (op : BitVec 3) :
    op = 0 ∨ op = 1 ∨ op = 2 ∨ op = 3 ∨ op = 4 ∨ op = 5 ∨ op = 6 ∨ op = 7 := by
  revert op; decide

/-- What the decoder answers for a word whose reserved bits are 0 (R74, R80). -/
theorem decodeCommand_commandWord (op : BitVec 3) (r : BitVec 8) (len : Nat) :
    decodeCommand (commandWord op r) len =
      if op = 0 then .error .opZero
      else if op.getLsbD 2 then
        if len = 0 then .ok (setupInstr (Width.ofCode (op.extractLsb' 0 2)) r) else .error .lenNotZero
      else if r ≠ 0 then .error .roundsNotZero
      else if op = 1 then .ok .key
      else if op = 2 then .ok .encode
      else .ok .decode := by
  simp [decodeCommand, cwIsSetup_eq, cwWsel_eq]

/-- The all-zero command word is illegal (R80 (b)). -/
@[simp] theorem decodeCommand_zeroWord (len : Nat) : decodeCommand 0x0000 len = .error .opZero := by
  show decodeCommand (commandWord 0 0) len = _
  rw [decodeCommand_commandWord]
  rfl

@[simp] theorem decodeCommand_keyWord (len : Nat) : decodeCommand 0x0100 len = .ok .key := by
  show decodeCommand (commandWord 1 0) len = _
  rw [decodeCommand_commandWord]
  rfl

@[simp] theorem decodeCommand_encodeWord (len : Nat) : decodeCommand 0x0200 len = .ok .encode := by
  show decodeCommand (commandWord 2 0) len = _
  rw [decodeCommand_commandWord]
  rfl

@[simp] theorem decodeCommand_decodeWord (len : Nat) : decodeCommand 0x0300 len = .ok .decode := by
  show decodeCommand (commandWord 3 0) len = _
  rw [decodeCommand_commandWord]
  rfl

theorem decodeCommand_setupWord (W : Width) (r : BitVec 8) :
    decodeCommand (commandWord ((1 : BitVec 1) ++ W.code) r) 0 = .ok (setupInstr W r) := by
  rw [decodeCommand_commandWord]
  cases W <;> rfl

/-- Every word that decodes is one of the seven commands (R74, R77). -/
theorem decodeCommand_ok {cw : BitVec 16} {len : Nat} {i : Instr} (h : decodeCommand cw len = .ok i) :
    (i = .key ∧ cw = 0x0100) ∨ (i = .encode ∧ cw = 0x0200) ∨ (i = .decode ∧ cw = 0x0300) ∨
      ∃ W r, i = setupInstr W r ∧ cw = commandWord ((1 : BitVec 1) ++ W.code) r ∧ len = 0 := by
  by_cases hr : cwRsv cw = 0
  · have hw := commandWord_fields cw hr
    generalize hop : cwOp cw = op at hw
    generalize hrr : cwRounds cw = r at hw
    subst hw
    clear hop hrr hr
    rw [decodeCommand_commandWord] at h
    have setupCase : ∀ W : Width, op = (1 : BitVec 1) ++ W.code → op ≠ 0 → op.getLsbD 2 = true →
        Width.ofCode (op.extractLsb' 0 2) = W →
        ∃ W r', i = setupInstr W r' ∧ commandWord op r = commandWord ((1 : BitVec 1) ++ W.code) r' ∧ len = 0 := by
      intro W ho h0 h2 hc
      rw [if_neg h0, if_pos h2, hc] at h
      split at h
      · exact ⟨W, r, by cases h; rfl, by rw [ho], ‹_›⟩
      · cases h
    have plainCase : ∀ j, op ≠ 0 → op.getLsbD 2 ≠ true →
        (if op = 1 then (.ok .key : Except DecodeError Instr) else if op = 2 then .ok .encode else .ok .decode) = .ok j →
        i = j ∧ r = 0 := by
      intro j h0 h2 hj
      rw [if_neg h0, if_neg h2, hj] at h
      split at h
      · cases h
      · exact ⟨by cases h; rfl, by simpa using ‹¬ r ≠ 0›⟩
    rcases op_cases op with ho | ho | ho | ho | ho | ho | ho | ho
    · subst ho; rw [if_pos rfl] at h; cases h
    · obtain ⟨hi, hz⟩ := plainCase .key (by subst ho; decide) (by subst ho; decide) (by subst ho; rfl)
      subst ho hz; exact .inl ⟨hi, rfl⟩
    · obtain ⟨hi, hz⟩ := plainCase .encode (by subst ho; decide) (by subst ho; decide) (by subst ho; rfl)
      subst ho hz; exact .inr (.inl ⟨hi, rfl⟩)
    · obtain ⟨hi, hz⟩ := plainCase .decode (by subst ho; decide) (by subst ho; decide) (by subst ho; rfl)
      subst ho hz; exact .inr (.inr (.inl ⟨hi, rfl⟩))
    · exact .inr (.inr (.inr (setupCase .w8 (by subst ho; rfl) (by subst ho; decide) (by subst ho; rfl) (by subst ho; rfl))))
    · exact .inr (.inr (.inr (setupCase .w16 (by subst ho; rfl) (by subst ho; decide) (by subst ho; rfl) (by subst ho; rfl))))
    · exact .inr (.inr (.inr (setupCase .w32 (by subst ho; rfl) (by subst ho; decide) (by subst ho; rfl) (by subst ho; rfl))))
    · exact .inr (.inr (.inr (setupCase .w64 (by subst ho; rfl) (by subst ho; decide) (by subst ho; rfl) (by subst ho; rfl))))
  · rw [decodeCommand, if_pos hr] at h; cases h

/-- A SETUP's word names its width (R75). -/
theorem setupWord_facts (W : Width) (r : BitVec 8) :
    cwIsSetup (commandWord ((1 : BitVec 1) ++ W.code) r) = true ∧
      Width.ofCode (cwWsel (commandWord ((1 : BitVec 1) ++ W.code) r)) = W := by
  rw [cwIsSetup_eq, cwWsel_eq, cwOp_commandWord]
  cases W <;> exact ⟨rfl, rfl⟩

/-- A select code drives a micro-operation, never a command (R85). -/
theorem decodeSelect_ok {uop : BitVec 5} {i : Instr} (h : decodeSelect uop = .ok i) :
    i ∈ [Instr.zero, .pw, .qw, .addw, .subw, .xorw, .rotl, .rotr, .modw, .lepack, .leunpack, .rdw, .rdb, .mixs, .mixl,
      .ehr, .dhr] := by
  unfold decodeSelect at h
  split at h <;> cases h <;> simp

end Sys2Proof
end

