-- ==== Sys2Proof/Laws/State.lean ====
section
/-! SUPPORT. One lemma per group of the state per update, so that no proof unfolds a record update. -/

namespace Sys2Proof.Machine

/-! ### A word result -/

@[simp] theorem State.setRes_key (s : State) {w : Nat} (v : BitVec w) : (s.setRes v).key = s.key := rfl
@[simp] theorem State.setRes_eng (s : State) {w : Nat} (v : BitVec w) : (s.setRes v).eng = s.eng := rfl
@[simp] theorem State.setRes_work (s : State) {w : Nat} (v : BitVec w) : (s.setRes v).work = s.work := rfl
@[simp] theorem State.setRes_seq (s : State) {w : Nat} (v : BitVec w) : (s.setRes v).seq = s.seq := rfl
@[simp] theorem State.setRes_resp (s : State) {w : Nat} (v : BitVec w) : (s.setRes v).resp = s.resp := rfl
@[simp] theorem State.setRes_port (s : State) {w : Nat} (v : BitVec w) : (s.setRes v).port = s.port := rfl
@[simp] theorem State.setRes_verdict (s : State) {w : Nat} (v : BitVec w) : (s.setRes v).verdict = s.verdict := rfl
@[simp] theorem State.setRes_uop (s : State) {w : Nat} (v : BitVec w) : (s.setRes v).uop = s.uop := rfl
@[simp] theorem State.setRes_dp (s : State) {w : Nat} (v : BitVec w) : (s.setRes v).dp = { s.dp with res := ofWord v } := rfl

/-! ### An updated operand -/

@[simp] theorem State.setX_key (s : State) {w : Nat} (v : BitVec w) : (s.setX v).key = s.key := rfl
@[simp] theorem State.setX_eng (s : State) {w : Nat} (v : BitVec w) : (s.setX v).eng = s.eng := rfl
@[simp] theorem State.setX_work (s : State) {w : Nat} (v : BitVec w) : (s.setX v).work = s.work := rfl
@[simp] theorem State.setX_seq (s : State) {w : Nat} (v : BitVec w) : (s.setX v).seq = s.seq := rfl
@[simp] theorem State.setX_resp (s : State) {w : Nat} (v : BitVec w) : (s.setX v).resp = s.resp := rfl
@[simp] theorem State.setX_port (s : State) {w : Nat} (v : BitVec w) : (s.setX v).port = s.port := rfl
@[simp] theorem State.setX_verdict (s : State) {w : Nat} (v : BitVec w) : (s.setX v).verdict = s.verdict := rfl
@[simp] theorem State.setX_uop (s : State) {w : Nat} (v : BitVec w) : (s.setX v).uop = s.uop := rfl
@[simp] theorem State.setX_dp (s : State) {w : Nat} (v : BitVec w) : (s.setX v).dp = { s.dp with x := ofWord v } := rfl

/-! ### A byte-sequence result -/

@[simp] theorem State.setResBytes_key (s : State) (ds : List Byte) : (s.setResBytes ds).key = s.key := rfl
@[simp] theorem State.setResBytes_eng (s : State) (ds : List Byte) : (s.setResBytes ds).eng = s.eng := rfl
@[simp] theorem State.setResBytes_work (s : State) (ds : List Byte) : (s.setResBytes ds).work = s.work := rfl
@[simp] theorem State.setResBytes_seq (s : State) (ds : List Byte) : (s.setResBytes ds).seq = s.seq := rfl
@[simp] theorem State.setResBytes_resp (s : State) (ds : List Byte) : (s.setResBytes ds).resp = s.resp := rfl
@[simp] theorem State.setResBytes_port (s : State) (ds : List Byte) : (s.setResBytes ds).port = s.port := rfl
@[simp] theorem State.setResBytes_verdict (s : State) (ds : List Byte) : (s.setResBytes ds).verdict = s.verdict := rfl
@[simp] theorem State.setResBytes_uop (s : State) (ds : List Byte) : (s.setResBytes ds).uop = s.uop := rfl
@[simp] theorem State.setResBytes_dp (s : State) (ds : List Byte) : (s.setResBytes ds).dp = { s.dp with resBytes := ds } := rfl

/-! ### A move to a phase -/

@[simp] theorem State.toPhase_key (s : State) (p : Phase) : (s.toPhase p).key = s.key := rfl
@[simp] theorem State.toPhase_eng (s : State) (p : Phase) : (s.toPhase p).eng = s.eng := rfl
@[simp] theorem State.toPhase_work (s : State) (p : Phase) : (s.toPhase p).work = s.work := rfl
@[simp] theorem State.toPhase_seq (s : State) (p : Phase) : (s.toPhase p).seq = { s.seq with phase := p } := rfl
@[simp] theorem State.toPhase_resp (s : State) (p : Phase) : (s.toPhase p).resp = s.resp := rfl
@[simp] theorem State.toPhase_port (s : State) (p : Phase) : (s.toPhase p).port = s.port := rfl
@[simp] theorem State.toPhase_verdict (s : State) (p : Phase) : (s.toPhase p).verdict = s.verdict := rfl
@[simp] theorem State.toPhase_uop (s : State) (p : Phase) : (s.toPhase p).uop = s.uop := rfl
@[simp] theorem State.toPhase_dp (s : State) (p : Phase) : (s.toPhase p).dp = s.dp := rfl

/-! ### Accepting a packet -/

@[simp] theorem State.accept_key (s : State) (cw : BitVec 16) (ds : List Byte) (rest : List PortEvent) : (s.accept cw ds rest).key = s.key := rfl
@[simp] theorem State.accept_eng (s : State) (cw : BitVec 16) (ds : List Byte) (rest : List PortEvent) : (s.accept cw ds rest).eng = s.eng := rfl
@[simp] theorem State.accept_work (s : State) (cw : BitVec 16) (ds : List Byte) (rest : List PortEvent) : (s.accept cw ds rest).work = s.work := rfl
@[simp] theorem State.accept_seq (s : State) (cw : BitVec 16) (ds : List Byte) (rest : List PortEvent) : (s.accept cw ds rest).seq = s.seq := rfl
@[simp] theorem State.accept_resp (s : State) (cw : BitVec 16) (ds : List Byte) (rest : List PortEvent) : (s.accept cw ds rest).resp = s.resp := rfl
@[simp] theorem State.accept_port (s : State) (cw : BitVec 16) (ds : List Byte) (rest : List PortEvent) : (s.accept cw ds rest).port = { s.port with cw := cw, payload := ds, inbox := rest } := rfl
@[simp] theorem State.accept_verdict (s : State) (cw : BitVec 16) (ds : List Byte) (rest : List PortEvent) : (s.accept cw ds rest).verdict = s.verdict := rfl
@[simp] theorem State.accept_uop (s : State) (cw : BitVec 16) (ds : List Byte) (rest : List PortEvent) : (s.accept cw ds rest).uop = s.uop := rfl
@[simp] theorem State.accept_dp (s : State) (cw : BitVec 16) (ds : List Byte) (rest : List PortEvent) : (s.accept cw ds rest).dp = s.dp := rfl

/-! ### The end of a command -/

@[simp] theorem deliver_key (v : Verdict) (ds : List Byte) (s : State) : (deliver v ds s).key = s.key := rfl
@[simp] theorem deliver_eng (v : Verdict) (ds : List Byte) (s : State) : (deliver v ds s).eng = s.eng := rfl
@[simp] theorem deliver_work (v : Verdict) (ds : List Byte) (s : State) : (deliver v ds s).work = s.work := rfl
@[simp] theorem deliver_seq (v : Verdict) (ds : List Byte) (s : State) : (deliver v ds s).seq = { s.seq with phase := .idle } := rfl
@[simp] theorem deliver_resp (v : Verdict) (ds : List Byte) (s : State) : (deliver v ds s).resp = responseOf v ds := rfl
@[simp] theorem deliver_port (v : Verdict) (ds : List Byte) (s : State) : (deliver v ds s).port = { s.port with cw := 0, payload := [], outbox := s.port.outbox ++ [responseOf v ds] } := rfl
@[simp] theorem deliver_verdict (v : Verdict) (ds : List Byte) (s : State) : (deliver v ds s).verdict = Verdict.ok := rfl
@[simp] theorem deliver_uop (v : Verdict) (ds : List Byte) (s : State) : (deliver v ds s).uop = s.uop := rfl
@[simp] theorem deliver_dp (v : Verdict) (ds : List Byte) (s : State) : (deliver v ds s).dp = Datapath.idle := rfl

/-! ### A key stored -/

@[simp] theorem storeKey_key (s : State) : (storeKey s).key = { valid := true, klen := BitVec.ofNat 9 s.len, keybuf := Memory.writeBytes [] 0 s.port.payload } := rfl
@[simp] theorem storeKey_eng (s : State) : (storeKey s).eng = s.eng := rfl
@[simp] theorem storeKey_work (s : State) : (storeKey s).work = s.work := rfl
@[simp] theorem storeKey_seq (s : State) : (storeKey s).seq = s.seq := rfl
@[simp] theorem storeKey_resp (s : State) : (storeKey s).resp = s.resp := rfl
@[simp] theorem storeKey_port (s : State) : (storeKey s).port = s.port := rfl
@[simp] theorem storeKey_verdict (s : State) : (storeKey s).verdict = s.verdict := rfl
@[simp] theorem storeKey_uop (s : State) : (storeKey s).uop = s.uop := rfl
@[simp] theorem storeKey_dp (s : State) : (storeKey s).dp = s.dp := rfl

/-! ### An engine installed -/

@[simp] theorem installEngine_key (W : Width) (r : BitVec 8) (k : Nat) (m : Mix W.bits) (s : State) : (installEngine W r k m s).key = s.key := rfl
@[simp] theorem installEngine_eng (W : Width) (r : BitVec 8) (k : Nat) (m : Mix W.bits) (s : State) : (installEngine W r k m s).eng = { state := .ready, wsel := W, rounds := r, S := m.S.map ofWord } := rfl
@[simp] theorem installEngine_work (W : Width) (r : BitVec 8) (k : Nat) (m : Mix W.bits) (s : State) : (installEngine W r k m s).work = { A := ofWord m.A, B := ofWord m.B, L := [] } := rfl
@[simp] theorem installEngine_seq (W : Width) (r : BitVec 8) (k : Nat) (m : Mix W.bits) (s : State) : (installEngine W r k m s).seq = { s.seq with I := m.I, J := m.J, K := k } := rfl
@[simp] theorem installEngine_resp (W : Width) (r : BitVec 8) (k : Nat) (m : Mix W.bits) (s : State) : (installEngine W r k m s).resp = s.resp := rfl
@[simp] theorem installEngine_port (W : Width) (r : BitVec 8) (k : Nat) (m : Mix W.bits) (s : State) : (installEngine W r k m s).port = s.port := rfl
@[simp] theorem installEngine_verdict (W : Width) (r : BitVec 8) (k : Nat) (m : Mix W.bits) (s : State) : (installEngine W r k m s).verdict = s.verdict := rfl
@[simp] theorem installEngine_uop (W : Width) (r : BitVec 8) (k : Nat) (m : Mix W.bits) (s : State) : (installEngine W r k m s).uop = s.uop := rfl
@[simp] theorem installEngine_dp (W : Width) (r : BitVec 8) (k : Nat) (m : Mix W.bits) (s : State) : (installEngine W r k m s).dp = s.dp := rfl

/-! ### Reset -/

@[simp] theorem State.afterReset_key (s : State) (rest : List PortEvent) : (s.afterReset rest).key = State.reset.key := rfl
@[simp] theorem State.afterReset_eng (s : State) (rest : List PortEvent) : (s.afterReset rest).eng = State.reset.eng := rfl
@[simp] theorem State.afterReset_work (s : State) (rest : List PortEvent) : (s.afterReset rest).work = State.reset.work := rfl
@[simp] theorem State.afterReset_seq (s : State) (rest : List PortEvent) : (s.afterReset rest).seq = State.reset.seq := rfl
@[simp] theorem State.afterReset_resp (s : State) (rest : List PortEvent) : (s.afterReset rest).resp = State.reset.resp := rfl
@[simp] theorem State.afterReset_port (s : State) (rest : List PortEvent) : (s.afterReset rest).port = { State.reset.port with inbox := rest, outbox := s.port.outbox } := rfl
@[simp] theorem State.afterReset_verdict (s : State) (rest : List PortEvent) : (s.afterReset rest).verdict = Verdict.ok := rfl
@[simp] theorem State.afterReset_uop (s : State) (rest : List PortEvent) : (s.afterReset rest).uop = none := rfl
@[simp] theorem State.afterReset_dp (s : State) (rest : List PortEvent) : (s.afterReset rest).dp = Datapath.idle := rfl

/-! ### Ends of a command, and what the port lends -/

@[simp] theorem raise_eq (v : Verdict) (s : State) : raise v s = deliver v [] s := rfl

@[simp] theorem respond_eq (ds : List Byte) (s : State) : respond ds s = deliver Verdict.ok ds s := rfl

@[simp] theorem accept_len (s : State) (cw : BitVec 16) (ds : List Byte) (rest : List PortEvent) :
    (s.accept cw ds rest).len = ds.length := rfl

@[simp] theorem accept_toPhase_len (s : State) (cw : BitVec 16) (ds : List Byte) (rest : List PortEvent) (p : Phase) :
    ((s.accept cw ds rest).toPhase p).len = ds.length := rfl

/-- A transform's scratch touches the working registers and the counters `RND` and `BLK` only. -/
theorem transformScratch_key (W : Width) (n : Nat) (bs : List (BitVec W.bits × BitVec W.bits)) (s : State) :
    (transformScratch W n bs s).key = s.key := by unfold transformScratch; split <;> rfl

theorem transformScratch_eng (W : Width) (n : Nat) (bs : List (BitVec W.bits × BitVec W.bits)) (s : State) :
    (transformScratch W n bs s).eng = s.eng := by unfold transformScratch; split <;> rfl

theorem transformScratch_port (W : Width) (n : Nat) (bs : List (BitVec W.bits × BitVec W.bits)) (s : State) :
    (transformScratch W n bs s).port = s.port := by unfold transformScratch; split <;> rfl

theorem transformScratch_uop (W : Width) (n : Nat) (bs : List (BitVec W.bits × BitVec W.bits)) (s : State) :
    (transformScratch W n bs s).uop = s.uop := by unfold transformScratch; split <;> rfl

theorem transformScratch_L (W : Width) (n : Nat) (bs : List (BitVec W.bits × BitVec W.bits)) (s : State) :
    (transformScratch W n bs s).work.L = s.work.L := by unfold transformScratch; split <;> rfl

theorem transformScratch_seq (W : Width) (n : Nat) (bs : List (BitVec W.bits × BitVec W.bits)) (s : State) :
    (transformScratch W n bs s).seq.I = s.seq.I ∧ (transformScratch W n bs s).seq.J = s.seq.J ∧
      (transformScratch W n bs s).seq.K = s.seq.K := by unfold transformScratch; split <;> exact ⟨rfl, rfl, rfl⟩

end Sys2Proof.Machine
end

