-- ==== Sys2Proof/Laws/Exec.lean ====
section
/-! SUPPORT. What each shared operation can do, said once: the checks, raising and responding, the three command procedures, the
micro-operations. -/

namespace Sys2Proof.Machine

/-! ### Going on -/

@[simp] theorem andThen_next (s : State) (f : State → Out) : andThen (.next s) f = f s := rfl

@[simp] theorem andThen_fault (r : Fault) (f : State → Out) : andThen (.fault r) f = .fault r := rfl

@[simp] theorem andThen_refused (r : Refusal) (f : State → Out) : andThen (.refused r) f = .refused r := rfl

/-- A sequence answers next only through a next state of its first part. -/
theorem andThen_eq_next {o : Out} {f : State → Out} {t : State} :
    andThen o f = .next t ↔ ∃ u, o = .next u ∧ f u = .next t := by
  cases o <;> simp

/-! ### The checks -/

theorem keyCheck_none {s : State} : keyCheck s = none ↔ 1 ≤ s.len ∧ s.len ≤ 256 := by
  unfold keyCheck
  split <;> rename_i hc <;> simp only [Config.keyMin, Config.keyMax] at hc <;> simp <;> omega

theorem keyCheck_some {s : State} {v : Verdict} (h : keyCheck s = some v) :
    (s.len = 0 ∨ 256 < s.len) ∧ v = ⟨.invalidKeyLength, BitVec.ofNat 32 s.len, 0⟩ := by
  unfold keyCheck at h
  split at h <;> rename_i hc <;> simp only [Config.keyMin, Config.keyMax] at hc
  · exact ⟨by omega, by cases h; rfl⟩
  · cases h

theorem setupCheck_none {W : Width} {s : State} :
    setupCheck W s = none ↔ s.key.valid = true ∧ s.key.klen.toNat % W.bytes = 0 := by
  unfold setupCheck
  split
  · simp_all
  · split <;> simp_all

theorem setupCheck_some {W : Width} {s : State} {v : Verdict} (h : setupCheck W s = some v) :
    (s.key.valid = false ∧ v = ⟨.noKey, 0, 0⟩) ∨
      (s.key.valid = true ∧ s.key.klen.toNat % W.bytes ≠ 0 ∧
        v = ⟨.keyNotWordAligned, s.key.klen.setWidth 32, BitVec.ofNat 32 W.bytes⟩) := by
  unfold setupCheck at h
  split at h
  · exact .inl ⟨‹_›, by cases h; rfl⟩
  · split at h
    · exact .inr ⟨by simpa using ‹¬ s.key.valid = false›, ‹_›, by cases h; rfl⟩
    · cases h

theorem transformCheck_none {s : State} :
    transformCheck s = none ↔ s.eng.state = .ready ∧ s.len % s.eng.wsel.block = 0 := by
  unfold transformCheck
  split
  · simp_all
  · have : s.eng.state = .ready := by
      cases h : s.eng.state
      · exact absurd h ‹_›
      · rfl
    split <;> simp_all

theorem transformCheck_some {s : State} {v : Verdict} (h : transformCheck s = some v) :
    (s.eng.state = .uninitialised ∧ v = ⟨.notReady, 0, 0⟩) ∨
      (s.eng.state = .ready ∧ s.len % s.eng.wsel.block ≠ 0 ∧
        v = ⟨.inputNotBlockAligned, BitVec.ofNat 32 s.len, BitVec.ofNat 32 s.eng.wsel.block⟩) := by
  unfold transformCheck at h
  split at h
  · exact .inl ⟨‹_›, by cases h; rfl⟩
  · have : s.eng.state = .ready := by
      cases h : s.eng.state
      · exact absurd h ‹_›
      · rfl
    split at h
    · exact .inr ⟨this, ‹_›, by cases h; rfl⟩
    · cases h

/-! ### How a command ends -/

/-- Raising a status: the response is the verdict's, and nothing else is written (R210). -/
theorem raise_failsWith (v : Verdict) (s : State) :
    FailsWith v.status v.info0.toNat v.info1.toNat s (raise v s) :=
  ⟨⟨rfl, rfl, rfl, rfl, rfl, rfl, rfl, rfl⟩, ⟨rfl, rfl⟩, rfl, rfl, rfl, rfl, rfl, rfl⟩

/-- Responding OK with a buffer that a 32-bit length can state (R16, R78). -/
theorem respond_delivers (bytes : List Byte) (s u : State) (h : bytes.length < 2 ^ 32)
    (hu : u.port.inbox = s.port.inbox) (ho : u.port.outbox = s.port.outbox) :
    Delivers .ok 0 0 bytes s (respond bytes u) := by
  refine ⟨rfl, rfl, rfl, ?_, rfl, ?_, hu, rfl⟩
  · show (BitVec.ofNat 32 bytes.length).toNat = bytes.length
    rw [BitVec.toNat_ofNat, Nat.mod_eq_of_lt h]
  · show u.port.outbox ++ _ = s.port.outbox ++ _
    rw [ho]
    rfl

/-! ### The three procedures -/

/-- KEY fails a check, or stores the payload and ends OK (R122). -/
theorem execKey_cases {s t : State} (h : execKey s = .next t) :
    (∃ v, keyCheck s = some v ∧ t = raise v s) ∨ (keyCheck s = none ∧ t = respond [] (storeKey s)) := by
  unfold execKey at h
  split at h
  · exact .inl ⟨_, ‹_›, by cases h; rfl⟩
  · exact .inr ⟨‹_›, by cases h; rfl⟩

theorem execKey_fails {s : State} {v : Verdict} (h : keyCheck s = some v) : execKey s = .next (raise v s) := by
  simp only [execKey, h]

theorem execKey_succeeds {s : State} (h : keyCheck s = none) : execKey s = .next (respond [] (storeKey s)) := by
  simp only [execKey, h]

theorem execKey_next (s : State) : ∃ t, execKey s = .next t := by
  unfold execKey
  split <;> exact ⟨_, rfl⟩

/-- A SETUP fails a check, or installs the expansion of the key's bytes and ends OK (R143). -/
theorem setup_cases {W : Width} {r : BitVec 8} {s t : State} (h : setup W r s = .next t) :
    (∃ v, setupCheck W s = some v ∧ t = raise v s) ∨
      ∃ ds, setupCheck W s = none ∧ memReadKeybuf s 0 s.key.klen.toNat = some ds ∧
        t = respond [] (installEngine W r (mixCount (subkeyCount r) (keyWordCount W s)) (expandKey W r ds) s) := by
  unfold setup at h
  split at h
  · exact .inl ⟨_, ‹_›, by cases h; rfl⟩
  · split at h
    · cases h
    · exact .inr ⟨_, ‹_›, ‹_›, by cases h; rfl⟩

theorem setup_fails {W : Width} {r : BitVec 8} {s : State} {v : Verdict} (h : setupCheck W s = some v) :
    setup W r s = .next (raise v s) := by
  simp only [setup, h]

theorem setup_succeeds {W : Width} {r : BitVec 8} {s : State} {ds : List Byte} (h : setupCheck W s = none)
    (hk : memReadKeybuf s 0 s.key.klen.toNat = some ds) :
    setup W r s =
      .next (respond [] (installEngine W r (mixCount (subkeyCount r) (keyWordCount W s)) (expandKey W r ds) s)) := by
  simp only [setup, h, hk]

@[simp] theorem exec_setupInstr (W : Width) (r : BitVec 8) (s : State) : exec (setupInstr W r) s = setup W r s := by
  cases W <;> rfl

/-- A transform fails a check, or ends OK with the image of every block (R171, R179). -/
theorem transform_cases {n : Nat}
    {f : (W : Width) → List Slot → Nat → BitVec W.bits × BitVec W.bits → BitVec W.bits × BitVec W.bits}
    {s t : State} (h : transform n f s = .next t) :
    (∃ v, transformCheck s = some v ∧ t = raise v s) ∨
      (transformCheck s = none ∧ ¬ (0 < s.len ∧ s.eng.S.length < subkeyCount s.eng.rounds) ∧
        t = respond (bytesOut s.eng.wsel (f s.eng.wsel s.eng.S s.eng.rounds.toNat) s.port.payload)
          (transformScratch s.eng.wsel n
            (blocksOut s.eng.wsel (f s.eng.wsel s.eng.S s.eng.rounds.toNat) s.port.payload) s)) := by
  unfold transform at h
  split at h
  · exact .inl ⟨_, ‹_›, by cases h; rfl⟩
  · split at h
    · cases h
    · exact .inr ⟨‹_›, ‹_›, by cases h; rfl⟩

theorem transform_fails {n : Nat}
    {f : (W : Width) → List Slot → Nat → BitVec W.bits × BitVec W.bits → BitVec W.bits × BitVec W.bits}
    {s : State} {v : Verdict} (h : transformCheck s = some v) : transform n f s = .next (raise v s) := by
  simp only [transform, h]

theorem transform_succeeds {n : Nat}
    {f : (W : Width) → List Slot → Nat → BitVec W.bits × BitVec W.bits → BitVec W.bits × BitVec W.bits}
    {s : State} (h : transformCheck s = none) (hs : ¬ (0 < s.len ∧ s.eng.S.length < subkeyCount s.eng.rounds)) :
    transform n f s =
      .next (respond (bytesOut s.eng.wsel (f s.eng.wsel s.eng.S s.eng.rounds.toNat) s.port.payload)
        (transformScratch s.eng.wsel n
          (blocksOut s.eng.wsel (f s.eng.wsel s.eng.S s.eng.rounds.toNat) s.port.payload) s)) := by
  simp only [transform, h, if_neg hs]

/-- The scratch of a transform touches neither slot, nor `L`, nor the mixing indices, nor the port. -/
theorem transformScratch_frame (W : Width) (n : Nat) (bs : List (BitVec W.bits × BitVec W.bits)) (s : State) :
    let t := transformScratch W n bs s
    t.key = s.key ∧ t.eng = s.eng ∧ t.work.L = s.work.L ∧ t.seq.I = s.seq.I ∧ t.seq.J = s.seq.J ∧ t.seq.K = s.seq.K ∧
      t.seq.phase = s.seq.phase ∧ t.port = s.port ∧ t.resp = s.resp ∧ t.verdict = s.verdict ∧ t.uop = s.uop ∧
      t.dp = s.dp := by
  unfold transformScratch
  split <;> exact ⟨rfl, rfl, rfl, rfl, rfl, rfl, rfl, rfl, rfl, rfl, rfl, rfl⟩

/-! ### Micro-operations -/

/-- The micro-operations (R85). -/
def IsMicro (i : Instr) : Prop :=
  i ∈ [Instr.zero, .pw, .qw, .addw, .subw, .xorw, .rotl, .rotr, .modw, .lepack, .leunpack, .rdw, .rdb, .mixs, .mixl, .ehr,
    .dhr]

/-- What no micro-operation touches, and the lengths of the two arrays. -/
theorem exec_micro_frame {i : Instr} (hi : IsMicro i) {s t : State} (h : exec i s = .next t) :
    t.key = s.key ∧ t.seq = s.seq ∧ t.resp = s.resp ∧ t.port = s.port ∧ t.verdict = s.verdict ∧ t.uop = s.uop ∧
      t.eng.state = s.eng.state ∧ t.eng.wsel = s.eng.wsel ∧ t.eng.rounds = s.eng.rounds ∧
      t.eng.S.length = s.eng.S.length ∧ t.work.L.length = s.work.L.length := by
  simp only [IsMicro, List.mem_cons, List.not_mem_nil, or_false] at hi
  rcases hi with rfl | rfl | rfl | rfl | rfl | rfl | rfl | rfl | rfl | rfl | rfl | rfl | rfl | rfl | rfl | rfl | rfl
  all_goals
    simp only [exec, execZero, execPw, execQw, execAddw, execSubw, execXorw, execRotl, execRotr, execModw, execLepack,
      execLeunpack, execRdw, execRdb, execMixs, execMixl, execEhr, execDhr] at h
    first
      | (cases h; exact ⟨rfl, rfl, rfl, rfl, rfl, rfl, rfl, rfl, rfl, rfl, rfl⟩)
      | (split at h <;> cases h; simp)

/-- RDW with its bytes at hand. -/
theorem execRdw_eq {s : State} {ds : List Byte}
    (h : memReadKeybuf s (s.seq.J * s.width.bytes) s.width.bytes = some ds) :
    execRdw s = .next (s.setRes (lePack s.width.bits ds)) := by
  simp only [execRdw, h]

theorem memReadPayload_eq {s : State} {a n : Nat} (h : a + n ≤ s.len) :
    memReadPayload s a n = some ((s.port.payload.drop a).take n) := if_pos h

/-- RDB with its block inside the payload. -/
theorem execRdb_eq {s : State} (h : s.seq.BLK * s.width.block + s.width.block ≤ s.len) :
    execRdb s = .next
      { s with
        work :=
          { s.work with
            A := ofWord (lePack s.width.bits ((s.port.payload.drop (s.seq.BLK * s.width.block)).take s.width.bytes))
            B := ofWord (lePack s.width.bits
              ((s.port.payload.drop (s.seq.BLK * s.width.block + s.width.bytes)).take s.width.bytes)) } } := by
  have hb : s.width.block = 2 * s.width.bytes := rfl
  simp only [execRdb, memReadPayload_eq (s := s) (a := s.seq.BLK * s.width.block) (n := s.width.bytes) (by omega),
    memReadPayload_eq (s := s) (a := s.seq.BLK * s.width.block + s.width.bytes) (n := s.width.bytes) (by omega)]

/-- MIXS with its subkey at hand. -/
theorem execMixs_eq {s : State} {si : Slot} (h : s.eng.S[s.seq.I]? = some si) :
    execMixs s = .next
      { s with
        work := { s.work with A := ofWord (mixSWord (toWord s.width.bits si) s.regA s.regB) }
        eng :=
          { s.eng with S := s.eng.S.set s.seq.I (ofWord (mixSWord (toWord s.width.bits si) s.regA s.regB)) } } := by
  have h' : s.subkey? s.seq.I = some si := h
  simp only [execMixs, h']

/-- MIXL with its key word at hand. -/
theorem execMixl_eq {s : State} {lj : Slot} (h : s.work.L[s.seq.J]? = some lj) :
    execMixl s = .next
      { s with
        work :=
          { s.work with
            B := ofWord (mixLWord (toWord s.width.bits lj) s.regA s.regB)
            L := s.work.L.set s.seq.J (ofWord (mixLWord (toWord s.width.bits lj) s.regA s.regB)) } } := by
  have h' : s.keyWord? s.seq.J = some lj := h
  simp only [execMixl, h']

/-! ### The step -/

theorem step_select {s : State} {uop : BitVec 5} (h : s.uop = some uop) : step s = runSelect uop s := by
  simp only [step, fetchStep, h]

theorem step_idle {s : State} (h : Idle s) : step s = idleStep s := by
  simp only [step, fetchStep, h.1, if_pos h.2]

theorem step_busy {s : State} (hu : s.uop = none) (h : s.seq.phase ≠ .idle) : step s = busyStep s := by
  simp only [step, fetchStep, hu, if_neg h]

theorem step_reset {s : State} {rest : List PortEvent} (hu : s.uop = none) (h : s.port.inbox = .reset :: rest) :
    step s = .next (s.afterReset rest) := by
  by_cases hp : s.seq.phase = .idle
  · rw [step_idle ⟨hu, hp⟩, idleStep, h]
  · rw [step_busy hu hp, busyStep, h]

theorem framed_fits {payload : List Byte} (h : payload.length < 2 ^ 32) (f : Out) : framed payload f = f := if_pos h

theorem framed_tooLong {payload : List Byte} (h : ¬ payload.length < 2 ^ 32) (f : Out) :
    framed payload f = .refused .payloadTooLong := if_neg h

/-- A packet offered to an idle machine is run, or refused if no packet can express it. -/
theorem step_offer_framed {s : State} (h : Idle s) (cw : BitVec 16) (payload : List Byte) :
    step (s.offer cw payload) = framed payload (runCommand (s.accept cw payload s.port.inbox)) := by
  rw [step_idle (s := s.offer cw payload) h]
  rfl

theorem step_offer {s : State} (h : Idle s) (cw : BitVec 16) (payload : List Byte) (hl : payload.length < 2 ^ 32) :
    step (s.offer cw payload) = runCommand (s.accept cw payload s.port.inbox) := by
  rw [step_offer_framed h, framed_fits hl]

/-- A step that answers next took a payload that a packet can express. -/
theorem step_offer_next {s t : State} (h : Idle s) {cw : BitVec 16} {payload : List Byte}
    (hn : step (s.offer cw payload) = .next t) :
    payload.length < 2 ^ 32 ∧ runCommand (s.accept cw payload s.port.inbox) = .next t := by
  rw [step_offer_framed h] at hn
  by_cases hl : payload.length < 2 ^ 32
  · exact ⟨hl, by rw [framed_fits hl] at hn; exact hn⟩
  · rw [framed_tooLong hl] at hn
    cases hn

theorem runCommand_error {s : State} {e : DecodeError} (h : decodeCommand s.port.cw s.len = .error e) :
    runCommand s = .next (raise illegalVerdict s) := by
  simp only [runCommand, h]

theorem runCommand_ok {s : State} {i : Instr} (h : decodeCommand s.port.cw s.len = .ok i) : runCommand s = exec i s := by
  simp only [runCommand, h]

theorem runCommand_accept_ok {s : State} {cw : BitVec 16} {payload : List Byte} {rest : List PortEvent} {i : Instr}
    (h : decodeCommand cw payload.length = .ok i) :
    runCommand (s.accept cw payload rest) = exec i (s.accept cw payload rest) := runCommand_ok h

theorem runCommand_accept_error {s : State} {cw : BitVec 16} {payload : List Byte} {rest : List PortEvent}
    {e : DecodeError} (h : decodeCommand cw payload.length = .error e) :
    runCommand (s.accept cw payload rest) = .next (raise illegalVerdict (s.accept cw payload rest)) := runCommand_error h

/-- A command that runs is illegal, or one of the seven with its meaning (R77). -/
theorem runCommand_cases {s t : State} (h : runCommand s = .next t) :
    (∃ e, decodeCommand s.port.cw s.len = .error e ∧ t = raise illegalVerdict s) ∨
      ∃ i, decodeCommand s.port.cw s.len = .ok i ∧ exec i s = .next t := by
  unfold runCommand at h
  split at h
  · exact .inl ⟨_, ‹_›, by cases h; rfl⟩
  · exact .inr ⟨_, ‹_›, h⟩

/-- The seven instructions that decode from a command word. -/
theorem decodeCommand_instr {cw : BitVec 16} {len : Nat} {i : Instr} (h : decodeCommand cw len = .ok i) :
    i = .key ∨ i = .encode ∨ i = .decode ∨ ∃ W r, i = setupInstr W r := by
  rcases decodeCommand_ok h with h | h | h | ⟨W, r, h, _⟩
  · exact .inl h.1
  · exact .inr (.inl h.1)
  · exact .inr (.inr (.inl h.1))
  · exact .inr (.inr (.inr ⟨W, r, h⟩))

/-- What a command can do at all: it raises a verdict, stores a key, installs an engine, or answers a transform. -/
theorem runCommand_effects {s t : State} (h : runCommand s = .next t) :
    (∃ v, t = raise v s ∧ v.status ≠ .ok) ∨
      (decodeCommand s.port.cw s.len = .ok .key ∧ keyCheck s = none ∧ t = respond [] (storeKey s)) ∨
      (∃ W r ds, decodeCommand s.port.cw s.len = .ok (setupInstr W r) ∧ setupCheck W s = none ∧
        memReadKeybuf s 0 s.key.klen.toNat = some ds ∧
        t = respond [] (installEngine W r (mixCount (subkeyCount r) (keyWordCount W s)) (expandKey W r ds) s)) ∨
      ∃ i n f, (i = .encode ∨ i = .decode) ∧ decodeCommand s.port.cw s.len = .ok i ∧ transformCheck s = none ∧
        t = respond (bytesOut s.eng.wsel f s.port.payload)
          (transformScratch s.eng.wsel n (blocksOut s.eng.wsel f s.port.payload) s) := by
  rcases runCommand_cases h with ⟨e, _, ht⟩ | ⟨i, hd, hx⟩
  · exact .inl ⟨_, ht, by decide⟩
  · rcases decodeCommand_instr hd with rfl | rfl | rfl | ⟨W, r, rfl⟩
    · rcases execKey_cases hx with ⟨v, hv, ht⟩ | ⟨hv, ht⟩
      · exact .inl ⟨v, ht, by rw [(keyCheck_some hv).2]; simp⟩
      · exact .inr (.inl ⟨hd, hv, ht⟩)
    · rcases transform_cases hx with ⟨v, hv, ht⟩ | ⟨hv, _, ht⟩
      · refine .inl ⟨v, ht, ?_⟩
        rcases transformCheck_some hv with ⟨_, rfl⟩ | ⟨_, _, rfl⟩ <;> simp
      · exact .inr (.inr (.inr ⟨.encode, _, _, .inl rfl, hd, hv, ht⟩))
    · rcases transform_cases hx with ⟨v, hv, ht⟩ | ⟨hv, _, ht⟩
      · refine .inl ⟨v, ht, ?_⟩
        rcases transformCheck_some hv with ⟨_, rfl⟩ | ⟨_, _, rfl⟩ <;> simp
      · exact .inr (.inr (.inr ⟨.decode, _, _, .inr rfl, hd, hv, ht⟩))
    · rw [exec_setupInstr] at hx
      rcases setup_cases hx with ⟨v, hv, ht⟩ | ⟨ds, hv, hk, ht⟩
      · refine .inl ⟨v, ht, ?_⟩
        rcases setupCheck_some hv with ⟨_, rfl⟩ | ⟨_, _, rfl⟩ <;> simp
      · exact .inr (.inr (.inl ⟨W, r, ds, hd, hv, hk, ht⟩))

/-- Every command ends in IDLE, and leaves the select code alone (R212). -/
theorem runCommand_idle {s t : State} (h : runCommand s = .next t) : t.seq.phase = .idle ∧ t.uop = s.uop := by
  rcases runCommand_effects h with ⟨_, rfl, _⟩ | ⟨_, _, rfl⟩ | ⟨_, _, _, _, _, _, rfl⟩ | ⟨_, n, f, _, _, _, rfl⟩
  · exact ⟨rfl, rfl⟩
  · exact ⟨rfl, rfl⟩
  · exact ⟨rfl, rfl⟩
  · obtain ⟨_, _, _, _, _, _, _, _, _, _, hu, _⟩ :=
      transformScratch_frame s.eng.wsel n (blocksOut s.eng.wsel f s.port.payload) s
    exact ⟨rfl, hu⟩

end Sys2Proof.Machine
end

