-- ==== Sys2Proof/Laws/Memory.lean ====
section
/-! SUPPORT. The byte space: a read after a write, every other byte kept, the canonical form kept by every operation. -/

namespace Sys2Proof.Machine

@[simp] theorem Memory.read_nil (a : Nat) : Memory.read [] a = none := rfl

@[simp] theorem Memory.read_cons (k : Nat) (v : Byte) (m : Memory) (a : Nat) :
    Memory.read ((k, v) :: m) a = if k = a then some v else Memory.read m a := rfl

/-- A read after a write to the same offset. -/
@[simp] theorem Memory.read_write_same (m : Memory) (a : Nat) (b : Byte) : Memory.read (Memory.write m a b) a = some b := by
  induction m with
  | nil => simp [Memory.write]
  | cons c m ih =>
    obtain ⟨k, v⟩ := c
    unfold Memory.write
    split
    · simp
    · split
      · simp
      · rw [Memory.read_cons, if_neg (by omega), ih]

/-- A write leaves every other offset alone. -/
theorem Memory.read_write_other (m : Memory) (a a' : Nat) (b : Byte) (h : a' ≠ a) :
    Memory.read (Memory.write m a b) a' = Memory.read m a' := by
  induction m with
  | nil => simp [Memory.write, Ne.symm h]
  | cons c m ih =>
    obtain ⟨k, v⟩ := c
    unfold Memory.write
    split
    · simp [Ne.symm h]
    · split
      · subst_vars; simp [Ne.symm h]
      · simp [ih]

theorem Memory.mem_keys_write (m : Memory) (a : Nat) (b : Byte) (k : Nat)
    (h : k ∈ (Memory.write m a b).map Prod.fst) : k = a ∨ k ∈ m.map Prod.fst := by
  induction m with
  | nil => simpa [Memory.write] using h
  | cons c m ih =>
    obtain ⟨k', v⟩ := c
    unfold Memory.write at h
    split at h
    · simpa using h
    · split at h
      · subst_vars; simp at h ⊢; omega
      · simp only [List.map_cons, List.mem_cons] at h ⊢
        rcases h with h | h
        · exact Or.inr (Or.inl h)
        · rcases ih h with h | h
          · exact Or.inl h
          · exact Or.inr (Or.inr h)

/-- A write keeps the canonical form. -/
theorem Memory.write_wf (m : Memory) (a : Nat) (b : Byte) (h : Memory.wf m) : Memory.wf (Memory.write m a b) := by
  induction m with
  | nil => simp [Memory.write, Memory.wf]
  | cons c m ih =>
    obtain ⟨k, v⟩ := c
    simp only [Memory.wf, List.map_cons, List.pairwise_cons] at h
    unfold Memory.write
    split
    · simp only [Memory.wf, List.map_cons, List.pairwise_cons, List.mem_cons]
      refine ⟨?_, h⟩
      rintro x (rfl | hx)
      · assumption
      · have := h.1 x hx
        omega
    · split
      · subst_vars
        simpa [Memory.wf, List.pairwise_cons] using h
      · simp only [Memory.wf, List.map_cons, List.pairwise_cons]
        refine ⟨?_, ih h.2⟩
        intro x hx
        rcases Memory.mem_keys_write m a b x hx with rfl | hx
        · omega
        · exact h.1 x hx

/-- Writing bytes keeps the canonical form. -/
theorem Memory.writeBytes_wf (m : Memory) (a : Nat) (bs : List Byte) (h : Memory.wf m) :
    Memory.wf (Memory.writeBytes m a bs) := by
  induction bs generalizing m a with
  | nil => exact h
  | cons b bs ih => exact ih _ _ (Memory.write_wf _ _ _ h)

/-- An offset below the bytes written reads as before. -/
theorem Memory.read_writeBytes_below (m : Memory) (a : Nat) (bs : List Byte) (a' : Nat) (h : a' < a) :
    Memory.read (Memory.writeBytes m a bs) a' = Memory.read m a' := by
  induction bs generalizing m a with
  | nil => rfl
  | cons b bs ih =>
    rw [Memory.writeBytes, ih _ _ (by omega), Memory.read_write_other _ _ _ _ (by omega)]

/-- An offset above the bytes written reads as before. -/
theorem Memory.read_writeBytes_above (m : Memory) (a : Nat) (bs : List Byte) (a' : Nat) (h : a + bs.length ≤ a') :
    Memory.read (Memory.writeBytes m a bs) a' = Memory.read m a' := by
  induction bs generalizing m a with
  | nil => rfl
  | cons b bs ih =>
    simp only [List.length_cons] at h
    rw [Memory.writeBytes, ih _ _ (by omega), Memory.read_write_other _ _ _ _ (by omega)]

/-- The bytes written are read back. -/
theorem Memory.read_writeBytes (m : Memory) (a : Nat) (bs : List Byte) (k : Nat) (h : k < bs.length) :
    Memory.read (Memory.writeBytes m a bs) (a + k) = bs[k]? := by
  induction bs generalizing m a k with
  | nil => simp at h
  | cons b bs ih =>
    cases k with
    | zero => simp [Memory.writeBytes, Memory.read_writeBytes_below]
    | succ k =>
      simp only [List.length_cons] at h
      rw [Memory.writeBytes, show a + (k + 1) = a + 1 + k by omega, ih _ _ _ (by omega)]
      simp

/-- Writing at or beyond the end of a canonical space appends. -/
theorem Memory.write_append (m : Memory) (a : Nat) (b : Byte) (h : ∀ k ∈ m.map Prod.fst, k < a) :
    Memory.write m a b = m ++ [(a, b)] := by
  induction m with
  | nil => rfl
  | cons c m ih =>
    obtain ⟨k, v⟩ := c
    simp only [List.map_cons, List.mem_cons, forall_eq_or_imp] at h
    have hk : k < a := h.1
    rw [Memory.write, if_neg (by omega), if_neg (by omega), ih h.2]
    rfl

theorem Memory.writeBytes_keys (m : Memory) (a : Nat) (bs : List Byte) (h : ∀ k ∈ m.map Prod.fst, k < a) :
    (Memory.writeBytes m a bs).map Prod.fst = m.map Prod.fst ++ (List.range' a bs.length) := by
  induction bs generalizing m a with
  | nil => simp [Memory.writeBytes]
  | cons b bs ih =>
    rw [Memory.writeBytes, Memory.write_append m a b h, ih]
    · simp [List.range'_succ]
    · intro k hk
      simp only [List.map_append, List.mem_append, List.map_cons, List.map_nil, List.mem_singleton] at hk
      rcases hk with hk | rfl
      · have := h k hk
        omega
      · omega

/-- Exactly the offsets written from the empty space hold a value (R25). -/
theorem Memory.writeBytes_nil_keys (bs : List Byte) :
    (Memory.writeBytes [] 0 bs).map Prod.fst = List.range bs.length := by
  rw [Memory.writeBytes_keys [] 0 bs (by simp)]
  simp [List.range_eq_range']

/-- An offset that is listed is one that reads as a value. -/
theorem Memory.read_isSome_iff (m : Memory) (a : Nat) : (Memory.read m a).isSome ↔ a ∈ m.map Prod.fst := by
  induction m with
  | nil => simp
  | cons c m ih =>
    obtain ⟨k, v⟩ := c
    rw [Memory.read_cons]
    by_cases h : k = a
    · simp [h]
    · simp only [h, if_false, ih, List.map_cons, List.mem_cons]
      constructor
      · exact Or.inr
      · rintro (h' | h')
        · exact absurd h'.symm h
        · exact h'

/-- What a read of `n` bytes answers: each of them. -/
theorem Memory.readBytes_eq_some_iff (m : Memory) (a n : Nat) (ds : List Byte) :
    Memory.readBytes m a n = some ds ↔ ds.length = n ∧ ∀ k, k < n → Memory.read m (a + k) = ds[k]? := by
  induction n generalizing a ds with
  | zero =>
    simp only [Memory.readBytes, Option.some.injEq, Nat.not_lt_zero, false_imp_iff, implies_true, and_true]
    constructor
    · rintro rfl; rfl
    · intro h; exact (List.eq_nil_of_length_eq_zero h).symm
  | succ n ih =>
    unfold Memory.readBytes
    constructor
    · intro h
      split at h
      · rename_i b bs hb hbs
        cases h
        obtain ⟨hl, hk⟩ := (ih _ _).1 hbs
        refine ⟨by simp [hl], ?_⟩
        intro k hkn
        cases k with
        | zero => simpa using hb
        | succ k =>
          have := hk k (by omega)
          rw [show a + (k + 1) = a + 1 + k by omega, this]
          simp
      · cases h
    · rintro ⟨hl, hk⟩
      cases ds with
      | nil => simp at hl
      | cons b bs =>
        have h0 := hk 0 (by omega)
        have hbs : Memory.readBytes m (a + 1) n = some bs := by
          refine (ih _ _).2 ⟨by simpa using hl, ?_⟩
          intro k hkn
          have := hk (k + 1) (by omega)
          rw [show a + 1 + k = a + (k + 1) by omega, this]
          simp
        simp only [Nat.add_zero, List.getElem?_cons_zero] at h0
        rw [h0, hbs]

/-- A read of bytes that all hold a value answers. -/
theorem Memory.readBytes_isSome (m : Memory) (a n : Nat) (h : ∀ k, k < n → (Memory.read m (a + k)).isSome) :
    ∃ ds, Memory.readBytes m a n = some ds := by
  induction n generalizing a with
  | zero => exact ⟨[], rfl⟩
  | succ n ih =>
    obtain ⟨ds, hds⟩ := ih (a + 1) (fun k hk => by rw [show a + 1 + k = a + (k + 1) by omega]; exact h (k + 1) (by omega))
    obtain ⟨b, hb⟩ := Option.isSome_iff_exists.1 (h 0 (by omega))
    refine ⟨b :: ds, ?_⟩
    simp only [Nat.add_zero] at hb
    rw [Memory.readBytes, hb, hds]

end Sys2Proof.Machine
end

