-- ==== Sys2Proof/Laws/Expansion.lean ====
section
/-! SUPPORT. Key expansion: the readers' words, the progression, and the mixing loop, iteration by iteration. -/

namespace Sys2Proof.Machine

/-! ### The key words and the progression -/

@[simp] theorem readWords_length (W : Width) (n : Nat) (ds : List Byte) : (readWords W n ds).length = n := by
  induction n generalizing ds with
  | zero => rfl
  | succ n ih => simp [readWords, ih]

/-- Word `j` of a buffer is packed from its own `u` bytes (R126). -/
theorem readWords_getElem? (W : Width) (n : Nat) (ds : List Byte) (j : Nat) (h : j < n) :
    (readWords W n ds)[j]? = some (lePack W.bits ((ds.drop (j * W.bytes)).take W.bytes)) := by
  induction n generalizing ds j with
  | zero => omega
  | succ n ih =>
    cases j with
    | zero => simp [readWords]
    | succ j =>
      rw [readWords, List.getElem?_cons_succ, ih _ _ (by omega), List.drop_drop]
      rw [show W.bytes + j * W.bytes = (j + 1) * W.bytes by rw [Nat.succ_mul]; omega]

@[simp] theorem subkeysFrom_length (W : Width) (x : BitVec W.bits) (n : Nat) : (subkeysFrom W x n).length = n := by
  induction n generalizing x with
  | zero => rfl
  | succ n ih => simp [subkeysFrom, ih]

/-- Entry `i` of the progression is `x + i·Q_w` modulo `2^w` (R145). -/
theorem subkeysFrom_getElem? (W : Width) (x : BitVec W.bits) (n i : Nat) (h : i < n) :
    ∃ v, (subkeysFrom W x n)[i]? = some v ∧ v.toNat = (x.toNat + i * (qWord W).toNat) % 2 ^ W.bits := by
  induction n generalizing x i with
  | zero => omega
  | succ n ih =>
    cases i with
    | zero => exact ⟨x, rfl, by rw [Nat.zero_mul, Nat.add_zero, Nat.mod_eq_of_lt x.isLt]⟩
    | succ i =>
      obtain ⟨v, hv, hn⟩ := ih (addWord x (qWord W)) i (by omega)
      refine ⟨v, hv, ?_⟩
      rw [hn, addWord_toNat, Nat.mod_add_mod, Nat.succ_mul]
      congr 1
      omega

/-! ### The loop -/

/-- One more iteration is one more at the end. -/
theorem mixLoop_succ {w : Nat} (t c n : Nat) (m : Mix w) : mixLoop t c (n + 1) m = mixOnce t c (mixLoop t c n m) := by
  induction n generalizing m with
  | zero => rfl
  | succ n ih => exact ih (mixOnce t c m)

/-- The loop keeps the lengths of both arrays, and its indices count the iterations (R148, R149). -/
theorem mixLoop_shape {w : Nat} (t c : Nat) (m : Mix w) (hI : m.I = 0) (hJ : m.J = 0) (n : Nat) :
    (mixLoop t c n m).S.length = m.S.length ∧ (mixLoop t c n m).L.length = m.L.length ∧
      (mixLoop t c n m).I = n % t ∧ (mixLoop t c n m).J = n % c := by
  induction n with
  | zero => exact ⟨rfl, rfl, by rw [Nat.zero_mod]; exact hI, by rw [Nat.zero_mod]; exact hJ⟩
  | succ n ih =>
    obtain ⟨hS, hL, hi, hj⟩ := ih
    rw [mixLoop_succ]
    refine ⟨?_, ?_, ?_, ?_⟩
    · simp [mixOnce, hS]
    · simp [mixOnce, hL]
    · show ((mixLoop t c n m).I + 1) % t = _
      rw [hi, Nat.mod_add_mod]
    · show ((mixLoop t c n m).J + 1) % c = _
      rw [hj, Nat.mod_add_mod]

/-- An entry set is a function updated, inside the array. -/
theorem getD_set {α : Type} (l : List α) (i : Nat) (a d : α) (h : i < l.length) :
    (fun k => (l.set i a).getD k d) = Function.update (fun k => l.getD k d) i a := by
  funext k
  simp only [List.getD_eq_getElem?_getD, List.getElem?_set]
  by_cases hk : k = i
  · subst hk
    simp [h]
  · simp [Function.update_of_ne hk, Ne.symm hk]

@[simp] theorem mixStart_S_length (W : Width) (t c : Nat) (ds : List Byte) : (mixStart W t c ds).S.length = t :=
  subkeysFrom_length _ _ _

@[simp] theorem mixStart_L_length (W : Width) (t c : Nat) (ds : List Byte) : (mixStart W t c ds).L.length = c :=
  readWords_length _ _ _

theorem subkeyCount_pos (r : BitVec 8) : 0 < subkeyCount r := by
  unfold subkeyCount
  omega

/-- A key expansion leaves exactly `t` subkeys (R23). -/
@[simp] theorem expandKey_S_length (W : Width) (r : BitVec 8) (ds : List Byte) :
    (expandKey W r ds).S.length = subkeyCount r := by
  rw [expandKey, (mixLoop_shape _ _ _ rfl rfl _).1, mixStart_S_length]

/-- The mixing loop as sequences of values: what one iteration does to each (R148, R150, R151). -/
theorem mixLoop_step (W : Width) (t c : Nat) (ds : List Byte) (ht : 0 < t) (hc : 0 < c) (n : Nat) :
    let m := fun k => mixLoop t c k (mixStart W t c ds)
    (m (n + 1)).A = ((m n).S.getD (n % t) 0 + (m n).A + (m n).B).rotateLeft 3 ∧
    (m (n + 1)).B =
      ((m n).L.getD (n % c) 0 + (m (n + 1)).A + (m n).B).rotateLeft (((m (n + 1)).A + (m n).B).toNat % W.bits) ∧
    (fun i => (m (n + 1)).S.getD i 0) = Function.update (fun i => (m n).S.getD i 0) (n % t) (m (n + 1)).A ∧
    (fun j => (m (n + 1)).L.getD j 0) = Function.update (fun j => (m n).L.getD j 0) (n % c) (m (n + 1)).B := by
  intro m
  obtain ⟨hS, hL, hI, hJ⟩ := mixLoop_shape t c (mixStart W t c ds) rfl rfl n
  rw [mixStart_S_length] at hS
  rw [mixStart_L_length] at hL
  have hm : m (n + 1) = mixOnce t c (m n) := mixLoop_succ _ _ _ _
  have hI' : (m n).I = n % t := hI
  have hJ' : (m n).J = n % c := hJ
  have hA : (m (n + 1)).A = ((m n).S.getD (n % t) 0 + (m n).A + (m n).B).rotateLeft 3 := by
    rw [hm, mixOnce, hI']
    simp only [mixSWord, rotlWord_eq_rotateLeft]
    rfl
  have hB : (m (n + 1)).B =
      ((m n).L.getD (n % c) 0 + (m (n + 1)).A + (m n).B).rotateLeft (((m (n + 1)).A + (m n).B).toNat % W.bits) := by
    rw [hm, mixOnce, hI', hJ']
    simp only [mixLWord, rotlWord_eq_rotateLeft]
    rfl
  refine ⟨hA, hB, ?_, ?_⟩
  · rw [← getD_set _ _ _ _ (by rw [hS]; exact Nat.mod_lt _ ht), hm, mixOnce, hI']
  · rw [← getD_set _ _ _ _ (by rw [hL]; exact Nat.mod_lt _ hc), hm, mixOnce, hJ']

end Sys2Proof.Machine
end

