-- ==== Sys2Proof/Laws/Sequencer.lean ====
section
/-! SUPPORT. The sequencer: what any micro-instruction and any visit leaves alone, and what the visit of each phase does. -/

namespace Sys2Proof.Machine

/-! ### Programs -/

@[simp] theorem runProgram_nil (s : State) : runProgram [] s = .next s := rfl

theorem runProgram_cons {m : Micro} {ms : List Micro} {s u : State} (h : drive m s = .next u) :
    runProgram (m :: ms) s = runProgram ms u := by
  rw [runProgram, h, andThen_next]

theorem runProgram_append {ms ms' : List Micro} {s u : State} (h : runProgram ms s = .next u) :
    runProgram (ms ++ ms') s = runProgram ms' u := by
  induction ms generalizing s with
  | nil => cases h; rfl
  | cons m ms ih =>
    obtain ⟨v, hv, hr⟩ := andThen_eq_next.1 h
    rw [List.cons_append, runProgram_cons hv]
    exact ih hr

/-- Every micro-instruction of every phase drives a micro-operation. -/
theorem program_micro (s : State) : ∀ m ∈ program s, IsMicro m.uop := by
  intro m hm
  unfold program at hm
  split at hm
  all_goals
    simp only [List.mem_map, List.mem_append, List.mem_cons, List.mem_replicate, List.not_mem_nil, or_false] at hm <;>
    first
      | (rcases hm with ((rfl | rfl) | ⟨_, rfl⟩) | (rfl | rfl) <;> simp [IsMicro])
      | (obtain ⟨_, _, rfl⟩ := hm; simp [IsMicro])

/-! ### What a micro-instruction leaves alone -/

/-- The parts of the state that no micro-instruction touches: the key slot, the command in progress and the port, the verdict, the
select code, the engine's valid bit, width and round count, and every counter but `J`. -/
structure SameFrame (s t : State) : Prop where
  key : t.key = s.key
  port : t.port = s.port
  verdict : t.verdict = s.verdict
  uop : t.uop = s.uop
  state : t.eng.state = s.eng.state
  wsel : t.eng.wsel = s.eng.wsel
  rounds : t.eng.rounds = s.eng.rounds
  phase : t.seq.phase = s.seq.phase
  status : t.resp.status = s.resp.status

theorem SameFrame.refl (s : State) : SameFrame s s := ⟨rfl, rfl, rfl, rfl, rfl, rfl, rfl, rfl, rfl⟩

theorem SameFrame.trans {s t u : State} (h : SameFrame s t) (h' : SameFrame t u) : SameFrame s u :=
  ⟨h'.key.trans h.key, h'.port.trans h.port, h'.verdict.trans h.verdict, h'.uop.trans h.uop, h'.state.trans h.state,
    h'.wsel.trans h.wsel, h'.rounds.trans h.rounds, h'.phase.trans h.phase, h'.status.trans h.status⟩

/-- The width in use depends on the command word and the engine's width alone (R21). -/
theorem SameFrame.width {s t : State} (h : SameFrame s t) : t.width = s.width := by
  simp only [State.width, h.port, h.wsel]

theorem applyRoute_frame {r : Route} {s t : State} (h : applyRoute r s = .next t) : SameFrame s t := by
  cases r <;> simp only [applyRoute, withSubkey] at h
  all_goals
    first
      | (cases h; exact ⟨rfl, rfl, rfl, rfl, rfl, rfl, rfl, rfl, rfl⟩)
      | (split at h <;> cases h; exact ⟨rfl, rfl, rfl, rfl, rfl, rfl, rfl, rfl, rfl⟩)

theorem applyDest_frame (d : Dest) (s : State) : SameFrame s (applyDest d s) := by
  cases d <;> exact ⟨rfl, rfl, rfl, rfl, rfl, rfl, rfl, rfl, rfl⟩

theorem drive_frame {m : Micro} (hm : IsMicro m.uop) {s t : State} (h : drive m s = .next t) : SameFrame s t := by
  obtain ⟨u, hu, h⟩ := andThen_eq_next.1 h
  obtain ⟨v, hv, h⟩ := andThen_eq_next.1 h
  obtain ⟨h1, h2, h3, h4, h5, h6, h7, h8, h9, _⟩ := exec_micro_frame hm hv
  have hx : SameFrame u v := ⟨h1, h4, h5, h6, h7, h8, h9, by rw [h2], by rw [h3]⟩
  cases h
  exact (applyRoute_frame hu).trans (hx.trans (applyDest_frame _ _))

theorem runProgram_frame {ms : List Micro} (hm : ∀ m ∈ ms, IsMicro m.uop) {s t : State} (h : runProgram ms s = .next t) :
    SameFrame s t := by
  induction ms generalizing s with
  | nil => cases h; exact SameFrame.refl _
  | cons m ms ih =>
    obtain ⟨v, hv, hr⟩ := andThen_eq_next.1 h
    exact (drive_frame (hm m (by simp)) hv).trans (ih (fun x hx => hm x (by simp [hx])) hr)

/-- The steps after the micro-operations touch neither the key slot, the port, the verdict, the select code nor the status. -/
theorem advance_frame (s : State) :
    (advance s).key = s.key ∧ (advance s).port = s.port ∧ (advance s).verdict = s.verdict ∧ (advance s).uop = s.uop ∧
      (advance s).resp = s.resp := by
  unfold advance
  split
  all_goals first | exact ⟨rfl, rfl, rfl, rfl, rfl⟩ | skip
  · unfold advanceMix
    dsimp only
    split <;> exact ⟨rfl, rfl, rfl, rfl, rfl⟩
  · split <;> exact ⟨rfl, rfl, rfl, rfl, rfl⟩

theorem prepare_frame (s : State) :
    (prepare s).key = s.key ∧ (prepare s).port = s.port ∧ (prepare s).verdict = s.verdict ∧ (prepare s).uop = s.uop ∧
      (prepare s).resp = s.resp ∧ (prepare s).seq = s.seq ∧ (prepare s).eng.wsel = s.eng.wsel ∧
      (prepare s).eng.rounds = s.eng.rounds ∧ (prepare s).dp = s.dp := by
  unfold prepare
  split <;> exact ⟨rfl, rfl, rfl, rfl, rfl, rfl, rfl, rfl, rfl⟩

/-- What no visit touches: the select code and what the host has lined up. -/
theorem visit_port {s t : State} (h : visit s = .next t) : t.uop = s.uop ∧ t.port.inbox = s.port.inbox := by
  have data : ∀ {u : State}, dataVisit s = .next u → u.uop = s.uop ∧ u.port.inbox = s.port.inbox := by
    intro u hu
    obtain ⟨v, hv, he⟩ := andThen_eq_next.1 hu
    have hf := runProgram_frame (program_micro _) hv
    cases he
    obtain ⟨_, ha, _, hb, _⟩ := advance_frame v
    obtain ⟨_, hc, _, hd, _⟩ := prepare_frame s
    exact ⟨hb.trans (hf.uop.trans hd), by rw [ha, hf.port, hc]⟩
  unfold visit at h
  split at h
  all_goals first | exact data h | skip
  · cases h; exact ⟨rfl, rfl⟩
  · cases h
    unfold checkVisit
    dsimp only
    split
    · exact ⟨rfl, rfl⟩
    · split
      · exact ⟨rfl, rfl⟩
      · unfold startBlocks
        split <;> exact ⟨rfl, rfl⟩
  · cases h; exact ⟨rfl, rfl⟩
  · cases h; exact ⟨rfl, rfl⟩

/-! ### One micro-instruction of a transform, with its subkey at hand -/

theorem subkey?_of_lt {s : State} {i : Nat} (h : i < s.eng.S.length) : s.subkey? i = some (s.eng.S.getD i 0) := by
  rw [State.subkey?, List.getElem?_eq_getElem h, List.getD_eq_getElem?_getD, List.getElem?_eq_getElem h]
  rfl

theorem drive_aAdd {s : State} {i : Nat} (h : i < s.eng.S.length) :
    ∃ d, drive ⟨.aSubkey i, .addw, .toA⟩ s =
      .next { s with work := { s.work with A := ofWord (addWord s.regA (subkeyWord s.width s.eng.S i)) }, dp := d } := by
  simp only [drive, applyRoute, withSubkey, subkey?_of_lt h, andThen_next]
  exact ⟨_, rfl⟩

theorem drive_bAdd {s : State} {i : Nat} (h : i < s.eng.S.length) :
    ∃ d, drive ⟨.bSubkey i, .addw, .toB⟩ s =
      .next { s with work := { s.work with B := ofWord (addWord s.regB (subkeyWord s.width s.eng.S i)) }, dp := d } := by
  simp only [drive, applyRoute, withSubkey, subkey?_of_lt h, andThen_next]
  exact ⟨_, rfl⟩

theorem drive_aSub {s : State} {i : Nat} (h : i < s.eng.S.length) :
    ∃ d, drive ⟨.aSubkey i, .subw, .toA⟩ s =
      .next { s with work := { s.work with A := ofWord (subWord s.regA (subkeyWord s.width s.eng.S i)) }, dp := d } := by
  simp only [drive, applyRoute, withSubkey, subkey?_of_lt h, andThen_next]
  exact ⟨_, rfl⟩

theorem drive_bSub {s : State} {i : Nat} (h : i < s.eng.S.length) :
    ∃ d, drive ⟨.bSubkey i, .subw, .toB⟩ s =
      .next { s with work := { s.work with B := ofWord (subWord s.regB (subkeyWord s.width s.eng.S i)) }, dp := d } := by
  simp only [drive, applyRoute, withSubkey, subkey?_of_lt h, andThen_next]
  exact ⟨_, rfl⟩

theorem drive_aEhr {s : State} {i : Nat} (h : i < s.eng.S.length) :
    ∃ d, drive ⟨.aHalf i, .ehr, .xToA⟩ s =
      .next
        { s with
          work := { s.work with A := ofWord (ehrWord s.regA s.regB (subkeyWord s.width s.eng.S i)) }, dp := d } := by
  simp only [drive, applyRoute, withSubkey, subkey?_of_lt h, andThen_next]
  exact ⟨_, rfl⟩

theorem drive_bEhr {s : State} {i : Nat} (h : i < s.eng.S.length) :
    ∃ d, drive ⟨.bHalf i, .ehr, .xToB⟩ s =
      .next
        { s with
          work := { s.work with B := ofWord (ehrWord s.regB s.regA (subkeyWord s.width s.eng.S i)) }, dp := d } := by
  simp only [drive, applyRoute, withSubkey, subkey?_of_lt h, andThen_next]
  exact ⟨_, rfl⟩

theorem drive_aDhr {s : State} {i : Nat} (h : i < s.eng.S.length) :
    ∃ d, drive ⟨.aHalf i, .dhr, .xToA⟩ s =
      .next
        { s with
          work := { s.work with A := ofWord (dhrWord s.regA s.regB (subkeyWord s.width s.eng.S i)) }, dp := d } := by
  simp only [drive, applyRoute, withSubkey, subkey?_of_lt h, andThen_next]
  exact ⟨_, rfl⟩

theorem drive_bDhr {s : State} {i : Nat} (h : i < s.eng.S.length) :
    ∃ d, drive ⟨.bHalf i, .dhr, .xToB⟩ s =
      .next
        { s with
          work := { s.work with B := ofWord (dhrWord s.regB s.regA (subkeyWord s.width s.eng.S i)) }, dp := d } := by
  simp only [drive, applyRoute, withSubkey, subkey?_of_lt h, andThen_next]
  exact ⟨_, rfl⟩

/-! ### The visits of a transform -/

/-- The pair of working registers (R21). -/
def State.pair (s : State) : BitVec s.width.bits × BitVec s.width.bits := (s.regA, s.regB)

/-- `s` with a block in the working registers, and the given latches. -/
def State.withPair (s : State) {w : Nat} (p : BitVec w × BitVec w) (d : Datapath) : State :=
  { s with work := { s.work with A := ofWord p.1, B := ofWord p.2 }, dp := d }

@[simp] theorem State.withPair_key (s : State) {w : Nat} (p : BitVec w × BitVec w) (d : Datapath) : (s.withPair p d).key = s.key := rfl
@[simp] theorem State.withPair_eng (s : State) {w : Nat} (p : BitVec w × BitVec w) (d : Datapath) : (s.withPair p d).eng = s.eng := rfl
@[simp] theorem State.withPair_seq (s : State) {w : Nat} (p : BitVec w × BitVec w) (d : Datapath) : (s.withPair p d).seq = s.seq := rfl
@[simp] theorem State.withPair_port (s : State) {w : Nat} (p : BitVec w × BitVec w) (d : Datapath) : (s.withPair p d).port = s.port := rfl
@[simp] theorem State.withPair_resp (s : State) {w : Nat} (p : BitVec w × BitVec w) (d : Datapath) : (s.withPair p d).resp = s.resp := rfl
@[simp] theorem State.withPair_width (s : State) {w : Nat} (p : BitVec w × BitVec w) (d : Datapath) : (s.withPair p d).width = s.width := rfl

theorem visit_data {s : State} (h : visit s = dataVisit s) {t : State}
    (hr : runProgram (program (prepare s)) (prepare s) = .next t) : visit s = .next (advance t) := by
  rw [h, dataVisit, hr, andThen_next]

theorem visit_encPre {s : State} (hp : s.seq.phase = .encPre) (h : 2 ≤ s.eng.S.length) :
    ∃ d, visit s =
      .next
        { s.withPair (addWord s.regA (subkeyWord s.width s.eng.S 0), addWord s.regB (subkeyWord s.width s.eng.S 1)) d with
          seq := { s.seq with RND := 1, phase := if 1 ≤ s.eng.rounds.toNat then .encRound else .blkWrite } } := by
  obtain ⟨d₁, h₁⟩ := drive_aAdd (s := s) (i := 0) (by omega)
  obtain ⟨d₂, h₂⟩ := drive_bAdd
    (s := { s with work := { s.work with A := ofWord (addWord s.regA (subkeyWord s.width s.eng.S 0)) }, dp := d₁ })
    (i := 1) h
  have hprep : prepare s = s := by simp only [prepare, hp]
  refine ⟨d₂, ?_⟩
  rw [visit_data (t := s.withPair (addWord s.regA (subkeyWord s.width s.eng.S 0),
    addWord s.regB (subkeyWord s.width s.eng.S 1)) d₂) (by simp only [visit, hp]) ?_]
  · simp only [advance, State.withPair_seq, hp]
    rfl
  · rw [hprep]
    simp only [program, hp]
    rw [runProgram_cons h₁, runProgram_cons h₂]
    rfl

theorem visit_encRound {s : State} (hp : s.seq.phase = .encRound) (h : 2 * s.seq.RND + 1 < s.eng.S.length) :
    ∃ d, visit s =
      .next
        { s.withPair
            (ehrWord s.regA s.regB (subkeyWord s.width s.eng.S (2 * s.seq.RND)),
              ehrWord s.regB (ehrWord s.regA s.regB (subkeyWord s.width s.eng.S (2 * s.seq.RND)))
                (subkeyWord s.width s.eng.S (2 * s.seq.RND + 1))) d with
          seq :=
            { s.seq with
              RND := s.seq.RND + 1
              phase := if s.seq.RND + 1 ≤ s.eng.rounds.toNat then .encRound else .blkWrite } } := by
  obtain ⟨d₁, h₁⟩ := drive_aEhr (s := s) (i := 2 * s.seq.RND) (by omega)
  generalize ha : ehrWord s.regA s.regB (subkeyWord s.width s.eng.S (2 * s.seq.RND)) = a at h₁ ⊢
  obtain ⟨d₂, h₂⟩ := drive_bEhr
    (s := { s with work := { s.work with A := ofWord a }, dp := d₁ }) (i := 2 * s.seq.RND + 1) h
  have hA : ({ s with work := { s.work with A := ofWord a }, dp := d₁ } : State).regA = a := toWord_ofWord s.width a
  rw [hA] at h₂
  have hprep : prepare s = s := by simp only [prepare, hp]
  refine ⟨d₂, ?_⟩
  rw [visit_data (t := s.withPair (a, ehrWord s.regB a (subkeyWord s.width s.eng.S (2 * s.seq.RND + 1))) d₂)
    (by simp only [visit, hp]) ?_]
  · simp only [advance, State.withPair_seq, hp]
    rfl
  · rw [hprep]
    simp only [program, hp]
    rw [runProgram_cons h₁, runProgram_cons h₂]
    rfl

theorem visit_decRound {s : State} (hp : s.seq.phase = .decRound) (h : 2 * s.seq.RND + 1 < s.eng.S.length) :
    ∃ d, visit s =
      .next
        { s.withPair
            (dhrWord s.regA (dhrWord s.regB s.regA (subkeyWord s.width s.eng.S (2 * s.seq.RND + 1)))
                (subkeyWord s.width s.eng.S (2 * s.seq.RND)),
              dhrWord s.regB s.regA (subkeyWord s.width s.eng.S (2 * s.seq.RND + 1))) d with
          seq :=
            { s.seq with
              RND := s.seq.RND - 1
              phase := if 1 ≤ s.seq.RND - 1 then .decRound else .decPost } } := by
  obtain ⟨d₁, h₁⟩ := drive_bDhr (s := s) (i := 2 * s.seq.RND + 1) h
  generalize hb : dhrWord s.regB s.regA (subkeyWord s.width s.eng.S (2 * s.seq.RND + 1)) = b at h₁ ⊢
  obtain ⟨d₂, h₂⟩ := drive_aDhr
    (s := { s with work := { s.work with B := ofWord b }, dp := d₁ }) (i := 2 * s.seq.RND) (Nat.lt_of_succ_lt h)
  have hB : ({ s with work := { s.work with B := ofWord b }, dp := d₁ } : State).regB = b := toWord_ofWord s.width b
  rw [hB] at h₂
  have hprep : prepare s = s := by simp only [prepare, hp]
  refine ⟨d₂, ?_⟩
  rw [visit_data (t := s.withPair (dhrWord s.regA b (subkeyWord s.width s.eng.S (2 * s.seq.RND)), b) d₂)
    (by simp only [visit, hp]) ?_]
  · simp only [advance, State.withPair_seq, hp]
    rfl
  · rw [hprep]
    simp only [program, hp]
    rw [runProgram_cons h₁, runProgram_cons h₂]
    rfl

theorem visit_decPost {s : State} (hp : s.seq.phase = .decPost) (h : 2 ≤ s.eng.S.length) :
    ∃ d, visit s =
      .next
        { s.withPair (subWord s.regA (subkeyWord s.width s.eng.S 0), subWord s.regB (subkeyWord s.width s.eng.S 1)) d with
          seq := { s.seq with phase := .blkWrite } } := by
  obtain ⟨d₁, h₁⟩ := drive_bSub (s := s) (i := 1) (by omega)
  obtain ⟨d₂, h₂⟩ := drive_aSub
    (s := { s with work := { s.work with B := ofWord (subWord s.regB (subkeyWord s.width s.eng.S 1)) }, dp := d₁ })
    (i := 0) (Nat.lt_of_lt_of_le Nat.two_pos h)
  have hprep : prepare s = s := by simp only [prepare, hp]
  refine ⟨d₂, ?_⟩
  rw [visit_data (t := s.withPair (subWord s.regA (subkeyWord s.width s.eng.S 0),
    subWord s.regB (subkeyWord s.width s.eng.S 1)) d₂) (by simp only [visit, hp]) ?_]
  · simp only [advance, State.withPair_seq, hp]
    rfl
  · rw [hprep]
    simp only [program, hp]
    rw [runProgram_cons h₁, runProgram_cons h₂]
    rfl

theorem visit_blkRead {s : State} (hp : s.seq.phase = .blkRead)
    (h : s.seq.BLK * s.width.block + s.width.block ≤ s.len) :
    ∃ d, visit s =
      .next (advance (s.withPair
        (lePack s.width.bits ((s.port.payload.drop (s.seq.BLK * s.width.block)).take s.width.bytes),
          lePack s.width.bits ((s.port.payload.drop (s.seq.BLK * s.width.block + s.width.bytes)).take s.width.bytes))
        d)) := by
  have hprep : prepare s = s := by simp only [prepare, hp]
  refine ⟨s.dp, visit_data (by simp only [visit, hp]) ?_⟩
  rw [hprep]
  simp only [program, hp, runProgram, drive, applyRoute, andThen_next, exec, execRdb_eq h, applyDest]
  rfl

theorem visit_blkWrite {s : State} (hp : s.seq.phase = .blkWrite) :
    ∃ d, visit s =
      .next
        { s with
          resp := { s.resp with payload := s.resp.payload ++ blockBytes s.width (s.regA, s.regB) }
          seq :=
            { s.seq with
              BLK := s.seq.BLK + 1
              phase := if (s.seq.BLK + 1) * s.width.block < s.len then .blkRead else .respond }
          dp := d } := by
  have hprep : prepare s = s := by simp only [prepare, hp]
  refine ⟨{ s.dp with x := s.work.B, resBytes := leUnpack s.width s.regB }, ?_⟩
  rw [visit_data (t :=
    { s with
      resp := { s.resp with payload := s.resp.payload ++ blockBytes s.width (s.regA, s.regB) }
      dp := { s.dp with x := s.work.B, resBytes := leUnpack s.width s.regB } }) (by simp only [visit, hp]) ?_]
  · simp only [advance, hp]
    rfl
  · rw [hprep]
    simp only [program, hp]
    show Host.Outcome.next _ = _
    congr 2
    simp only [applyDest, State.setResBytes, blockBytes]
    rw [← List.append_assoc]
    rfl

end Sys2Proof.Machine
end

