-- ==== Sys2Proof/Laws/SequencerSetup.lean ====
section
/-! SUPPORT. The visits of a SETUP: loading the key words, filling the progression, one mixing iteration. -/

namespace Sys2Proof.Machine

/-- A part of a read is a read of its own. -/
theorem Memory.readBytes_slice {m : Memory} {n a k : Nat} {ds : List Byte} (h : Memory.readBytes m 0 n = some ds)
    (hk : a + k ≤ n) : Memory.readBytes m a k = some ((ds.drop a).take k) := by
  obtain ⟨hl, hr⟩ := (Memory.readBytes_eq_some_iff _ _ _ _).1 h
  refine (Memory.readBytes_eq_some_iff _ _ _ _).2 ⟨by simp; omega, ?_⟩
  intro i hi
  have := hr (a + i) (by omega)
  rw [Nat.zero_add] at this
  rw [this, List.getElem?_take, if_pos hi, List.getElem?_drop]

/-- One more word read is one more at the end. -/
theorem readWords_succ (W : Width) (n : Nat) (ds : List Byte) :
    readWords W (n + 1) ds = readWords W n ds ++ [lePack W.bits ((ds.drop (n * W.bytes)).take W.bytes)] := by
  induction n generalizing ds with
  | zero => simp [readWords]
  | succ n ih =>
    rw [readWords, ih, readWords, List.cons_append, List.drop_drop]
    rw [show W.bytes + n * W.bytes = (n + 1) * W.bytes by rw [Nat.succ_mul]; omega]

/-- The micro-instructions of KX_LOAD. -/
def loadProgram (n : Nat) : List Micro := (List.range n).map fun q => ⟨.keyWord q, .rdw, .pushL⟩

theorem drive_load {s : State} {q n : Nat} {ds : List Byte} (h : Memory.readBytes s.key.keybuf 0 n = some ds)
    (hq : (q + 1) * s.width.bytes ≤ n) :
    ∃ d, drive ⟨.keyWord q, .rdw, .pushL⟩ s =
      .next
        { s with
          work :=
            { s.work with
              L := s.work.L ++ [ofWord (lePack s.width.bits ((ds.drop (q * s.width.bytes)).take s.width.bytes))] }
          seq := { s.seq with J := q }
          dp := d } := by
  rw [Nat.succ_mul] at hq
  have hr := Memory.readBytes_slice h hq
  have hx := execRdw_eq (s := { s with seq := { s.seq with J := q } }) hr
  simp only [drive, applyRoute, andThen_next, exec]
  exact ⟨_, by rw [hx]; rfl⟩

theorem runProgram_load {s : State} {n N : Nat} {ds : List Byte} (h : Memory.readBytes s.key.keybuf 0 N = some ds)
    (hn : n * s.width.bytes ≤ N) :
    ∃ j d, runProgram (loadProgram n) s =
      .next
        { s with
          work := { s.work with L := s.work.L ++ (readWords s.width n ds).map ofWord }
          seq := { s.seq with J := j }
          dp := d } := by
  induction n with
  | zero => exact ⟨s.seq.J, s.dp, by simp [loadProgram, readWords]⟩
  | succ n ih =>
    obtain ⟨j, d, hi⟩ := ih (Nat.le_trans (Nat.mul_le_mul_right _ (Nat.le_succ n)) hn)
    rw [loadProgram, List.range_succ, List.map_append]
    rw [loadProgram] at hi
    rw [runProgram_append hi]
    obtain ⟨d', hd⟩ := drive_load (q := n)
      (s :=
        { s with
          work := { s.work with L := s.work.L ++ (readWords s.width n ds).map ofWord }
          seq := { s.seq with J := j }
          dp := d }) h hn
    refine ⟨n, d', ?_⟩
    rw [List.map_singleton, runProgram_cons hd, runProgram_nil, readWords_succ, List.map_append, ← List.append_assoc]
    rfl

/-- A visit of KX_LOAD builds `L` from the key and makes the engine slot Uninitialised (R143, R144). -/
theorem visit_kxLoad {s : State} {ds : List Byte} (hp : s.seq.phase = .kxLoad)
    (h : memReadKeybuf s 0 s.key.klen.toNat = some ds) :
    ∃ j d, visit s =
      .next
        { s with
          eng := { s.eng with state := .uninitialised }
          work := { s.work with L := (readWords s.width (keyWordCount s.width s) ds).map ofWord }
          seq := { s.seq with J := j, phase := .kxInit }
          dp := d } := by
  have hprep : prepare s =
      { s with eng := { s.eng with state := .uninitialised }, work := { s.work with L := [] } } := by
    simp only [prepare, hp]
  obtain ⟨j, d, hr⟩ := runProgram_load
    (s := { s with eng := { s.eng with state := .uninitialised }, work := { s.work with L := [] } })
    (n := keyWordCount s.width s) h (Nat.div_mul_le_self _ _)
  refine ⟨j, d, ?_⟩
  rw [visit_data (t :=
    { s with
      eng := { s.eng with state := .uninitialised }
      work := { s.work with L := (readWords s.width (keyWordCount s.width s) ds).map ofWord }
      seq := { s.seq with J := j }
      dp := d }) (by simp only [visit, hp]) ?_]
  · simp only [advance, hp]
    rfl
  · have hprog : program
        { s with eng := { s.eng with state := .uninitialised }, work := { s.work with L := [] } } =
          loadProgram (keyWordCount s.width s) := by
      simp only [program, hp]
      rfl
    rw [hprep, hprog]
    exact hr

/-- The progression, one addition after the other. -/
theorem runProgram_progression {s : State} (v : BitVec s.width.bits) (n : Nat) (hx : s.dp.x = ofWord v)
    (hy : s.dp.y = ofWord (qWord s.width)) :
    ∃ d, runProgram (List.replicate n ⟨.keep, .addw, .pushS⟩) s =
      .next
        { s with
          eng := { s.eng with S := s.eng.S ++ (subkeysFrom s.width (addWord v (qWord s.width)) n).map ofWord }
          dp := d } := by
  induction n generalizing s with
  | zero => exact ⟨s.dp, by simp [subkeysFrom]⟩
  | succ n ih =>
    have hX : s.opX = v := by rw [State.opX, hx]; exact toWord_ofWord _ _
    have hY : s.opY = qWord s.width := by rw [State.opY, hy]; exact toWord_ofWord _ _
    have hd : drive ⟨.keep, .addw, .pushS⟩ s =
        .next
          { s with
            eng := { s.eng with S := s.eng.S ++ [ofWord (addWord v (qWord s.width))] }
            dp := { s.dp with res := ofWord (addWord v (qWord s.width)), x := ofWord (addWord v (qWord s.width)) } } := by
      simp only [drive, applyRoute, andThen_next, exec, execAddw, hX, hY]
      rfl
    rw [List.replicate_succ, runProgram_cons hd]
    obtain ⟨d, hr⟩ := ih
      (s :=
        { s with
          eng := { s.eng with S := s.eng.S ++ [ofWord (addWord v (qWord s.width))] }
          dp := { s.dp with res := ofWord (addWord v (qWord s.width)), x := ofWord (addWord v (qWord s.width)) } })
      (addWord v (qWord s.width)) rfl hy
    refine ⟨d, ?_⟩
    rw [hr]
    congr 2
    simp only [subkeysFrom, List.map_cons]
    rw [List.append_assoc]
    rfl

/-- A visit of KX_INIT fills `S` with the progression and clears the accumulators and the indices (R145, R146). -/
theorem visit_kxInit {s : State} (hp : s.seq.phase = .kxInit) :
    ∃ d, visit s =
      .next
        { s with
          eng :=
            { s.eng with S := (subkeysFrom s.width (pWord s.width) (subkeyCount (cwRounds s.port.cw))).map ofWord }
          work := { s.work with A := ofWord (zeroWord s.width.bits), B := ofWord (zeroWord s.width.bits) }
          seq := { s.seq with phase := .kxMix, I := 0, J := 0, K := 0 }
          dp := d } := by
  have hprep : prepare s = { s with eng := { s.eng with S := [] } } := by simp only [prepare, hp]
  generalize ht : subkeyCount (cwRounds s.port.cw) = t
  have htp : 0 < t := ht ▸ subkeyCount_pos _
  obtain ⟨n, rfl⟩ : ∃ n, t = n + 1 := ⟨t - 1, by omega⟩
  obtain ⟨d, hr⟩ := runProgram_progression
    (s :=
      { s with
        eng := { s.eng with S := [ofWord (pWord s.width)] }
        dp := { s.dp with x := ofWord (pWord s.width), y := ofWord (qWord s.width), res := ofWord (qWord s.width) } })
    (pWord s.width) n rfl rfl
  refine ⟨{ d with res := ofWord (zeroWord s.width.bits) }, ?_⟩
  rw [visit_data (t :=
    { s with
      eng := { s.eng with S := (subkeysFrom s.width (pWord s.width) (n + 1)).map ofWord }
      work := { s.work with A := ofWord (zeroWord s.width.bits), B := ofWord (zeroWord s.width.bits) }
      dp := { d with res := ofWord (zeroWord s.width.bits) } }) (by simp only [visit, hp]) ?_]
  · simp only [advance, hp]
  · rw [hprep]
    simp only [program, hp, ht, Nat.add_sub_cancel]
    rw [List.append_assoc]
    have h2 : runProgram [⟨.keep, .pw, .pushS⟩, ⟨.keep, .qw, .toY⟩] { s with eng := { s.eng with S := [] } } =
        .next
          { s with
            eng := { s.eng with S := [ofWord (pWord s.width)] }
            dp := { s.dp with x := ofWord (pWord s.width), y := ofWord (qWord s.width), res := ofWord (qWord s.width) } } :=
      rfl
    rw [runProgram_append h2, runProgram_append hr]
    rfl

/-- A visit of KX_MIX: MIXS, then MIXL with the new `A`, then the indices and the count (R148). -/
theorem visit_kxMix {s : State} (hp : s.seq.phase = .kxMix) (hI : s.seq.I < s.eng.S.length)
    (hJ : s.seq.J < s.work.L.length) :
    let a := mixSWord (toWord s.width.bits (s.eng.S.getD s.seq.I 0)) s.regA s.regB
    let b := mixLWord (toWord s.width.bits (s.work.L.getD s.seq.J 0)) a s.regB
    visit s =
      .next (advanceMix
        { s with
          eng := { s.eng with S := s.eng.S.set s.seq.I (ofWord a) }
          work := { A := ofWord a, B := ofWord b, L := s.work.L.set s.seq.J (ofWord b) } }) := by
  intro a b
  have hS : s.eng.S[s.seq.I]? = some (s.eng.S.getD s.seq.I 0) := subkey?_of_lt hI
  have hL : s.work.L[s.seq.J]? = some (s.work.L.getD s.seq.J 0) := by
    rw [List.getElem?_eq_getElem hJ, List.getD_eq_getElem?_getD, List.getElem?_eq_getElem hJ]
    rfl
  have hprep : prepare s = s := by simp only [prepare, hp]
  have h₁ : drive ⟨.keep, .mixs, .stay⟩ s =
      .next
        { s with
          work := { s.work with A := ofWord a }
          eng := { s.eng with S := s.eng.S.set s.seq.I (ofWord a) } } := by
    simp only [drive, applyRoute, andThen_next, exec, execMixs_eq hS, applyDest]
    rfl
  have hA : ({ s with
      work := { s.work with A := ofWord a }
      eng := { s.eng with S := s.eng.S.set s.seq.I (ofWord a) } } : State).regA = a := toWord_ofWord s.width a
  have hx := execMixl_eq
    (s :=
      { s with
        work := { s.work with A := ofWord a }
        eng := { s.eng with S := s.eng.S.set s.seq.I (ofWord a) } }) hL
  rw [hA] at hx
  have h₂ : drive ⟨.keep, .mixl, .stay⟩
      { s with
        work := { s.work with A := ofWord a }
        eng := { s.eng with S := s.eng.S.set s.seq.I (ofWord a) } } =
      .next
        { s with
          eng := { s.eng with S := s.eng.S.set s.seq.I (ofWord a) }
          work := { A := ofWord a, B := ofWord b, L := s.work.L.set s.seq.J (ofWord b) } } := by
    simp only [drive, applyRoute, andThen_next, exec, hx, applyDest]
    rfl
  rw [visit_data (t :=
    { s with
      eng := { s.eng with S := s.eng.S.set s.seq.I (ofWord a) }
      work := { A := ofWord a, B := ofWord b, L := s.work.L.set s.seq.J (ofWord b) } }) (by simp only [visit, hp]) ?_]
  · simp only [advance, hp]
  · rw [hprep]
    simp only [program, hp]
    rw [runProgram_cons h₁, runProgram_cons h₂]
    rfl

/-- A visit of KX_MIX on arrays of words is one mixing iteration. -/
theorem visit_kxMix_mixOnce {s : State} (hp : s.seq.phase = .kxMix) (t c : Nat) (m : Mix s.width.bits)
    (hS : s.eng.S = m.S.map ofWord) (hL : s.work.L = m.L.map ofWord) (hA : s.work.A = ofWord m.A)
    (hB : s.work.B = ofWord m.B) (hI : s.seq.I = m.I) (hJ : s.seq.J = m.J) (hIl : m.I < m.S.length)
    (hJl : m.J < m.L.length) :
    visit s =
      .next (advanceMix
        { s with
          eng := { s.eng with S := (mixOnce t c m).S.map ofWord }
          work :=
            { A := ofWord (mixOnce t c m).A, B := ofWord (mixOnce t c m).B, L := (mixOnce t c m).L.map ofWord } }) := by
  have hv := visit_kxMix hp (by rw [hS, hI, List.length_map]; exact hIl) (by rw [hL, hJ, List.length_map]; exact hJl)
  have h1 : toWord s.width.bits (s.eng.S.getD s.seq.I 0) = m.S.getD m.I 0 := by
    rw [hS, hI, List.getD_eq_getElem?_getD, List.getElem?_map, List.getD_eq_getElem?_getD,
      List.getElem?_eq_getElem hIl]
    exact toWord_ofWord _ _
  have h2 : toWord s.width.bits (s.work.L.getD s.seq.J 0) = m.L.getD m.J 0 := by
    rw [hL, hJ, List.getD_eq_getElem?_getD, List.getElem?_map, List.getD_eq_getElem?_getD,
      List.getElem?_eq_getElem hJl]
    exact toWord_ofWord _ _
  have h3 : s.regA = m.A := by rw [State.regA, hA]; exact toWord_ofWord _ _
  have h4 : s.regB = m.B := by rw [State.regB, hB]; exact toWord_ofWord _ _
  simp only [h1, h2, h3, h4] at hv
  rw [hv]
  congr 3
  · rw [hS, hI, ← List.map_set]
    rfl
  · rw [hL, hJ, ← List.map_set]
    rfl

end Sys2Proof.Machine
end

