-- ==== Sys2Proof/Laws/Transform.lean ====
section
/-! SUPPORT. The block transform: where the words of a buffer stand, block by block, and the two directions undoing each other. -/

namespace Sys2Proof.Machine

/-! ### Words in a buffer -/

theorem wordAt_drop (W : Width) (ds : List Byte) (off : Nat) (v : BitVec W.bits) :
    WordAt W ds off v ↔ WordAt W (ds.drop off) 0 v := by
  simp [WordAt, List.getElem?_drop]

/-- The word packed from the bytes at an offset stands there. -/
theorem wordAt_lePack (W : Width) (ds : List Byte) (off : Nat) (h : off + W.bytes ≤ ds.length) :
    WordAt W ds off (lePack W.bits ((ds.drop off).take W.bytes)) := by
  intro k hk
  rw [← lePack_byte W _ (by simp; omega) k hk, List.getElem?_take, if_pos hk, List.getElem?_drop]

/-- No other word stands there. -/
theorem wordAt_unique {W : Width} {ds : List Byte} {off : Nat} {v : BitVec W.bits} (h : WordAt W ds off v) :
    v = lePack W.bits ((ds.drop off).take W.bytes) := by
  have hb : (ds.drop off).take W.bytes = leUnpack W v := by
    apply List.ext_getElem?
    intro k
    by_cases hk : k < W.bytes
    · rw [List.getElem?_take, if_pos hk, List.getElem?_drop, h k hk, leUnpack_getElem? W v k hk]
    · rw [List.getElem?_take, if_neg hk, List.getElem?_eq_none (by rw [leUnpack_length]; omega)]
  rw [hb, lePack_leUnpack]

/-- The bytes a word unpacks to hold it, whatever follows. -/
theorem wordAt_leUnpack (W : Width) (v : BitVec W.bits) (rest : List Byte) : WordAt W (leUnpack W v ++ rest) 0 v := by
  intro k hk
  rw [Nat.zero_add, List.getElem?_append_left (by rw [leUnpack_length]; exact hk), leUnpack_getElem? W v k hk]

/-! ### Blocks in a buffer -/

theorem block_pos (W : Width) : 0 < W.block := by cases W <;> decide

theorem block_eq (W : Width) : W.block = W.bytes + W.bytes := Nat.two_mul _

@[simp] theorem blockBytes_length (W : Width) (p : BitVec W.bits × BitVec W.bits) : (blockBytes W p).length = W.block := by
  simp [blockBytes, block_eq]

@[simp] theorem readBlocks_length (W : Width) (n : Nat) (ds : List Byte) : (readBlocks W n ds).length = n := by
  induction n generalizing ds with
  | zero => rfl
  | succ n ih => simp [readBlocks, ih]

/-- Block `n` of a buffer is packed from its own `b` bytes (R128). -/
theorem readBlocks_getElem? (W : Width) (n : Nat) (ds : List Byte) (i : Nat) (h : i < n) :
    (readBlocks W n ds)[i]? =
      some (lePack W.bits ((ds.drop (i * W.block)).take W.bytes),
        lePack W.bits ((ds.drop (i * W.block + W.bytes)).take W.bytes)) := by
  induction n generalizing ds i with
  | zero => omega
  | succ n ih =>
    cases i with
    | zero => simp [readBlocks]
    | succ i =>
      rw [readBlocks, List.getElem?_cons_succ, ih _ _ (by omega), List.drop_drop, List.drop_drop]
      rw [show W.block + i * W.block = (i + 1) * W.block by rw [Nat.succ_mul]; omega,
        show W.block + (i * W.block + W.bytes) = (i + 1) * W.block + W.bytes by rw [Nat.succ_mul]; omega]

@[simp] theorem blockBytes_flatMap_length (W : Width) (bs : List (BitVec W.bits × BitVec W.bits)) :
    (bs.flatMap (blockBytes W)).length = bs.length * W.block := by
  induction bs with
  | nil => simp
  | cons p bs ih => simp [ih, Nat.succ_mul]; omega

theorem drop_blocks (W : Width) (bs : List (BitVec W.bits × BitVec W.bits)) (n : Nat) :
    (bs.flatMap (blockBytes W)).drop (n * W.block) = (bs.drop n).flatMap (blockBytes W) := by
  induction n generalizing bs with
  | zero => simp
  | succ n ih =>
    cases bs with
    | nil => simp
    | cons p bs =>
      rw [List.flatMap_cons, Nat.succ_mul, Nat.add_comm, ← List.drop_drop]
      rw [show W.block = (blockBytes W p).length by rw [blockBytes_length], List.drop_left, blockBytes_length, ih]
      rfl

/-- Both words of an output block stand at that block's offsets (R130). -/
theorem wordAt_blocks (W : Width) (bs : List (BitVec W.bits × BitVec W.bits)) (n : Nat)
    (p : BitVec W.bits × BitVec W.bits) (h : bs[n]? = some p) :
    WordAt W (bs.flatMap (blockBytes W)) (n * W.block) p.1 ∧
      WordAt W (bs.flatMap (blockBytes W)) (n * W.block + W.bytes) p.2 := by
  have hd : bs.drop n = p :: bs.drop (n + 1) := by
    obtain ⟨hn, he⟩ := List.getElem?_eq_some_iff.1 h
    rw [← he, List.drop_eq_getElem_cons hn]
  have hb : (bs.flatMap (blockBytes W)).drop (n * W.block) =
      leUnpack W p.1 ++ (leUnpack W p.2 ++ (bs.drop (n + 1)).flatMap (blockBytes W)) := by
    rw [drop_blocks, hd, List.flatMap_cons, blockBytes, List.append_assoc]
  constructor
  · rw [wordAt_drop, hb]
    exact wordAt_leUnpack _ _ _
  · rw [wordAt_drop, ← List.drop_drop, hb,
      show W.bytes = (leUnpack W p.1).length by rw [leUnpack_length], List.drop_left]
    exact wordAt_leUnpack _ _ _

/-- Reading what was written gives the blocks back. -/
theorem readBlocks_blocks (W : Width) (bs : List (BitVec W.bits × BitVec W.bits)) :
    readBlocks W bs.length (bs.flatMap (blockBytes W)) = bs := by
  apply List.ext_getElem?
  intro i
  by_cases hi : i < bs.length
  · rw [readBlocks_getElem? _ _ _ _ hi, List.getElem?_eq_getElem hi]
    obtain ⟨h1, h2⟩ := wordAt_blocks W bs i bs[i] (List.getElem?_eq_getElem hi)
    rw [← wordAt_unique h1, ← wordAt_unique h2]
  · rw [List.getElem?_eq_none (by rw [readBlocks_length]; omega), List.getElem?_eq_none (by omega)]

/-- Writing what was read gives an aligned buffer back. -/
theorem blocks_readBlocks (W : Width) (n : Nat) (ds : List Byte) (h : ds.length = n * W.block) :
    (readBlocks W n ds).flatMap (blockBytes W) = ds := by
  induction n generalizing ds with
  | zero => exact (List.eq_nil_of_length_eq_zero (by omega)).symm
  | succ n ih =>
    rw [Nat.succ_mul] at h
    have hb := block_eq W
    rw [readBlocks, List.flatMap_cons, ih _ (by rw [List.length_drop]; omega), blockBytes]
    rw [leUnpack_lePack W _ (by simp; omega), leUnpack_lePack W _ (by simp; omega), hb, ← List.drop_drop,
      List.append_assoc, List.take_append_drop, List.take_append_drop]

/-- Reading a buffer made of two aligned parts reads the one, then the other. -/
theorem readBlocks_append (W : Width) (n m : Nat) (p q : List Byte) (h : p.length = n * W.block) :
    readBlocks W (n + m) (p ++ q) = readBlocks W n p ++ readBlocks W m q := by
  induction n generalizing p with
  | zero =>
    rw [List.eq_nil_of_length_eq_zero (l := p) (by omega)]
    simp [readBlocks]
  | succ n ih =>
    rw [Nat.succ_mul] at h
    have hb := block_eq W
    rw [show n + 1 + m = (n + m) + 1 by omega, readBlocks, readBlocks, List.cons_append,
      List.drop_append_of_le_length (l₁ := p) (i := W.block) (by omega), ih _ (by rw [List.length_drop]; omega)]
    rw [List.take_append_of_le_length (by omega), List.drop_append_of_le_length (by omega),
      List.take_append_of_le_length (by rw [List.length_drop]; omega)]

/-! ### The block functions -/

/-- One encode round (R174). -/
def encodeRound (W : Width) (S : List Slot) (i : Nat) (p : BitVec W.bits × BitVec W.bits) : BitVec W.bits × BitVec W.bits :=
  (ehrWord p.1 p.2 (subkeyWord W S (2 * i)),
    ehrWord p.2 (ehrWord p.1 p.2 (subkeyWord W S (2 * i))) (subkeyWord W S (2 * i + 1)))

/-- One decode round (R181). -/
def decodeRound (W : Width) (S : List Slot) (i : Nat) (p : BitVec W.bits × BitVec W.bits) : BitVec W.bits × BitVec W.bits :=
  (dhrWord p.1 (dhrWord p.2 p.1 (subkeyWord W S (2 * i + 1))) (subkeyWord W S (2 * i)),
    dhrWord p.2 p.1 (subkeyWord W S (2 * i + 1)))

@[simp] theorem decodeRound_encodeRound (W : Width) (S : List Slot) (i : Nat) (p : BitVec W.bits × BitVec W.bits) :
    decodeRound W S i (encodeRound W S i p) = p := by
  simp [decodeRound, encodeRound]

@[simp] theorem encodeRound_decodeRound (W : Width) (S : List Slot) (i : Nat) (p : BitVec W.bits × BitVec W.bits) :
    encodeRound W S i (decodeRound W S i p) = p := by
  simp [decodeRound, encodeRound]

theorem encodeRounds_cons (W : Width) (S : List Slot) (n rnd : Nat) (p : BitVec W.bits × BitVec W.bits) :
    encodeRounds W S (n + 1) rnd p = encodeRounds W S n (rnd + 1) (encodeRound W S rnd p) := rfl

theorem decodeRounds_cons (W : Width) (S : List Slot) (n : Nat) (p : BitVec W.bits × BitVec W.bits) :
    decodeRounds W S (n + 1) p = decodeRounds W S n (decodeRound W S (n + 1) p) := rfl

/-- The last round is taken last. -/
theorem encodeRounds_succ (W : Width) (S : List Slot) (n rnd : Nat) (p : BitVec W.bits × BitVec W.bits) :
    encodeRounds W S (n + 1) rnd p = encodeRound W S (rnd + n) (encodeRounds W S n rnd p) := by
  induction n generalizing rnd p with
  | zero => rfl
  | succ n ih =>
    rw [encodeRounds_cons, ih, encodeRounds_cons]
    congr 1
    omega

theorem decodeRounds_encodeRounds (W : Width) (S : List Slot) (n : Nat) (p : BitVec W.bits × BitVec W.bits) :
    decodeRounds W S n (encodeRounds W S n 1 p) = p := by
  induction n with
  | zero => rfl
  | succ n ih => rw [encodeRounds_succ, decodeRounds_cons, Nat.add_comm 1 n, decodeRound_encodeRound, ih]

theorem encodeRounds_decodeRounds (W : Width) (S : List Slot) (n : Nat) (p : BitVec W.bits × BitVec W.bits) :
    encodeRounds W S n 1 (decodeRounds W S n p) = p := by
  induction n generalizing p with
  | zero => rfl
  | succ n ih => rw [decodeRounds_cons, encodeRounds_succ, ih, Nat.add_comm 1 n, encodeRound_decodeRound]

/-- DECODE of one block undoes ENCODE (R184). -/
@[simp] theorem decodeBlock_encodeBlock (W : Width) (S : List Slot) (r : Nat) (p : BitVec W.bits × BitVec W.bits) :
    decodeBlock W S r (encodeBlock W S r p) = p := by
  simp only [decodeBlock, encodeBlock, decodeRounds_encodeRounds, subWord_addWord]

/-- ENCODE of one block undoes DECODE (R184). -/
@[simp] theorem encodeBlock_decodeBlock (W : Width) (S : List Slot) (r : Nat) (p : BitVec W.bits × BitVec W.bits) :
    encodeBlock W S r (decodeBlock W S r p) = p := by
  simp only [decodeBlock, encodeBlock, addWord_subWord]
  exact encodeRounds_decodeRounds W S r p

/-- ENCODE of one block, round by round (R173, R174). -/
theorem encodeBlock_isEncoded (W : Width) (S : List Slot) (r : Nat) (p : BitVec W.bits × BitVec W.bits) :
    IsEncoded (subkeyWord W S) r p.1 p.2 (encodeBlock W S r p).1 (encodeBlock W S r p).2 := by
  refine ⟨fun i => (encodeBlock W S i p).1, fun i => (encodeBlock W S i p).2, rfl, rfl, ?_, rfl, rfl⟩
  intro i h1 _
  obtain ⟨n, rfl⟩ : ∃ n, i = n + 1 := ⟨i - 1, by omega⟩
  have hs : encodeBlock W S (n + 1) p = encodeRound W S (n + 1) (encodeBlock W S n p) := by
    simp only [encodeBlock]
    rw [encodeRounds_succ, Nat.add_comm 1 n]
  simp only [Nat.add_sub_cancel, hs]
  constructor
  · simp only [encodeRound, ehrWord, rotlWord_eq_rotateLeft]
    rfl
  · simp only [encodeRound]
    conv_lhs => rw [ehrWord, rotlWord_eq_rotateLeft]
    rfl

/-- The decode rounds, round by round (R181). -/
theorem decodeRounds_values (W : Width) (S : List Slot) (r : Nat) (p : BitVec W.bits × BitVec W.bits) :
    ∃ A B : Nat → BitVec W.bits, A r = p.1 ∧ B r = p.2 ∧
      (∀ i, 1 ≤ i → i ≤ r →
        B (i - 1) = (B i - subkeyWord W S (2 * i + 1)).rotateRight ((A i).toNat % W.bits) ^^^ A i ∧
        A (i - 1) = (A i - subkeyWord W S (2 * i)).rotateRight ((B (i - 1)).toNat % W.bits) ^^^ B (i - 1)) ∧
      decodeRounds W S r p = (A 0, B 0) := by
  induction r generalizing p with
  | zero => exact ⟨fun _ => p.1, fun _ => p.2, rfl, rfl, by intro i h1 h2; omega, rfl⟩
  | succ r ih =>
    obtain ⟨A, B, hA, hB, hs, he⟩ := ih (decodeRound W S (r + 1) p)
    refine ⟨Function.update A (r + 1) p.1, Function.update B (r + 1) p.2, by simp, by simp, ?_, ?_⟩
    · intro i h1 h2
      rcases Nat.lt_or_ge i (r + 1) with hlt | hge
      · rw [Function.update_of_ne (by omega), Function.update_of_ne (by omega), Function.update_of_ne (by omega),
          Function.update_of_ne (by omega)]
        exact hs i h1 (by omega)
      · obtain rfl : i = r + 1 := by omega
        rw [Nat.add_sub_cancel, Function.update_self, Function.update_self, Function.update_of_ne (by omega),
          Function.update_of_ne (by omega), hA, hB]
        constructor
        · show dhrWord _ _ _ = _
          rw [dhrWord, rotrWord_eq_rotateRight]
          rfl
        · show dhrWord _ (decodeRound W S (r + 1) p).2 _ = _
          rw [dhrWord, rotrWord_eq_rotateRight]
          rfl
    · rw [decodeRounds_cons, he, Function.update_of_ne (by omega), Function.update_of_ne (by omega)]

/-- DECODE of one block, round by round (R181, R182). -/
theorem decodeBlock_isDecoded (W : Width) (S : List Slot) (r : Nat) (p : BitVec W.bits × BitVec W.bits) :
    IsDecoded (subkeyWord W S) r p.1 p.2 (decodeBlock W S r p).1 (decodeBlock W S r p).2 := by
  obtain ⟨A, B, hA, hB, hs, he⟩ := decodeRounds_values W S r p
  refine ⟨A, B, hA, hB, hs, ?_, ?_⟩
  · rw [decodeBlock, he]
    rfl
  · rw [decodeBlock, he]
    rfl

/-! ### Whole buffers -/

@[simp] theorem blocksOut_length (W : Width) (f : BitVec W.bits × BitVec W.bits → BitVec W.bits × BitVec W.bits)
    (ds : List Byte) : (blocksOut W f ds).length = ds.length / W.block := by
  simp [blocksOut]

/-- An aligned buffer gives as many bytes as it has (R186). -/
theorem bytesOut_length (W : Width) (f : BitVec W.bits × BitVec W.bits → BitVec W.bits × BitVec W.bits) (ds : List Byte)
    (h : ds.length % W.block = 0) : (bytesOut W f ds).length = ds.length := by
  rw [bytesOut, blockBytes_flatMap_length, blocksOut_length]
  exact Nat.div_mul_cancel (Nat.dvd_of_mod_eq_zero h)

/-- Undoing a block function undoes it on an aligned buffer (R184). -/
theorem bytesOut_inverse (W : Width) (f g : BitVec W.bits × BitVec W.bits → BitVec W.bits × BitVec W.bits)
    (hfg : ∀ p, g (f p) = p) (ds : List Byte) (h : ds.length % W.block = 0) :
    bytesOut W g (bytesOut W f ds) = ds := by
  have hl := bytesOut_length W f ds h
  have hd : ds.length = ds.length / W.block * W.block := (Nat.div_mul_cancel (Nat.dvd_of_mod_eq_zero h)).symm
  have hr : readBlocks W (ds.length / W.block) (bytesOut W f ds) = blocksOut W f ds := by
    have := readBlocks_blocks W (blocksOut W f ds)
    rwa [blocksOut_length] at this
  rw [bytesOut, blocksOut, hl, hr, blocksOut, List.map_map]
  have : g ∘ f = id := funext hfg
  rw [this, List.map_id, blocks_readBlocks W _ ds hd]

/-- Decoding undoes encoding on every aligned buffer, at every width, table and round count (R184). -/
@[simp] theorem bytesOut_decode_encode (W : Width) (S : List Slot) (r : Nat) (pt : List Byte) (h : pt.length % W.block = 0) :
    bytesOut W (decodeBlock W S r) (bytesOut W (encodeBlock W S r) pt) = pt :=
  bytesOut_inverse W _ _ (decodeBlock_encodeBlock W S r) pt h

/-- Encoding undoes decoding on every aligned buffer, at every width, table and round count (R184). -/
@[simp] theorem bytesOut_encode_decode (W : Width) (S : List Slot) (r : Nat) (ct : List Byte) (h : ct.length % W.block = 0) :
    bytesOut W (encodeBlock W S r) (bytesOut W (decodeBlock W S r) ct) = ct :=
  bytesOut_inverse W _ _ (encodeBlock_decodeBlock W S r) ct h

/-- A buffer made of two aligned parts gives what they give, one after the other (R175). -/
theorem bytesOut_append (W : Width) (f : BitVec W.bits × BitVec W.bits → BitVec W.bits × BitVec W.bits)
    (p q : List Byte) (hp : p.length % W.block = 0) : bytesOut W f (p ++ q) = bytesOut W f p ++ bytesOut W f q := by
  have hd : p.length = p.length / W.block * W.block := (Nat.div_mul_cancel (Nat.dvd_of_mod_eq_zero hp)).symm
  have hn : (p ++ q).length / W.block = p.length / W.block + q.length / W.block := by
    rw [List.length_append]
    conv_lhs => rw [hd]
    rw [Nat.add_comm, Nat.add_mul_div_right _ _ (block_pos W), Nat.add_comm]
  rw [bytesOut, blocksOut, hn, readBlocks_append W _ _ _ _ hd, List.map_append, List.flatMap_append]
  rfl

end Sys2Proof.Machine
end

