-- ==== Sys2Proof/Laws/Runs.lean ====
section
/-! SUPPORT. Runs of visits: a command carried through its phases, with the micro-operations driven on the way. -/

namespace Sys2Proof.Machine

/-- `n` visits, none of them of IDLE, lead from `s` to `t` and drive `us`. -/
inductive Goes : Nat → State → State → List Instr → Prop
  | here (s : State) : Goes 0 s s []
  | visit {n : Nat} {s u t : State} {us vs : List Instr} (hp : s.seq.phase ≠ .idle) (hv : visit s = .next u)
      (hu : us = (program (prepare s)).map Micro.uop) (h : Goes n u t vs) : Goes (n + 1) s t (us ++ vs)

theorem Goes.one {s t : State} {us : List Instr} (hp : s.seq.phase ≠ .idle) (hv : Machine.visit s = .next t)
    (hu : us = (program (prepare s)).map Micro.uop) : Goes 1 s t us := by
  have := Goes.visit hp hv hu (Goes.here t)
  rwa [List.append_nil] at this

theorem Goes.trans {n m : Nat} {s u t : State} {us vs : List Instr} (h : Goes n s u us) (h' : Goes m u t vs) :
    Goes (n + m) s t (us ++ vs) := by
  induction h with
  | here => rw [Nat.zero_add]; exact h'
  | visit hp hv hu _ ih =>
    rw [List.append_assoc, Nat.add_right_comm]
    exact Goes.visit hp hv hu (ih h')

/-- What such a run drives. -/
theorem Goes.driven {n : Nat} {s t : State} {us : List Instr} (h : Goes n s t us) : drivenIn n s = us := by
  induction h with
  | here => rfl
  | visit hp hv hu _ ih => rw [drivenIn, hv, hu]; exact congrArg _ ih

/-- A run of one step more. -/
theorem run_next {n : Nat} {s u : core.State} (h : core.step s = .next u) :
    Host.Core.run core (n + 1) s = Host.Core.run core n u := by
  rw [Host.Core.run, h]

/-- A step of an undisturbed command in progress is a visit. -/
theorem step_undisturbed {s : State} (hu : s.uop = none) (hp : s.seq.phase ≠ .idle) (hi : Undisturbed s) :
    step s = visit s := by
  rw [step_busy hu hp]
  unfold busyStep
  split <;> rename_i h
  · exact absurd rfl (hi _ (by rw [h]; rfl)).2
  · exact absurd rfl (hi _ (by rw [h]; rfl)).1
  · rfl
  · rfl
  · rfl

/-- Such a run is a run of the machine, when no select code is driven from outside and nothing at the port disturbs it. -/
theorem Goes.run {n : Nat} {s t : State} {us : List Instr} (h : Goes n s t us) (hu : s.uop = none)
    (hi : Undisturbed s) : Host.Core.run core n s = .next t := by
  induction h with
  | here => rfl
  | @visit n s u t us vs hp hv _ _ ih =>
    have hs : step s = .next u := (step_undisturbed hu hp hi).trans hv
    obtain ⟨h1, h2⟩ := visit_port hv
    exact (run_next hs).trans (ih (h1.trans hu) (by unfold Undisturbed; rw [h2]; exact hi))

/-- Such a run is that many visits. -/
theorem Goes.runVisits {n : Nat} {s t : State} {us : List Instr} (h : Goes n s t us) : Machine.runVisits n s = .next t := by
  induction h with
  | here => rfl
  | visit _ hv _ _ ih => rw [Machine.runVisits, hv, andThen_next, ih]

/-- A beginning of such a run is one too, and stands short of IDLE. -/
theorem Goes.take {n k : Nat} {s t : State} {us : List Instr} (h : Goes n s t us) (hk : k < n) :
    ∃ u vs, Goes k s u vs ∧ u.seq.phase ≠ .idle := by
  induction h generalizing k with
  | here => omega
  | @visit n s u t us vs hp hv hu _ ih =>
    cases k with
    | zero => exact ⟨s, [], Goes.here s, hp⟩
    | succ k =>
      obtain ⟨v, ws, g, hv'⟩ := ih (Nat.lt_of_succ_lt_succ hk)
      exact ⟨v, _, Goes.visit hp hv hu g, hv'⟩

/-- Such a run that reaches IDLE is a command's that ends after exactly that many visits. -/
theorem Goes.endsAfter {n : Nat} {s t : State} {us : List Instr} (h : Goes n s t us) (ht : t.seq.phase = .idle) :
    EndsAfter n s := by
  refine ⟨⟨t, h.runVisits, ht⟩, fun k hk => ?_⟩
  obtain ⟨u, _, g, hu⟩ := h.take hk
  exact ⟨u, g.runVisits, hu⟩

/-! ### The end of a command -/

theorem goes_respond {s : State} (hp : s.seq.phase = .respond) :
    Goes 1 s (deliver s.verdict s.resp.payload s) [] := by
  refine Goes.one (by rw [hp]; simp) (by simp only [visit, hp]) ?_
  simp only [program, prepare, hp, List.map_nil]

/-- A command that fails a check: CHECK, then RESPOND (R36, R244). -/
theorem goes_fail {s : State} (hp : s.seq.phase = .check)
    (h : checkVisit s = ({ s with verdict := v, resp := { s.resp with payload := [] } } : State).toPhase .respond) :
    Goes 2 s (raise v s) [] := by
  have h1 : Goes 1 s (({ s with verdict := v, resp := { s.resp with payload := [] } } : State).toPhase .respond) [] := by
    refine Goes.one (by rw [hp]; simp) (by simp only [visit, hp, h]) ?_
    simp only [program, prepare, hp, List.map_nil]
  exact h1.trans (goes_respond rfl)

theorem checkVisit_error {s : State} {e : DecodeError} (h : decodeCommand s.port.cw s.len = .error e) :
    checkVisit s = ({ s with verdict := illegalVerdict, resp := { s.resp with payload := [] } } : State).toPhase .respond := by
  simp only [checkVisit, settle, h]

theorem checkVisit_fails {s : State} {i : Instr} {v : Verdict} (h : decodeCommand s.port.cw s.len = .ok i)
    (hc : commandCheck i s = some v) :
    checkVisit s = ({ s with verdict := v, resp := { s.resp with payload := [] } } : State).toPhase .respond := by
  simp only [checkVisit, settle, h, hc]
  rfl

theorem checkVisit_passes {s : State} {i : Instr} (h : decodeCommand s.port.cw s.len = .ok i)
    (hc : commandCheck i s = none) :
    checkVisit s =
      (startBlocks i { s with verdict := Verdict.ok, resp := { s.resp with payload := [] } }).toPhase (firstPhase i s) := by
  simp only [checkVisit, settle, h, hc]
  rfl

theorem goes_check {s t : State} (hp : s.seq.phase = .check) (h : checkVisit s = t) : Goes 1 s t [] := by
  refine Goes.one (by rw [hp]; simp) (by simp only [visit, hp, h]) ?_
  simp only [program, prepare, hp, List.map_nil]

/-- KEY: CHECK, KEY_STORE, RESPOND. -/
theorem goes_key {s : State} (hp : s.seq.phase = .check) (hd : decodeCommand s.port.cw s.len = .ok .key)
    (hc : keyCheck s = none) : Goes 3 s (respond [] (storeKey s)) [] := by
  have h1 := goes_check hp (checkVisit_passes hd hc)
  have h2 : Goes 1
      ((startBlocks .key { s with verdict := Verdict.ok, resp := { s.resp with payload := [] } }).toPhase
        (firstPhase .key s))
      ((storeKey
        ((startBlocks .key { s with verdict := Verdict.ok, resp := { s.resp with payload := [] } }).toPhase
          (firstPhase .key s))).toPhase .respond) [] :=
    Goes.one (by simp [firstPhase]) rfl rfl
  exact (h1.trans h2).trans (goes_respond rfl)

/-! ### SETUP -/

/-- The machine in KX_MIX with the arrays, accumulators and indices of `m` and `k` iterations done. -/
def State.mixing (s : State) {w : Nat} (m : Mix w) (k : Nat) : State :=
  { s with
    eng := { s.eng with S := m.S.map ofWord }
    work := { A := ofWord m.A, B := ofWord m.B, L := m.L.map ofWord }
    seq := { s.seq with phase := .kxMix, I := m.I, J := m.J, K := k } }

/-- The machine after the last iteration: the engine slot Ready, `L` discarded (R152). -/
def State.mixed (s : State) {w : Nat} (m : Mix w) (k : Nat) : State :=
  { s with
    eng := { state := .ready, wsel := s.width, rounds := cwRounds s.port.cw, S := m.S.map ofWord }
    work := { A := ofWord m.A, B := ofWord m.B, L := [] }
    seq := { s.seq with phase := .respond, I := m.I, J := m.J, K := k } }

/-- One visit of KX_MIX, in the midst of the loop or at its end (R36). -/
theorem visit_mixing {s : State} (m : Mix s.width.bits) (k : Nat) (hI : m.I < m.S.length) (hJ : m.J < m.L.length) :
    let t := subkeyCount (cwRounds s.port.cw)
    let c := keyWordCount s.width s
    visit (s.mixing m k) =
      .next (if k + 1 < mixCount t c then s.mixing (mixOnce t c m) (k + 1) else s.mixed (mixOnce t c m) (k + 1)) := by
  intro t c
  rw [visit_kxMix_mixOnce (s := s.mixing m k) rfl t c m rfl rfl rfl rfl rfl rfl hI hJ]
  unfold advanceMix
  dsimp only
  split
  · rename_i h
    rw [if_pos (by exact h)]
    rfl
  · rename_i h
    rw [if_neg (by exact h)]
    rfl

theorem program_mixing (s : State) {w : Nat} (m : Mix w) (k : Nat) :
    (program (prepare (s.mixing m k))).map Micro.uop = [.mixs, .mixl] := rfl

/-- The mixing loop: the visits of KX_MIX that are left, from iteration `k` on (R147, R148). -/
theorem goes_mix (s : State) (m₀ : Mix s.width.bits) {t c : Nat} (ht : t = subkeyCount (cwRounds s.port.cw))
    (hc : c = keyWordCount s.width s) (hcp : 0 < c) (h0 : m₀.I = 0) (h0' : m₀.J = 0) (hS : m₀.S.length = t)
    (hL : m₀.L.length = c) (n : Nat) {k : Nat} (hk : mixCount t c = k + (n + 1)) :
    Goes (n + 1) (s.mixing (mixLoop t c k m₀) k) (s.mixed (mixLoop t c (k + (n + 1)) m₀) (k + (n + 1)))
      (List.replicate (n + 1) [Instr.mixs, Instr.mixl]).flatten := by
  have hv : ∀ k, visit (s.mixing (mixLoop t c k m₀) k) =
      .next (if k + 1 < mixCount t c then s.mixing (mixLoop t c (k + 1) m₀) (k + 1)
        else s.mixed (mixLoop t c (k + 1) m₀) (k + 1)) := by
    intro k
    obtain ⟨h1, h2, h3, h4⟩ := mixLoop_shape t c m₀ h0 h0' k
    have htp : 0 < t := ht ▸ subkeyCount_pos _
    have := visit_mixing (s := s) (mixLoop t c k m₀) k (by rw [h1, h3, hS]; exact Nat.mod_lt _ htp)
      (by rw [h2, h4, hL]; exact Nat.mod_lt _ hcp)
    rw [← ht, ← hc] at this
    rw [this, mixLoop_succ]
  induction n generalizing k with
  | zero =>
    refine Goes.one (by simp [State.mixing]) ?_ (program_mixing _ _ _).symm
    rw [hv, if_neg (by omega)]
  | succ n ih =>
    rw [List.replicate_succ, List.flatten_cons]
    refine Goes.visit (by simp [State.mixing]) (hv k) (program_mixing _ _ _).symm ?_
    rw [if_pos (by omega), show k + (n + 1 + 1) = (k + 1) + (n + 1) by omega]
    exact ih (by omega)

theorem mixCount_pos {t c : Nat} (ht : 0 < t) : 0 < mixCount t c := by
  unfold mixCount
  omega

/-- The machine after the expansion of the key `ds` (R143 to R152). -/
def State.expanded (s : State) (ds : List Byte) (d : Datapath) : State :=
  { (installEngine s.width (cwRounds s.port.cw) (mixCount (subkeyCount (cwRounds s.port.cw)) (keyWordCount s.width s))
      (expandKey s.width (cwRounds s.port.cw) ds) s).toPhase .respond with dp := d }

/-- KX_LOAD, KX_INIT and the mixing loop (R36, R143). -/
theorem goes_expand {s : State} {ds : List Byte} (hp : s.seq.phase = .kxLoad)
    (hk : memReadKeybuf s 0 s.key.klen.toNat = some ds) {t c : Nat} (ht : t = subkeyCount (cwRounds s.port.cw))
    (hc : c = keyWordCount s.width s) (hcp : 0 < c) :
    ∃ d, Goes (2 + mixCount t c) s (s.expanded ds d)
      (List.replicate c Instr.rdw ++ ([.pw, .qw] ++ List.replicate (t - 1) .addw ++ [.zero, .zero]) ++
        (List.replicate (mixCount t c) [Instr.mixs, Instr.mixl]).flatten) := by
  have htp : 0 < t := ht ▸ subkeyCount_pos _
  have hdl := ((Memory.readBytes_eq_some_iff _ _ _ _).1 hk).1
  obtain ⟨n, hn⟩ : ∃ n, mixCount t c = n + 1 := ⟨mixCount t c - 1, by have := mixCount_pos (c := c) htp; omega⟩
  obtain ⟨j, d, hv⟩ := visit_kxLoad hp hk
  have hus : List.replicate c Instr.rdw = (program (prepare s)).map Micro.uop := by
    have hprep : prepare s =
        { s with eng := { s.eng with state := .uninitialised }, work := { s.work with L := [] } } := by
      simp only [prepare, hp]
    rw [hprep]
    simp only [program, hp, List.map_map]
    rw [hc]
    symm
    refine List.eq_replicate_iff.2 ⟨?_, ?_⟩
    · rw [List.length_map, List.length_range]
      rfl
    · intro b hb
      obtain ⟨_, _, rfl⟩ := List.mem_map.1 hb
      rfl
  have g₁ := Goes.one (by rw [hp]; simp) hv hus
  generalize hs₂ : ({ s with
      eng := { s.eng with state := .uninitialised }
      work := { s.work with L := (readWords s.width (keyWordCount s.width s) ds).map ofWord }
      seq := { s.seq with J := j, phase := .kxInit }
      dp := d } : State) = s₂ at g₁
  have hp₂ : s₂.seq.phase = .kxInit := by rw [← hs₂]
  obtain ⟨d', hv'⟩ := visit_kxInit hp₂
  have hcw : s₂.port.cw = s.port.cw := by rw [← hs₂]
  have hw : s₂.width = s.width := by rw [← hs₂]; rfl
  have hus₂ : [.pw, .qw] ++ List.replicate (t - 1) Instr.addw ++ [.zero, .zero] =
      (program (prepare s₂)).map Micro.uop := by
    have hprep : prepare s₂ = { s₂ with eng := { s₂.eng with S := [] } } := by simp only [prepare, hp₂]
    rw [hprep]
    simp only [program, hp₂, hcw, ← ht, List.map_append, List.map_replicate]
    rfl
  have g₂ := Goes.one (by rw [hp₂]; simp) hv' hus₂
  have g₃ := goes_mix { s with eng := { s.eng with state := .uninitialised }, dp := d' }
    (mixStart s.width t c ds) ht hc hcp rfl rfl (mixStart_S_length _ _ _ _) (mixStart_L_length _ _ _ _) n (k := 0)
    (by omega)
  have hm : ({ s₂ with
      eng := { s₂.eng with S := (subkeysFrom s₂.width (pWord s₂.width) (subkeyCount (cwRounds s₂.port.cw))).map ofWord }
      work := { s₂.work with A := ofWord (zeroWord s₂.width.bits), B := ofWord (zeroWord s₂.width.bits) }
      seq := { s₂.seq with phase := .kxMix, I := 0, J := 0, K := 0 }
      dp := d' } : State) =
      ({ s with eng := { s.eng with state := .uninitialised }, dp := d' } : State).mixing
        (mixLoop t c 0 (mixStart s.width t c ds)) 0 := by
    rw [hcw, ← ht, hw, ← hs₂, ← hc]
    rfl
  rw [hm] at g₂
  refine ⟨d', ?_⟩
  have g := (g₁.trans g₂).trans g₃
  rw [hn]
  have he : s.expanded ds d' = ({ s with eng := { s.eng with state := .uninitialised }, dp := d' } : State).mixed
      (mixLoop t c (0 + (n + 1)) (mixStart s.width t c ds)) (0 + (n + 1)) := by
    have hx : expandKey s.width (cwRounds s.port.cw) ds = mixLoop t c (0 + (n + 1)) (mixStart s.width t c ds) := by
      rw [expandKey, hdl, show s.key.klen.toNat / s.width.bytes = c from hc.symm, ← ht, hn, Nat.zero_add]
    unfold State.expanded
    rw [hx, ← ht, ← hc, hn, Nat.zero_add]
    rfl
  rw [he, show 2 + (n + 1) = 1 + 1 + (n + 1) by omega]
  exact g

/-- What a SETUP's decoding says of the command in progress. -/
theorem setup_decoded {s : State} {W : Width} {r : BitVec 8} (hd : decodeCommand s.port.cw s.len = .ok (setupInstr W r)) :
    s.width = W ∧ cwRounds s.port.cw = r ∧ cwIsSetup s.port.cw = true := by
  have hcw : ∃ W' r', setupInstr W r = setupInstr W' r' ∧
      s.port.cw = commandWord ((1 : BitVec 1) ++ W'.code) r' ∧ s.len = 0 := by
    rcases decodeCommand_ok hd with ⟨h, _⟩ | ⟨h, _⟩ | ⟨h, _⟩ | h
    · cases W <;> cases h
    · cases W <;> cases h
    · cases W <;> cases h
    · exact h
  obtain ⟨W', r', he, hcw, _⟩ := hcw
  obtain ⟨rfl, rfl⟩ : W = W' ∧ r = r' := by cases W <;> cases W' <;> cases he <;> exact ⟨rfl, rfl⟩
  have := setupWord_facts W r
  exact ⟨by rw [State.width, hcw, if_pos this.1, this.2], by rw [hcw, cwRounds_commandWord], by rw [hcw, this.1]⟩

/-- A SETUP whose checks pass: CHECK, KX_LOAD, KX_INIT, the mixing loop, RESPOND (R36, R143). It ends as the atomic
command does, and drives the micro-operations of R244. -/
theorem goes_setup {s : State} {W : Width} {r : BitVec 8} {ds : List Byte} (hp : s.seq.phase = .check)
    (hd : decodeCommand s.port.cw s.len = .ok (setupInstr W r)) (hc : setupCheck W s = none)
    (hk : memReadKeybuf s 0 s.key.klen.toNat = some ds) (h1 : 1 ≤ s.key.klen.toNat) :
    Goes (4 + mixCount (subkeyCount r) (keyWordCount W s)) s
      (respond [] (installEngine W r (mixCount (subkeyCount r) (keyWordCount W s)) (expandKey W r ds) s))
      (List.replicate (keyWordCount W s) Instr.rdw ++ ([.pw, .qw] ++ List.replicate (subkeyCount r - 1) .addw ++
        [.zero, .zero]) ++
        (List.replicate (mixCount (subkeyCount r) (keyWordCount W s)) [Instr.mixs, Instr.mixl]).flatten) := by
  obtain ⟨rfl, rfl, _⟩ := setup_decoded hd
  have hm := (setupCheck_none.1 hc).2
  have hcp : 0 < keyWordCount s.width s :=
    Nat.div_pos (Nat.le_of_dvd (by omega) (Nat.dvd_of_mod_eq_zero hm)) (bytes_pos _)
  have hcc : commandCheck (setupInstr s.width (cwRounds s.port.cw)) s = none := by
    rw [← hc]
    cases s.width <;> rfl
  have g₁ := goes_check hp (checkVisit_passes hd hcc)
  have hs₁ : (startBlocks (setupInstr s.width (cwRounds s.port.cw))
      { s with verdict := Verdict.ok, resp := { s.resp with payload := [] } }).toPhase
        (firstPhase (setupInstr s.width (cwRounds s.port.cw)) s) =
      ({ s with verdict := Verdict.ok, resp := { s.resp with payload := [] } } : State).toPhase .kxLoad := by
    cases s.width <;> rfl
  rw [hs₁] at g₁
  obtain ⟨d, g₂⟩ := goes_expand
    (s := ({ s with verdict := Verdict.ok, resp := { s.resp with payload := [] } } : State).toPhase .kxLoad) rfl hk rfl rfl
    hcp
  have g₃ := goes_respond (s :=
    (({ s with verdict := Verdict.ok, resp := { s.resp with payload := [] } } : State).toPhase .kxLoad).expanded ds d) rfl
  have g := (g₁.trans g₂).trans g₃
  rw [List.nil_append, List.append_nil] at g
  have hn : ∀ m, 1 + (2 + m) + 1 = 4 + m := fun m => by omega
  rw [hn] at g
  exact g

/-! ### ENCODE and DECODE -/

/-- The machine with a block in its working registers, in phase `p` of round `n`. -/
def State.inRound (s : State) {w : Nat} (x : BitVec w × BitVec w) (d : Datapath) (n : Nat) (p : Phase) : State :=
  { s.withPair x d with seq := { s.seq with RND := n, phase := p } }

@[simp] theorem toWord_inRound_A (s : State) (W : Width) (x : BitVec W.bits × BitVec W.bits) (d : Datapath) (n : Nat)
    (p : Phase) : toWord W.bits (s.inRound x d n p).work.A = x.1 := toWord_ofWord W x.1

@[simp] theorem toWord_inRound_B (s : State) (W : Width) (x : BitVec W.bits × BitVec W.bits) (d : Datapath) (n : Nat)
    (p : Phase) : toWord W.bits (s.inRound x d n p).work.B = x.2 := toWord_ofWord W x.2

/-- A visit of ENC_ROUND, the width written apart. -/
theorem visit_encRound_at {s : State} {W : Width} (hw : s.width = W) (hp : s.seq.phase = .encRound)
    (h : 2 * s.seq.RND + 1 < s.eng.S.length) :
    ∃ d, visit s =
      .next
        (s.inRound (encodeRound W s.eng.S s.seq.RND (toWord W.bits s.work.A, toWord W.bits s.work.B)) d (s.seq.RND + 1)
          (if s.seq.RND + 1 ≤ s.eng.rounds.toNat then .encRound else .blkWrite)) := by
  subst hw
  exact visit_encRound hp h

/-- A visit of DEC_ROUND, the width written apart. -/
theorem visit_decRound_at {s : State} {W : Width} (hw : s.width = W) (hp : s.seq.phase = .decRound)
    (h : 2 * s.seq.RND + 1 < s.eng.S.length) :
    ∃ d, visit s =
      .next
        (s.inRound (decodeRound W s.eng.S s.seq.RND (toWord W.bits s.work.A, toWord W.bits s.work.B)) d (s.seq.RND - 1)
          (if 1 ≤ s.seq.RND - 1 then .decRound else .decPost)) := by
  subst hw
  exact visit_decRound hp h

/-- A visit of ENC_PRE, the width written apart. -/
theorem visit_encPre_at {s : State} {W : Width} (hw : s.width = W) (hp : s.seq.phase = .encPre)
    (h : 2 ≤ s.eng.S.length) :
    ∃ d, visit s =
      .next
        (s.inRound
          (addWord (toWord W.bits s.work.A) (subkeyWord W s.eng.S 0),
            addWord (toWord W.bits s.work.B) (subkeyWord W s.eng.S 1)) d 1
          (if 1 ≤ s.eng.rounds.toNat then .encRound else .blkWrite)) := by
  subst hw
  exact visit_encPre hp h

/-- A visit of DEC_POST, the width written apart. -/
theorem visit_decPost_at {s : State} {W : Width} (hw : s.width = W) (hp : s.seq.phase = .decPost)
    (h : 2 ≤ s.eng.S.length) :
    ∃ d, visit s =
      .next
        (s.inRound
          (subWord (toWord W.bits s.work.A) (subkeyWord W s.eng.S 0),
            subWord (toWord W.bits s.work.B) (subkeyWord W s.eng.S 1)) d s.seq.RND .blkWrite) := by
  subst hw
  exact visit_decPost hp h

/-- The machine with `bytes` emitted and `k` blocks done, block `x` in its working registers. -/
def State.emitted (s : State) {w : Nat} (x : BitVec w × BitVec w) (d : Datapath) (bytes : List Byte) (n k : Nat)
    (p : Phase) : State :=
  { s.withPair x d with
    resp := { s.resp with payload := bytes }
    seq := { s.seq with RND := n, BLK := k, phase := p } }

/-- The phase after `k` blocks (R36). -/
def State.afterBlock (s : State) (k : Nat) : Phase := if k * s.width.block < s.len then .blkRead else .respond

/-- A visit of BLK_WRITE, the width written apart. -/
theorem visit_blkWrite_at {s : State} {W : Width} (hw : s.width = W) (hp : s.seq.phase = .blkWrite) :
    ∃ d, visit s =
      .next
        { s with
          resp := { s.resp with payload := s.resp.payload ++ blockBytes W (toWord W.bits s.work.A, toWord W.bits s.work.B) }
          seq := { s.seq with BLK := s.seq.BLK + 1, phase := s.afterBlock (s.seq.BLK + 1) }
          dp := d } := by
  subst hw
  exact visit_blkWrite hp

/-- The encode rounds that are left, from round `i` on (R174). -/
theorem goes_encRounds (s : State) (hS : s.eng.S.length = 2 * (s.eng.rounds.toNat + 1)) (n : Nat) (i : Nat)
    (hi : i + n = s.eng.rounds.toNat + 1) (x : BitVec s.width.bits × BitVec s.width.bits) (d : Datapath) :
    ∃ d', Goes n (s.inRound x d i (if i ≤ s.eng.rounds.toNat then .encRound else .blkWrite))
      (s.inRound (encodeRounds s.width s.eng.S n i x) d' (s.eng.rounds.toNat + 1) .blkWrite)
      (List.replicate n [Instr.ehr, Instr.ehr]).flatten := by
  induction n generalizing i x d with
  | zero =>
    refine ⟨d, ?_⟩
    rw [if_neg (by omega), show i = s.eng.rounds.toNat + 1 by omega]
    exact Goes.here _
  | succ n ih =>
    rw [if_pos (by omega)]
    obtain ⟨d₁, hv⟩ := visit_encRound_at (s := s.inRound x d i .encRound) (W := s.width) rfl rfl
      (show 2 * i + 1 < s.eng.S.length by omega)
    rw [toWord_inRound_A, toWord_inRound_B] at hv
    obtain ⟨d₂, g⟩ := ih (i + 1) (by omega) (encodeRound s.width s.eng.S i x) d₁
    refine ⟨d₂, ?_⟩
    rw [List.replicate_succ, List.flatten_cons]
    exact Goes.visit (by simp [State.inRound]) hv rfl g

/-- The decode rounds that are left, from round `n` down (R181). -/
theorem goes_decRounds (s : State) (hS : s.eng.S.length = 2 * (s.eng.rounds.toNat + 1)) (n : Nat)
    (hn : n ≤ s.eng.rounds.toNat) (x : BitVec s.width.bits × BitVec s.width.bits) (d : Datapath) :
    ∃ d', Goes n (s.inRound x d n (if n = 0 then .decPost else .decRound))
      (s.inRound (decodeRounds s.width s.eng.S n x) d' 0 .decPost)
      (List.replicate n [Instr.dhr, Instr.dhr]).flatten := by
  induction n generalizing x d with
  | zero => exact ⟨d, Goes.here _⟩
  | succ n ih =>
    rw [if_neg (by omega)]
    obtain ⟨d₁, hv⟩ := visit_decRound_at (s := s.inRound x d (n + 1) .decRound) (W := s.width) rfl rfl
      (show 2 * (n + 1) + 1 < s.eng.S.length by omega)
    rw [toWord_inRound_A, toWord_inRound_B] at hv
    obtain ⟨d₂, g⟩ := ih (by omega) (decodeRound s.width s.eng.S (n + 1) x) d₁
    refine ⟨d₂, ?_⟩
    rw [List.replicate_succ, List.flatten_cons]
    have hph : (if 1 ≤ (s.inRound x d (n + 1) .decRound).seq.RND - 1 then Phase.decRound else .decPost) =
        if n = 0 then .decPost else .decRound := by
      show (if 1 ≤ n then Phase.decRound else .decPost) = _
      by_cases h0 : n = 0
      · rw [if_neg (by omega), if_pos h0]
      · rw [if_pos (by omega), if_neg h0]
    rw [hph] at hv
    exact Goes.visit (by simp [State.inRound]) hv rfl g

/-- The block that RDB loads (R128). -/
def State.block (s : State) (k : Nat) : BitVec s.width.bits × BitVec s.width.bits :=
  (lePack s.width.bits ((s.port.payload.drop (k * s.width.block)).take s.width.bytes),
    lePack s.width.bits ((s.port.payload.drop (k * s.width.block + s.width.bytes)).take s.width.bytes))

/-- One visit of BLK_WRITE (R130). -/
theorem goes_write (s : State) (x : BitVec s.width.bits × BitVec s.width.bits) (d : Datapath) (n : Nat) :
    ∃ d', Goes 1 (s.inRound x d n .blkWrite)
      (s.emitted x d' (s.resp.payload ++ blockBytes s.width x) n (s.seq.BLK + 1) (s.afterBlock (s.seq.BLK + 1)))
      [.leunpack, .leunpack] := by
  obtain ⟨d', hv⟩ := visit_blkWrite_at (s := s.inRound x d n .blkWrite) (W := s.width) rfl rfl
  rw [toWord_inRound_A, toWord_inRound_B] at hv
  exact ⟨d', Goes.one (by simp [State.inRound]) hv rfl⟩

/-- What follows RDB: ENC_PRE, or the rounds of DECODE (R36). -/
theorem advance_blkRead {s : State} (hp : s.seq.phase = .blkRead) :
    advance s =
      if cwOp s.port.cw = 3 then
        { s with
          seq :=
            { s.seq with
              RND := s.eng.rounds.toNat, phase := if s.eng.rounds.toNat = 0 then .decPost else .decRound } }
      else s.toPhase .encPre := by
  simp only [advance, hp]

/-- One block of ENCODE (R171 to R175). -/
theorem goes_encBlock (s : State) (hp : s.seq.phase = .blkRead) (hcw : cwOp s.port.cw ≠ 3)
    (hS : s.eng.S.length = 2 * (s.eng.rounds.toNat + 1))
    (h : s.seq.BLK * s.width.block + s.width.block ≤ s.len) :
    ∃ d, Goes (3 + s.eng.rounds.toNat) s
      (s.emitted (encodeBlock s.width s.eng.S s.eng.rounds.toNat (s.block s.seq.BLK)) d
        (s.resp.payload ++ blockBytes s.width (encodeBlock s.width s.eng.S s.eng.rounds.toNat (s.block s.seq.BLK)))
        (s.eng.rounds.toNat + 1) (s.seq.BLK + 1) (s.afterBlock (s.seq.BLK + 1)))
      ([.rdb, .addw, .addw] ++ (List.replicate s.eng.rounds.toNat [Instr.ehr, Instr.ehr]).flatten ++
        [.leunpack, .leunpack]) := by
  obtain ⟨d₁, hv₁⟩ := visit_blkRead hp h
  have ha : advance (s.withPair (s.block s.seq.BLK) d₁) = s.inRound (s.block s.seq.BLK) d₁ s.seq.RND .encPre := by
    exact (advance_blkRead (s := s.withPair (s.block s.seq.BLK) d₁) hp).trans (if_neg hcw)
  have g₁ : Goes 1 s (s.inRound (s.block s.seq.BLK) d₁ s.seq.RND .encPre) [.rdb] := by
    refine Goes.one (by rw [hp]; simp) (by rw [hv₁, ← ha]; rfl) ?_
    simp only [program, prepare, hp]
    rfl
  obtain ⟨d₂, hv₂⟩ := visit_encPre_at (s := s.inRound (s.block s.seq.BLK) d₁ s.seq.RND .encPre) (W := s.width) rfl rfl
    (show 2 ≤ s.eng.S.length by omega)
  rw [toWord_inRound_A, toWord_inRound_B] at hv₂
  have g₂ := Goes.one (us := [.addw, .addw]) (by simp [State.inRound]) hv₂ rfl
  obtain ⟨d₃, g₃⟩ := goes_encRounds s hS s.eng.rounds.toNat 1 (Nat.add_comm 1 _)
    (addWord (s.block s.seq.BLK).1 (subkeyWord s.width s.eng.S 0),
      addWord (s.block s.seq.BLK).2 (subkeyWord s.width s.eng.S 1)) d₂
  obtain ⟨d₄, g₄⟩ := goes_write s (encodeBlock s.width s.eng.S s.eng.rounds.toNat (s.block s.seq.BLK)) d₃
    (s.eng.rounds.toNat + 1)
  refine ⟨d₄, ?_⟩
  have g := ((g₁.trans g₂).trans g₃).trans g₄
  have hn : ∀ m, 1 + 1 + m + 1 = 3 + m := fun m => by omega
  rw [hn] at g
  exact g

/-- One block of DECODE (R179 to R182). -/
theorem goes_decBlock (s : State) (hp : s.seq.phase = .blkRead) (hcw : cwOp s.port.cw = 3)
    (hS : s.eng.S.length = 2 * (s.eng.rounds.toNat + 1))
    (h : s.seq.BLK * s.width.block + s.width.block ≤ s.len) :
    ∃ d, Goes (3 + s.eng.rounds.toNat) s
      (s.emitted (decodeBlock s.width s.eng.S s.eng.rounds.toNat (s.block s.seq.BLK)) d
        (s.resp.payload ++ blockBytes s.width (decodeBlock s.width s.eng.S s.eng.rounds.toNat (s.block s.seq.BLK)))
        0 (s.seq.BLK + 1) (s.afterBlock (s.seq.BLK + 1)))
      ([.rdb] ++ (List.replicate s.eng.rounds.toNat [Instr.dhr, Instr.dhr]).flatten ++
        [.subw, .subw, .leunpack, .leunpack]) := by
  obtain ⟨d₁, hv₁⟩ := visit_blkRead hp h
  have ha : advance (s.withPair (s.block s.seq.BLK) d₁) =
      s.inRound (s.block s.seq.BLK) d₁ s.eng.rounds.toNat
        (if s.eng.rounds.toNat = 0 then .decPost else .decRound) := by
    exact (advance_blkRead (s := s.withPair (s.block s.seq.BLK) d₁) hp).trans (if_pos hcw)
  have g₁ : Goes 1 s (s.inRound (s.block s.seq.BLK) d₁ s.eng.rounds.toNat
      (if s.eng.rounds.toNat = 0 then .decPost else .decRound)) [.rdb] := by
    refine Goes.one (by rw [hp]; simp) (by rw [hv₁, ← ha]; rfl) ?_
    simp only [program, prepare, hp]
    rfl
  obtain ⟨d₂, g₂⟩ := goes_decRounds s hS s.eng.rounds.toNat (Nat.le_refl _) (s.block s.seq.BLK) d₁
  obtain ⟨d₃, hv₃⟩ := visit_decPost_at
    (s := s.inRound (decodeRounds s.width s.eng.S s.eng.rounds.toNat (s.block s.seq.BLK)) d₂ 0 .decPost) (W := s.width) rfl
    rfl (show 2 ≤ s.eng.S.length by omega)
  rw [toWord_inRound_A, toWord_inRound_B] at hv₃
  have g₃ := Goes.one (us := [.subw, .subw]) (by simp [State.inRound]) hv₃ rfl
  obtain ⟨d₄, g₄⟩ := goes_write s (decodeBlock s.width s.eng.S s.eng.rounds.toNat (s.block s.seq.BLK)) d₃ 0
  refine ⟨d₄, ?_⟩
  have g := (g₁.trans g₂).trans (g₃.trans g₄)
  have hn : ∀ m, 1 + m + (1 + 1) = 3 + m := fun m => by omega
  rw [hn] at g
  have hu : ([Instr.rdb] ++ (List.replicate s.eng.rounds.toNat [Instr.dhr, Instr.dhr]).flatten) ++
      ([Instr.subw, .subw] ++ [.leunpack, .leunpack]) =
      [.rdb] ++ (List.replicate s.eng.rounds.toNat [Instr.dhr, Instr.dhr]).flatten ++
        [.subw, .subw, .leunpack, .leunpack] := rfl
  rw [hu] at g
  exact g

/-- The blocks that are left, from block `k` on (R171, R179), for a block function `f` whose one block takes `v` visits and drives
`us`. -/
theorem goes_blocks {s : State} {v rnd : Nat} {us : List Instr}
    {f : BitVec s.width.bits × BitVec s.width.bits → BitVec s.width.bits × BitVec s.width.bits}
    (hf : ∀ (A B : Slot) (d : Datapath) (bytes : List Byte) (R k : Nat),
      k * s.width.block + s.width.block ≤ s.len →
      ∃ d', Goes v
        { s with
          work := { s.work with A := A, B := B }
          dp := d
          resp := { s.resp with payload := bytes }
          seq := { s.seq with RND := R, BLK := k, phase := .blkRead } }
        (s.emitted (f (s.block k)) d' (bytes ++ blockBytes s.width (f (s.block k))) rnd (k + 1) (s.afterBlock (k + 1))) us)
    (n k : Nat) (hk : s.len = (k + (n + 1)) * s.width.block) (A B : Slot) (d : Datapath) (bytes : List Byte) (R : Nat) :
    ∃ d' x, ((List.range' k (n + 1)).map fun i => f (s.block i)).getLast? = some x ∧
      Goes ((n + 1) * v)
        { s with
          work := { s.work with A := A, B := B }
          dp := d
          resp := { s.resp with payload := bytes }
          seq := { s.seq with RND := R, BLK := k, phase := .blkRead } }
        (s.emitted x d' (bytes ++ ((List.range' k (n + 1)).map fun i => f (s.block i)).flatMap (blockBytes s.width)) rnd
          (k + (n + 1)) .respond)
        (List.replicate (n + 1) us).flatten := by
  have hb := block_pos s.width
  induction n generalizing k A B d bytes R with
  | zero =>
    obtain ⟨d', g⟩ := hf A B d bytes R k (by rw [hk, Nat.zero_add, Nat.add_mul, Nat.one_mul])
    refine ⟨d', f (s.block k), rfl, ?_⟩
    have hph : s.afterBlock (k + 1) = .respond := by
      rw [State.afterBlock, if_neg (by rw [hk]; exact Nat.lt_irrefl _)]
    rw [hph] at g
    simpa using g
  | succ n ih =>
    have hlt : (k + 1) * s.width.block < s.len := by
      rw [hk]
      exact Nat.mul_lt_mul_of_pos_right (by omega) hb
    obtain ⟨d', g⟩ := hf A B d bytes R k (by rw [Nat.succ_mul] at hlt; omega)
    have hph : s.afterBlock (k + 1) = .blkRead := by rw [State.afterBlock, if_pos hlt]
    rw [hph] at g
    obtain ⟨d'', x, hx, g'⟩ := ih (k + 1) (by rw [hk]; congr 1; omega) (ofWord (f (s.block k)).1) (ofWord (f (s.block k)).2) d'
      (bytes ++ blockBytes s.width (f (s.block k))) rnd
    refine ⟨d'', x, ?_, ?_⟩
    · rw [List.range'_succ, List.map_cons, List.getLast?_cons, hx]
      rfl
    · rw [List.replicate_succ, List.flatten_cons, List.range'_succ, List.map_cons, List.flatMap_cons, ← List.append_assoc,
        show (n + 1 + 1) * v = v + (n + 1) * v by rw [Nat.succ_mul]; omega,
        show k + (n + 1 + 1) = k + 1 + (n + 1) by omega]
      exact g.trans g'

/-- The blocks of a buffer, one by one (R128). -/
theorem blocksOut_eq (s : State) (f : BitVec s.width.bits × BitVec s.width.bits → BitVec s.width.bits × BitVec s.width.bits)
    {n : Nat} (hn : s.len / s.width.block = n) :
    blocksOut s.width f s.port.payload = (List.range' 0 n).map fun i => f (s.block i) := by
  apply List.ext_getElem?
  intro i
  have hl : s.port.payload.length / s.width.block = n := hn
  rw [blocksOut, hl, List.getElem?_map, List.getElem?_map]
  by_cases hi : i < n
  · rw [readBlocks_getElem? _ _ _ _ hi, List.getElem?_range' hi, Nat.zero_add, Nat.one_mul]
    rfl
  · rw [List.getElem?_eq_none (by rw [readBlocks_length]; omega),
      List.getElem?_eq_none (by rw [List.length_range']; omega)]
    rfl

/-- An ENCODE or a DECODE whose checks pass (R36, R171, R179): CHECK, the blocks, RESPOND. It ends as the atomic command
does, for a block function `f` whose one block takes `3 + r` visits and drives `us`. -/
theorem goes_transform {s : State} {i : Instr} (hi : i = .encode ∨ i = .decode) (hp : s.seq.phase = .check)
    (hd : decodeCommand s.port.cw s.len = .ok i) (hc : transformCheck s = none) (hw : s.width = s.eng.wsel) {rnd : Nat}
    {us : List Instr}
    (f : (W : Width) → BitVec W.bits × BitVec W.bits → BitVec W.bits × BitVec W.bits)
    (hf : ∀ u : State, u.seq.phase = .blkRead → u.eng = s.eng → u.port = s.port →
      u.seq.BLK * u.width.block + u.width.block ≤ u.len →
      ∃ d, Goes (3 + s.eng.rounds.toNat) u
        (u.emitted (f u.width (u.block u.seq.BLK)) d
          (u.resp.payload ++ blockBytes u.width (f u.width (u.block u.seq.BLK))) rnd (u.seq.BLK + 1)
          (u.afterBlock (u.seq.BLK + 1))) us) :
    Goes (2 + s.len / s.eng.wsel.block * (3 + s.eng.rounds.toNat)) s
      (respond (bytesOut s.eng.wsel (f s.eng.wsel) s.port.payload)
        (transformScratch s.eng.wsel rnd (blocksOut s.eng.wsel (f s.eng.wsel) s.port.payload) s))
      (List.replicate (s.len / s.eng.wsel.block) us).flatten := by
  have hm := (transformCheck_none.1 hc).2
  rw [← hw] at hm ⊢
  have hcc : commandCheck i s = none := by rcases hi with rfl | rfl <;> exact hc
  have g₁ := goes_check hp (checkVisit_passes hd hcc)
  have hs₁ : (startBlocks i { s with verdict := Verdict.ok, resp := { s.resp with payload := [] } }).toPhase
        (firstPhase i s) =
      { s with
        verdict := Verdict.ok
        resp := { s.resp with payload := [] }
        seq := { s.seq with BLK := 0, phase := if 0 < s.len then .blkRead else .respond } } := by
    rcases hi with rfl | rfl <;> rfl
  rw [hs₁] at g₁
  have hlen : s.len = s.len / s.width.block * s.width.block := (Nat.div_mul_cancel (Nat.dvd_of_mod_eq_zero hm)).symm
  generalize hn : s.len / s.width.block = n at hlen ⊢
  rw [bytesOut, blocksOut_eq s (f s.width) hn]
  cases n with
  | zero =>
    rw [if_neg (by omega)] at g₁
    have g₂ := goes_respond (s :=
      { s with
        verdict := Verdict.ok
        resp := { s.resp with payload := [] }
        seq := { s.seq with BLK := 0, phase := .respond } }) rfl
    have g := g₁.trans g₂
    rw [Nat.zero_mul]
    exact g
  | succ n =>
    rw [if_pos (by rw [hlen]; exact Nat.mul_pos (Nat.succ_pos _) (block_pos _))] at g₁
    obtain ⟨d, x, hx, g₂⟩ := goes_blocks (s := { s with verdict := Verdict.ok }) (v := 3 + s.eng.rounds.toNat) (rnd := rnd)
      (us := us) (f := f s.width)
      (fun A B d bytes R k hk => hf
        { s with
          verdict := Verdict.ok
          work := { s.work with A := A, B := B }
          dp := d
          resp := { s.resp with payload := bytes }
          seq := { s.seq with RND := R, BLK := k, phase := .blkRead } } rfl rfl rfl hk)
      n 0 (by rw [Nat.zero_add]; exact hlen) s.work.A s.work.B s.dp [] s.seq.RND
    have g₃ := goes_respond (s := ({ s with verdict := Verdict.ok } : State).emitted x d
      ([] ++ ((List.range' 0 (n + 1)).map fun i => f s.width (s.block i)).flatMap (blockBytes s.width)) rnd (0 + (n + 1))
      .respond) rfl
    have g := (g₁.trans g₂).trans g₃
    have ht : transformScratch s.width rnd ((List.range' 0 (n + 1)).map fun i => f s.width (s.block i)) s =
        { s with
          work := { s.work with A := ofWord x.1, B := ofWord x.2 }
          seq := { s.seq with RND := rnd, BLK := n + 1 } } := by
      unfold transformScratch
      have hx' : ((List.range' 0 (n + 1)).map fun i => f s.width (s.block i)).getLast? = some x := hx
      rw [hx', List.length_map, List.length_range']
      rfl
    rw [ht, show 2 + (n + 1) * (3 + s.eng.rounds.toNat) = 1 + (n + 1) * (3 + s.eng.rounds.toNat) + 1 by omega]
    rw [List.nil_append, List.append_nil, List.nil_append, Nat.zero_add] at g
    exact g

/-- An ENCODE's or a DECODE's command word names no width, so the engine's is in use (R21). -/
theorem transform_decoded {s : State} :
    (decodeCommand s.port.cw s.len = .ok .encode → s.width = s.eng.wsel ∧ cwOp s.port.cw ≠ 3) ∧
      (decodeCommand s.port.cw s.len = .ok .decode → s.width = s.eng.wsel ∧ cwOp s.port.cw = 3) := by
  constructor
  · intro hd
    have hcw : s.port.cw = 0x0200 := by
      rcases decodeCommand_ok hd with ⟨h, _⟩ | ⟨_, h⟩ | ⟨h, _⟩ | ⟨W, r, h, _⟩
      · cases h
      · exact h
      · cases h
      · cases W <;> cases h
    rw [State.width, hcw]
    exact ⟨rfl, by decide⟩
  · intro hd
    have hcw : s.port.cw = 0x0300 := by
      rcases decodeCommand_ok hd with ⟨h, _⟩ | ⟨h, _⟩ | ⟨_, h⟩ | ⟨W, r, h, _⟩
      · cases h
      · cases h
      · exact h
      · cases W <;> cases h
    rw [State.width, hcw]
    exact ⟨rfl, by decide⟩

theorem goes_encode {s : State} (hp : s.seq.phase = .check) (hd : decodeCommand s.port.cw s.len = .ok .encode)
    (hc : transformCheck s = none) (hS : s.eng.S.length = subkeyCount s.eng.rounds) :
    ∃ t, execEncode s = .next t ∧ Goes (2 + s.len / s.eng.wsel.block * (3 + s.eng.rounds.toNat)) s t
      (List.replicate (s.len / s.eng.wsel.block)
        ([.rdb, .addw, .addw] ++ (List.replicate s.eng.rounds.toNat [Instr.ehr, Instr.ehr]).flatten ++
          [.leunpack, .leunpack])).flatten := by
  obtain ⟨hw, hcw⟩ := transform_decoded.1 hd
  refine ⟨_, transform_succeeds hc (fun h => by omega), ?_⟩
  refine goes_transform (.inl rfl) hp hd hc hw (fun W => encodeBlock W s.eng.S s.eng.rounds.toNat) ?_
  intro u hu he hpo hle
  have := goes_encBlock u hu (by rw [hpo]; exact hcw) (by rw [he]; exact hS) hle
  rwa [he] at this

theorem goes_decode {s : State} (hp : s.seq.phase = .check) (hd : decodeCommand s.port.cw s.len = .ok .decode)
    (hc : transformCheck s = none) (hS : s.eng.S.length = subkeyCount s.eng.rounds) :
    ∃ t, execDecode s = .next t ∧ Goes (2 + s.len / s.eng.wsel.block * (3 + s.eng.rounds.toNat)) s t
      (List.replicate (s.len / s.eng.wsel.block)
        ([.rdb] ++ (List.replicate s.eng.rounds.toNat [Instr.dhr, Instr.dhr]).flatten ++
          [.subw, .subw, .leunpack, .leunpack])).flatten := by
  obtain ⟨hw, hcw⟩ := transform_decoded.2 hd
  refine ⟨_, transform_succeeds hc (fun h => by omega), ?_⟩
  refine goes_transform (.inr rfl) hp hd hc hw (fun W => decodeBlock W s.eng.S s.eng.rounds.toNat) ?_
  intro u hu he hpo hle
  have := goes_decBlock u hu (by rw [hpo]; exact hcw) (by rw [he]; exact hS) hle
  rwa [he] at this

/-! ### Every command -/

/-- A key that the invariant speaks of is there to be read (R35 (b)). -/
theorem keyReady_of_inv {s : State} (h : Inv s) (hv : s.key.valid = true) : KeyReady s := by
  obtain ⟨h1, h2, h3⟩ := h.key hv
  refine ⟨hv, h1, h2, ?_⟩
  intro k hk
  rw [Memory.read_isSome_iff, h3]
  exact List.mem_range.2 hk

/-- A key that is there to be read is read whole. -/
theorem memReadKeybuf_of_keyReady {s : State} (h : KeyReady s) :
    ∃ ds, memReadKeybuf s 0 s.key.klen.toNat = some ds ∧ ds.length = s.key.klen.toNat ∧
      ∀ k, k < s.key.klen.toNat → Memory.read s.key.keybuf k = ds[k]? := by
  obtain ⟨ds, hds⟩ := Memory.readBytes_isSome s.key.keybuf 0 s.key.klen.toNat (by simpa using h.2.2.2)
  have := (Memory.readBytes_eq_some_iff _ _ _ _).1 hds
  exact ⟨ds, hds, this.1, by simpa using this.2⟩

/-- What a command leaves does not depend on the phase it is run in: it ends in IDLE. -/
theorem respond_scratch_toPhase (W : Width) (n : Nat) (bs : List (BitVec W.bits × BitVec W.bits)) (u : State) (p : Phase)
    (bytes : List Byte) :
    respond bytes (transformScratch W n bs (u.toPhase p)) = respond bytes (transformScratch W n bs u) := by
  unfold transformScratch
  cases bs.getLast? <;> rfl

theorem transform_toPhase (n : Nat)
    (f : (W : Width) → List Slot → Nat → BitVec W.bits × BitVec W.bits → BitVec W.bits × BitVec W.bits) (u : State)
    (p : Phase) : transform n f (u.toPhase p) = transform n f u := by
  cases hc : transformCheck u with
  | some v => rw [transform_fails hc, transform_fails (s := u.toPhase p) hc]; rfl
  | none =>
    by_cases hs : 0 < u.len ∧ u.eng.S.length < subkeyCount u.eng.rounds
    · have h1 : transform n f u = .fault .subkeyNoValue := by simp only [transform, hc, if_pos hs]
      have hc' : transformCheck (u.toPhase p) = none := hc
      have hs' : 0 < (u.toPhase p).len ∧ (u.toPhase p).eng.S.length < subkeyCount (u.toPhase p).eng.rounds := hs
      rw [h1]
      simp only [transform, hc', if_pos hs']
    · rw [transform_succeeds hc hs, transform_succeeds (s := u.toPhase p) hc hs]
      exact congrArg _ (respond_scratch_toPhase _ _ _ _ _ _)

theorem runCommand_toPhase (u : State) (p : Phase) : runCommand (u.toPhase p) = runCommand u := by
  cases hd : decodeCommand u.port.cw u.len with
  | error e => rw [runCommand_error hd, runCommand_error (s := u.toPhase p) hd]; rfl
  | ok i =>
    rw [runCommand_ok hd, runCommand_ok (s := u.toPhase p) hd]
    rcases decodeCommand_instr hd with rfl | rfl | rfl | ⟨W, r, rfl⟩
    · show execKey _ = execKey _
      cases hk : keyCheck u with
      | some v => rw [execKey_fails hk, execKey_fails (s := u.toPhase p) hk]; rfl
      | none => rw [execKey_succeeds hk, execKey_succeeds (s := u.toPhase p) hk]; rfl
    · exact transform_toPhase _ _ _ _
    · exact transform_toPhase _ _ _ _
    · rw [exec_setupInstr, exec_setupInstr]
      cases hc : setupCheck W u with
      | some v => rw [setup_fails hc, setup_fails (s := u.toPhase p) hc]; rfl
      | none =>
        cases hk : memReadKeybuf u 0 u.key.klen.toNat with
        | none =>
          have hc' : setupCheck W (u.toPhase p) = none := hc
          have hk' : memReadKeybuf (u.toPhase p) 0 (u.toPhase p).key.klen.toNat = none := hk
          simp only [setup, hc, hk, hc', hk']
        | some ds => rw [setup_succeeds hc hk, setup_succeeds (s := u.toPhase p) hc hk]; rfl

theorem commandCheck_setupInstr (W : Width) (r : BitVec 8) (s : State) :
    commandCheck (setupInstr W r) s = setupCheck W s := by cases W <;> rfl

theorem successVisits_setupInstr (W : Width) (r : BitVec 8) (s : State) :
    successVisits (setupInstr W r) s = 4 + mixCount (subkeyCount r) (keyWordCount W s) := by cases W <;> rfl

theorem visitCount_error {s : State} {e : DecodeError} (h : decodeCommand s.port.cw s.len = .error e) :
    visitCount s = 2 := by
  simp only [visitCount, h]

theorem visitCount_fails {s : State} {i : Instr} {v : Verdict} (h : decodeCommand s.port.cw s.len = .ok i)
    (hc : commandCheck i s = some v) : visitCount s = 2 := by
  simp only [visitCount, h, hc]
  rfl

theorem visitCount_passes {s : State} {i : Instr} (h : decodeCommand s.port.cw s.len = .ok i)
    (hc : commandCheck i s = none) : visitCount s = successVisits i s := by
  simp only [visitCount, h, hc]
  rfl

/-- Every command at CHECK, of a state that meets the invariant, answers a next state, and its visits lead there. -/
theorem command_goes {s : State} (hp : s.seq.phase = .check) (hInv : Inv s) :
    ∃ t us, runCommand s = .next t ∧ Goes (visitCount s) s t us := by
  cases hd : decodeCommand s.port.cw s.len with
  | error e =>
    rw [visitCount_error hd]
    exact ⟨_, _, runCommand_error hd, goes_fail hp (checkVisit_error hd)⟩
  | ok i =>
    rw [runCommand_ok hd]
    cases hc : commandCheck i s with
    | some v =>
      have hex : exec i s = .next (raise v s) := by
        rcases decodeCommand_instr hd with rfl | rfl | rfl | ⟨W, r, rfl⟩
        · exact execKey_fails hc
        · exact transform_fails hc
        · exact transform_fails hc
        · rw [commandCheck_setupInstr] at hc
          rw [exec_setupInstr, setup_fails hc]
      rw [visitCount_fails hd hc]
      exact ⟨_, _, hex, goes_fail hp (checkVisit_fails hd hc)⟩
    | none =>
      rw [visitCount_passes hd hc]
      rcases decodeCommand_instr hd with rfl | rfl | rfl | ⟨W, r, rfl⟩
      · exact ⟨_, _, execKey_succeeds hc, goes_key hp hd hc⟩
      · obtain ⟨t, h1, h2⟩ := goes_encode hp hd hc (hInv.engine (transformCheck_none.1 hc).1)
        exact ⟨t, _, h1, h2⟩
      · obtain ⟨t, h1, h2⟩ := goes_decode hp hd hc (hInv.engine (transformCheck_none.1 hc).1)
        exact ⟨t, _, h1, h2⟩
      · rw [commandCheck_setupInstr] at hc
        have hK := keyReady_of_inv hInv (setupCheck_none.1 hc).1
        obtain ⟨ds, hds, _⟩ := memReadKeybuf_of_keyReady hK
        rw [exec_setupInstr, setup_succeeds hc hds, successVisits_setupInstr]
        exact ⟨_, _, rfl, goes_setup hp hd hc hds hK.2.1⟩

/-! ### Counting -/

theorem count_flatten_replicate (n : Nat) (l : List Instr) (x : Instr) :
    (List.replicate n l).flatten.count x = n * l.count x := by
  rw [List.count_flatten, List.map_replicate, List.sum_replicate]
  rfl

theorem flatMap_flatten_replicate (n : Nat) (l : List Instr) (f : Instr → List Instr) :
    (List.replicate n l).flatten.flatMap f = (List.replicate n (l.flatMap f)).flatten := by
  induction n with
  | zero => rfl
  | succ n ih => simp [List.replicate_succ, ih]

end Sys2Proof.Machine
end

