-- ==== Sys2Proof/Laws/Invariant.lean ====
section
/-! SUPPORT. The invariant, visit by visit and command by command: each is met again, and none meets a fault. -/

namespace Sys2Proof.Machine

/-- The invariant looks at no word's value: what a micro-operation leaves alone is enough to keep it. -/
theorem Inv.of_frame {s t : State} (h : Inv s) (hk : t.key = s.key) (hq : t.seq = s.seq)
    (hr : t.resp.status = s.resp.status) (hp : t.port = s.port) (hv : t.verdict = s.verdict)
    (he : t.eng.state = s.eng.state) (hw : t.eng.wsel = s.eng.wsel) (hn : t.eng.rounds = s.eng.rounds)
    (hS : t.eng.S.length = s.eng.S.length) (hL : t.work.L.length = s.work.L.length) : Inv t := by
  have hW : t.width = s.width := by simp only [State.width, hp, hw]
  have hl : t.len = s.len := by simp only [State.len, hp]
  have hT : TransformInProgress s → TransformInProgress t := by
    rintro ⟨a, b, c, d⟩
    exact ⟨by rw [hp]; exact a, by rw [he]; exact b, by rw [hl, hw]; exact c, by rw [hl, hw, hq]; exact d⟩
  have hU : SetupInProgress s → SetupInProgress t := by
    rintro ⟨a, b, c⟩
    exact ⟨by rw [hp]; exact a, by rw [hk]; exact b, by rw [hk, hW]; exact c⟩
  have hc : keyWordCount t.width t = keyWordCount s.width s := by rw [keyWordCount, keyWordCount, hW, hk]
  refine ⟨by rw [hk]; exact h.keybufCanonical, by rw [hk]; exact h.key, ?_, by rw [hr]; exact h.response,
    by rw [hv]; exact h.verdict, by rw [hp]; exact h.delivered, ?_⟩
  · rw [he, hn, hS]
    exact h.engine
  · have hph := h.phase
    unfold PhaseInv at hph ⊢
    rw [hq, hp, hc, hn, hl, he, hS, hL]
    split at hph <;> simp only at hph ⊢
    · exact hph
    · exact hU hph
    · exact ⟨hU hph.1, hph.2⟩
    · exact ⟨hU hph.1, hph.2⟩
    · exact hT hph
    · exact hT hph
    · exact ⟨hT hph.1, hph.2⟩
    · exact ⟨hT hph.1, hph.2⟩
    · exact hT hph
    · exact hT hph

/-- A micro-operation keeps the invariant (R85). -/
theorem Inv.micro {s t : State} {i : Instr} (hi : IsMicro i) (h : Inv s) (hx : exec i s = .next t) : Inv t := by
  obtain ⟨h1, h2, h3, h4, h5, _, h7, h8, h9, h10, h11⟩ := exec_micro_frame hi hx
  exact h.of_frame h1 h2 (by rw [h3]) h4 h5 h7 h8 h9 h10 h11

/-! ### Commands -/

theorem ok_ne_internal : Verdict.ok.status ≠ .internal := by decide

theorem settle_ne_internal (s : State) : (settle s).status ≠ .internal := by
  unfold settle
  split
  · decide
  · rename_i i hd
    cases hc : commandCheck i s with
    | none => decide
    | some v =>
      rcases decodeCommand_instr hd with rfl | rfl | rfl | ⟨W, r, rfl⟩
      · rw [(keyCheck_some hc).2]
        simp
      · rcases transformCheck_some hc with ⟨_, rfl⟩ | ⟨_, _, rfl⟩ <;> simp
      · rcases transformCheck_some hc with ⟨_, rfl⟩ | ⟨_, _, rfl⟩ <;> simp
      · rw [commandCheck_setupInstr] at hc
        rcases setupCheck_some hc with ⟨_, rfl⟩ | ⟨_, _, rfl⟩ <;> simp

/-- The verdict that a failing command raises is never `Internal` (R204). -/
theorem runCommand_raises {s t : State} (h : runCommand s = .next t) (ho : t.resp.status ≠ .ok) :
    t = raise (settle s) s := by
  rcases runCommand_cases h with ⟨e, he, rfl⟩ | ⟨i, hd, hx⟩
  · simp only [settle, he]
  · rcases decodeCommand_instr hd with rfl | rfl | rfl | ⟨W, r, rfl⟩
    · rcases execKey_cases hx with ⟨v, hv, rfl⟩ | ⟨_, rfl⟩
      · simp only [settle, hd, commandCheck, hv, Option.getD_some]
      · exact absurd rfl ho
    · rcases transform_cases hx with ⟨v, hv, rfl⟩ | ⟨_, _, rfl⟩
      · simp only [settle, hd, commandCheck, hv, Option.getD_some]
      · exact absurd rfl ho
    · rcases transform_cases hx with ⟨v, hv, rfl⟩ | ⟨_, _, rfl⟩
      · simp only [settle, hd, commandCheck, hv, Option.getD_some]
      · exact absurd rfl ho
    · rw [exec_setupInstr] at hx
      rcases setup_cases hx with ⟨v, hv, rfl⟩ | ⟨_, _, _, rfl⟩
      · simp only [settle, hd, commandCheck_setupInstr, hv, Option.getD_some]
      · exact absurd rfl ho

/-- The invariant at the end of a command. -/
theorem Inv.deliver {s : State} (h : Inv s) {v : Verdict} (hv : v.status ≠ .internal) (bytes : List Byte) :
    Inv (deliver v bytes s) := by
  refine ⟨h.keybufCanonical, h.key, h.engine, hv, ok_ne_internal, ?_, trivial⟩
  intro r hr
  rcases List.mem_append.1 hr with hr | hr
  · exact h.delivered r hr
  · rw [List.mem_singleton.1 hr]
    exact hv

/-- A stored key meets what the invariant says of the key slot (R25, R35 (b)). -/
theorem storeKey_key_inv {s : State} (h1 : 1 ≤ s.len) (h2 : s.len ≤ 256) :
    Memory.wf (storeKey s).key.keybuf ∧ Config.keyMin ≤ (storeKey s).key.klen.toNat ∧
      (storeKey s).key.klen.toNat ≤ Config.keyMax ∧
      (storeKey s).key.keybuf.map Prod.fst = List.range (storeKey s).key.klen.toNat := by
  have hk : (storeKey s).key.klen.toNat = s.len := by
    rw [storeKey_key]
    show (BitVec.ofNat 9 s.len).toNat = s.len
    rw [BitVec.toNat_ofNat, Nat.mod_eq_of_lt (by omega)]
  rw [hk]
  exact ⟨Memory.writeBytes_wf _ _ _ List.Pairwise.nil, h1, h2, Memory.writeBytes_nil_keys _⟩

theorem runCommand_inv {s t : State} (h : Inv s) (hx : runCommand s = .next t) : Inv t := by
  rcases runCommand_effects hx with ⟨v, rfl, hv⟩ | ⟨_, hc, rfl⟩ | ⟨W, r, ds, _, _, _, rfl⟩ | ⟨i, n, f, _, _, _, rfl⟩
  · rw [runCommand_raises hx hv]
    exact h.deliver (settle_ne_internal s) []
  · obtain ⟨h1, h2⟩ := keyCheck_none.1 hc
    obtain ⟨a, b, c, d⟩ := storeKey_key_inv h1 h2
    refine ⟨a, fun _ => ⟨b, c, d⟩, h.engine, ok_ne_internal, ok_ne_internal, ?_, trivial⟩
    exact (h.deliver (v := Verdict.ok) ok_ne_internal []).delivered
  · refine ⟨h.keybufCanonical, h.key, fun _ => ?_, ok_ne_internal, ok_ne_internal, ?_, trivial⟩
    · show ((expandKey W r ds).S.map ofWord).length = subkeyCount r
      rw [List.length_map, expandKey_S_length]
    · exact (h.deliver (v := Verdict.ok) ok_ne_internal []).delivered
  · obtain ⟨h1, h2, _, _, _, _, _, h8, _⟩ :=
      transformScratch_frame s.eng.wsel n (blocksOut s.eng.wsel f s.port.payload) s
    refine ⟨?_, ?_, ?_, ok_ne_internal, ok_ne_internal, ?_, trivial⟩
    · show Memory.wf (transformScratch _ _ _ s).key.keybuf
      rw [h1]
      exact h.keybufCanonical
    · show (transformScratch _ _ _ s).key.valid = true → _
      rw [h1]
      intro hv
      show _ ≤ (transformScratch _ _ _ s).key.klen.toNat ∧ (transformScratch _ _ _ s).key.klen.toNat ≤ _ ∧
        (transformScratch _ _ _ s).key.keybuf.map Prod.fst = List.range (transformScratch _ _ _ s).key.klen.toNat
      rw [h1]
      exact h.key hv
    · show (transformScratch _ _ _ s).eng.state = .ready →
        (transformScratch _ _ _ s).eng.S.length = subkeyCount (transformScratch _ _ _ s).eng.rounds
      rw [h2]
      exact h.engine
    · show ∀ r ∈ (transformScratch _ _ _ s).port.outbox ++ [_], r.status ≠ .internal
      rw [h8]
      intro r hr
      rcases List.mem_append.1 hr with hr | hr
      · exact h.delivered r hr
      · rw [List.mem_singleton.1 hr]
        show Status.ok ≠ .internal
        decide

/-- A command never meets a fault (R41). -/
theorem runCommand_next {s : State} (h : Inv s) : ∃ t, runCommand s = .next t := by
  have hi : Inv (s.toPhase .check) :=
    ⟨h.keybufCanonical, h.key, h.engine, h.response, h.verdict, h.delivered, trivial⟩
  obtain ⟨t, _, ht, _⟩ := command_goes (s := s.toPhase .check) rfl hi
  exact ⟨t, by rw [← runCommand_toPhase s .check]; exact ht⟩

/-! ### Visits -/

theorem checkVisit_inv {s : State} (h : Inv s) : Inv (checkVisit s) := by
  have resp : ∀ v : Verdict, v.status ≠ .internal →
      Inv (({ s with verdict := v, resp := { s.resp with payload := [] } } : State).toPhase .respond) :=
    fun v hv => ⟨h.keybufCanonical, h.key, h.engine, h.response, hv, h.delivered, trivial⟩
  have hset := settle_ne_internal s
  cases hd : decodeCommand s.port.cw s.len with
  | error e =>
    rw [checkVisit_error hd]
    simp only [settle, hd] at hset
    exact resp _ hset
  | ok i =>
    cases hc : commandCheck i s with
    | some v =>
      rw [checkVisit_fails hd hc]
      simp only [settle, hd, hc, Option.getD_some] at hset
      exact resp v hset
    | none =>
      rw [checkVisit_passes hd hc]
      have transform : ∀ i, i = .encode ∨ i = .decode → decodeCommand s.port.cw s.len = .ok i → commandCheck i s = none →
          Inv ((startBlocks i { s with verdict := Verdict.ok, resp := { s.resp with payload := [] } }).toPhase
            (firstPhase i s)) := by
        intro i hi hd hc
        have hc' : transformCheck s = none := by rcases hi with rfl | rfl <;> exact hc
        obtain ⟨he, hm⟩ := transformCheck_none.1 hc'
        have hcw : s.port.cw = 0x0200 ∨ s.port.cw = 0x0300 := by
          rcases decodeCommand_ok hd with ⟨h, _⟩ | ⟨_, h⟩ | ⟨_, h⟩ | ⟨W, r, h, _⟩
          · rcases hi with rfl | rfl <;> cases h
          · exact .inl h
          · exact .inr h
          · rcases hi with rfl | rfl <;> cases W <;> cases h
        have hst : (startBlocks i { s with verdict := Verdict.ok, resp := { s.resp with payload := [] } }).toPhase
            (firstPhase i s) =
            { s with
              verdict := Verdict.ok
              resp := { s.resp with payload := [] }
              seq := { s.seq with BLK := 0, phase := if 0 < s.len then .blkRead else .respond } } := by
          rcases hi with rfl | rfl <;> rfl
        rw [hst]
        refine ⟨h.keybufCanonical, h.key, h.engine, h.response, ok_ne_internal, h.delivered, ?_⟩
        by_cases hl : 0 < s.len
        · rw [if_pos hl]
          exact ⟨hcw, he, hm, by rw [Nat.zero_mul]; exact hl⟩
        · rw [if_neg hl]
          exact trivial
      rcases decodeCommand_instr hd with rfl | rfl | rfl | ⟨W, r, rfl⟩
      · exact ⟨h.keybufCanonical, h.key, h.engine, h.response, ok_ne_internal, h.delivered, keyCheck_none.1 hc⟩
      · exact transform _ (.inl rfl) hd hc
      · exact transform _ (.inr rfl) hd hc
      · rw [commandCheck_setupInstr] at hc
        obtain ⟨hv, hm⟩ := setupCheck_none.1 hc
        obtain ⟨hw, _, hs⟩ := setup_decoded hd
        have hst : (startBlocks (setupInstr W r)
            { s with verdict := Verdict.ok, resp := { s.resp with payload := [] } }).toPhase
              (firstPhase (setupInstr W r) s) =
            ({ s with verdict := Verdict.ok, resp := { s.resp with payload := [] } } : State).toPhase .kxLoad := by
          cases W <;> rfl
        rw [hst]
        exact ⟨h.keybufCanonical, h.key, h.engine, h.response, ok_ne_internal, h.delivered,
          ⟨hs, hv, by show s.key.klen.toNat % s.width.bytes = 0; rw [hw]; exact hm⟩⟩

/-- The key words of a SETUP in progress: at least one (R9). -/
theorem keyWordCount_pos {s : State} (h : Inv s) (hs : SetupInProgress s) : 0 < keyWordCount s.width s := by
  obtain ⟨h1, _, _⟩ := h.key hs.2.1
  have h1' : 1 ≤ s.key.klen.toNat := h1
  exact Nat.div_pos (Nat.le_of_dvd (by omega) (Nat.dvd_of_mod_eq_zero hs.2.2)) (bytes_pos _)

/-- A transform in progress uses the engine's width. -/
theorem TransformInProgress.width {s : State} (h : TransformInProgress s) : s.width = s.eng.wsel := by
  rcases h.1 with hcw | hcw <;> rw [State.width, hcw] <;> rfl

/-- The block that is next lies inside the payload. -/
theorem TransformInProgress.block {s : State} (h : TransformInProgress s) :
    s.seq.BLK * s.width.block + s.width.block ≤ s.len := by
  rw [h.width]
  obtain ⟨_, _, hm, hl⟩ := h
  obtain ⟨q, hq⟩ := Nat.dvd_of_mod_eq_zero hm
  rw [hq, Nat.mul_comm] at hl
  have : s.seq.BLK < q := Nat.lt_of_mul_lt_mul_left hl
  rw [hq, Nat.mul_comm _ q, ← Nat.succ_mul]
  exact Nat.mul_le_mul_right _ this

theorem visit_inv {s : State} (h : Inv s) : ∃ t, visit s = .next t ∧ Inv t := by
  have hph := h.phase
  unfold PhaseInv at hph
  have hS : TransformInProgress s → s.eng.S.length = 2 * (s.eng.rounds.toNat + 1) := fun ht => h.engine ht.2.1
  -- a state that differs from `s` only in the working registers, the latches, the output and the counters
  have going : ∀ (w : Working) (d : Datapath) (q : Sequencer) (bytes : List Byte),
      PhaseInv { s with work := w, dp := d, seq := q, resp := { s.resp with payload := bytes } } →
      Inv { s with work := w, dp := d, seq := q, resp := { s.resp with payload := bytes } } :=
    fun w d q bytes hq => ⟨h.keybufCanonical, h.key, h.engine, h.response, h.verdict, h.delivered, hq⟩
  cases hp : s.seq.phase <;> simp only [hp] at hph
  case idle => exact ⟨s, by simp only [visit, hp], h⟩
  case check => exact ⟨checkVisit s, by simp only [visit, hp], checkVisit_inv h⟩
  case keyStore =>
    obtain ⟨a, b, c, d⟩ := storeKey_key_inv hph.1 hph.2
    exact ⟨(storeKey s).toPhase .respond, by simp only [visit, hp],
      ⟨a, fun _ => ⟨b, c, d⟩, h.engine, h.response, h.verdict, h.delivered, trivial⟩⟩
  case respond => exact ⟨Machine.deliver s.verdict s.resp.payload s, by simp only [visit, hp], h.deliver h.verdict _⟩
  case kxLoad =>
    obtain ⟨ds, hds, _⟩ := memReadKeybuf_of_keyReady (keyReady_of_inv h hph.2.1)
    obtain ⟨j, d, hv⟩ := visit_kxLoad hp hds
    refine ⟨_, hv, ⟨h.keybufCanonical, h.key, (fun hx => nomatch hx), h.response, h.verdict, h.delivered,
      ⟨hph, rfl, ?_⟩⟩⟩
    show ((readWords s.width (keyWordCount s.width s) ds).map ofWord).length = keyWordCount s.width s
    rw [List.length_map, readWords_length]
  case kxInit =>
    obtain ⟨hs, he, hL⟩ := hph
    obtain ⟨d, hv⟩ := visit_kxInit hp
    have hpos := keyWordCount_pos h hs
    refine ⟨_, hv, ⟨h.keybufCanonical, h.key, ?_, h.response, h.verdict, h.delivered,
      ⟨hs, he, hL, ?_, subkeyCount_pos _, hpos, mixCount_pos (subkeyCount_pos _)⟩⟩⟩
    · intro hx
      exact nomatch (show EngineState.ready = .uninitialised from hx.symm.trans he)
    · show ((subkeysFrom s.width (pWord s.width) (subkeyCount (cwRounds s.port.cw))).map ofWord).length =
        subkeyCount (cwRounds s.port.cw)
      rw [List.length_map, subkeysFrom_length]
  case kxMix =>
    obtain ⟨hs, he, hL, hSl, hI, hJ, hK⟩ := hph
    have hv := visit_kxMix hp (by rw [hSl]; exact hI) (by rw [hL]; exact hJ)
    refine ⟨_, hv, ?_⟩
    generalize mixSWord (toWord s.width.bits (s.eng.S.getD s.seq.I 0)) s.regA s.regB = a
    generalize mixLWord (toWord s.width.bits (s.work.L.getD s.seq.J 0)) a s.regB = b
    unfold advanceMix
    dsimp only
    split
    · rename_i hlt
      have hpos := keyWordCount_pos h hs
      refine ⟨h.keybufCanonical, h.key, ?_, h.response, h.verdict, h.delivered, ?_⟩
      · intro hx
        exact nomatch (show EngineState.ready = .uninitialised from hx.symm.trans he)
      · unfold PhaseInv
        dsimp only
        rw [hp]
        refine ⟨hs, he, ?_, ?_, Nat.mod_lt _ (subkeyCount_pos _), Nat.mod_lt _ hpos, hlt⟩
        · rw [List.length_set]
          exact hL
        · rw [List.length_set]
          exact hSl
    · refine ⟨h.keybufCanonical, h.key, fun _ => ?_, h.response, h.verdict, h.delivered, trivial⟩
      show (s.eng.S.set _ _).length = _
      rw [List.length_set]
      exact hSl
  case blkRead =>
    obtain ⟨d, hv⟩ := visit_blkRead hp hph.block
    refine ⟨_, hv, ?_⟩
    have hadv := advance_blkRead (s := s.withPair
      (lePack s.width.bits ((s.port.payload.drop (s.seq.BLK * s.width.block)).take s.width.bytes),
        lePack s.width.bits ((s.port.payload.drop (s.seq.BLK * s.width.block + s.width.bytes)).take s.width.bytes)) d) hp
    rw [hadv]
    split
    · refine going _ _ _ s.resp.payload ?_
      by_cases hr : s.eng.rounds.toNat = 0
      · unfold PhaseInv
        simp only [State.withPair_eng, hr, if_true]
        exact hph
      · unfold PhaseInv
        simp only [State.withPair_eng, hr, if_false]
        exact ⟨hph, by show 1 ≤ s.eng.rounds.toNat; omega, Nat.le_refl _⟩
    · exact going _ _ _ s.resp.payload hph
  case encPre =>
    obtain ⟨d, hv⟩ := visit_encPre hp (by rw [hS hph]; omega)
    refine ⟨_, hv, going _ _ _ s.resp.payload ?_⟩
    unfold PhaseInv
    dsimp only
    by_cases hr : 1 ≤ s.eng.rounds.toNat
    · rw [if_pos hr]
      exact ⟨hph, Nat.le_refl 1, hr⟩
    · rw [if_neg hr]
      exact hph
  case encRound =>
    obtain ⟨ht, h1, h2⟩ := hph
    obtain ⟨d, hv⟩ := visit_encRound hp (by rw [hS ht]; omega)
    refine ⟨_, hv, going _ _ _ s.resp.payload ?_⟩
    unfold PhaseInv
    dsimp only
    by_cases hr : s.seq.RND + 1 ≤ s.eng.rounds.toNat
    · rw [if_pos hr]
      exact ⟨ht, Nat.le_add_left 1 _, hr⟩
    · rw [if_neg hr]
      exact ht
  case decRound =>
    obtain ⟨ht, h1, h2⟩ := hph
    obtain ⟨d, hv⟩ := visit_decRound hp (by rw [hS ht]; omega)
    refine ⟨_, hv, going _ _ _ s.resp.payload ?_⟩
    unfold PhaseInv
    dsimp only
    by_cases hr : 1 ≤ s.seq.RND - 1
    · rw [if_pos hr]
      exact ⟨ht, hr, by show s.seq.RND - 1 ≤ s.eng.rounds.toNat; omega⟩
    · rw [if_neg hr]
      exact ht
  case decPost =>
    obtain ⟨d, hv⟩ := visit_decPost hp (by rw [hS hph]; omega)
    exact ⟨_, hv, going _ _ _ s.resp.payload hph⟩
  case blkWrite =>
    obtain ⟨d, hv⟩ := visit_blkWrite hp
    refine ⟨_, hv, going s.work d _ (s.resp.payload ++ blockBytes s.width (s.regA, s.regB)) ?_⟩
    unfold PhaseInv
    by_cases hl : (s.seq.BLK + 1) * s.width.block < s.len
    · simp only [hl, if_true]
      exact ⟨hph.1, hph.2.1, hph.2.2.1, by rw [hph.width] at hl; exact hl⟩
    · simp only [hl, if_false]

/-! ### Around the instructions -/

theorem Inv.withUop {s : State} (h : Inv s) (u : Option (BitVec 5)) : Inv { s with uop := u } :=
  ⟨h.keybufCanonical, h.key, h.engine, h.response, h.verdict, h.delivered, h.phase⟩

theorem Inv.withInbox {s : State} (h : Inv s) (l : List PortEvent) : Inv { s with port := { s.port with inbox := l } } :=
  ⟨h.keybufCanonical, h.key, h.engine, h.response, h.verdict, h.delivered, h.phase⟩

/-- A packet accepted in IDLE keeps the invariant. -/
theorem Inv.accept {s : State} (h : Inv s) (hp : s.seq.phase = .idle) (cw : BitVec 16) (payload : List Byte)
    (rest : List PortEvent) : Inv (s.accept cw payload rest) := by
  refine ⟨h.keybufCanonical, h.key, h.engine, h.response, h.verdict, h.delivered, ?_⟩
  have hp' : (s.accept cw payload rest).seq.phase = .idle := hp
  unfold PhaseInv
  simp only [hp']

theorem Inv.toCheck {s : State} (h : Inv s) : Inv (s.toPhase .check) :=
  ⟨h.keybufCanonical, h.key, h.engine, h.response, h.verdict, h.delivered, trivial⟩

theorem Inv.afterReset {s : State} (h : Inv s) (rest : List PortEvent) : Inv (s.afterReset rest) :=
  ⟨List.Pairwise.nil, (fun hv => nomatch hv), (fun he => nomatch he), ok_ne_internal, ok_ne_internal, h.delivered, trivial⟩

end Sys2Proof.Machine
end

