-- ==== Sys2Proof/Laws/PerInstr.lean ====
section
/-! SUPPORT. The family RowMatch: every instruction's code matches its own row of the opcode table, and no other row's (30_encoding.md
R74, R85). -/

namespace Sys2Proof.Laws.RowMatch

/-- One row of the opcode table: the mask and the match of a command word or of a select code. -/
inductive Row where
  | command (mask pattern : BitVec 16)
  | select (mask pattern : BitVec 5)
deriving DecidableEq, Repr

/-- The rows, in the table's order, with the mnemonics of their instructions. -/
def rows : List (String × Row) :=
  [("KEY", .command 0xFFFF 0x0100), ("ENCODE", .command 0xFFFF 0x0200), ("DECODE", .command 0xFFFF 0x0300),
    ("SETUP.W8", .command 0xFF00 0x0400), ("SETUP.W16", .command 0xFF00 0x0500), ("SETUP.W32", .command 0xFF00 0x0600),
    ("SETUP.W64", .command 0xFF00 0x0700)] ++
  [("ZERO", .select 0x1F 0x00), ("PW", .select 0x1F 0x01), ("QW", .select 0x1F 0x02), ("ADDW", .select 0x1F 0x03),
    ("SUBW", .select 0x1F 0x04), ("XORW", .select 0x1F 0x05), ("ROTL", .select 0x1F 0x06), ("ROTR", .select 0x1F 0x07),
    ("MODW", .select 0x1F 0x08), ("LEPACK", .select 0x1F 0x09), ("LEUNPACK", .select 0x1F 0x0A)] ++
  [("RDW", .select 0x1F 0x0B), ("RDB", .select 0x1F 0x0C), ("MIXS", .select 0x1F 0x0D), ("MIXL", .select 0x1F 0x0E),
    ("EHR", .select 0x1F 0x0F), ("DHR", .select 0x1F 0x10)]

/-- The mnemonic of an instruction. -/
def mnemonic : Instr → String
  | .key => "KEY"
  | .encode => "ENCODE"
  | .decode => "DECODE"
  | .setupW8 _ => "SETUP.W8"
  | .setupW16 _ => "SETUP.W16"
  | .setupW32 _ => "SETUP.W32"
  | .setupW64 _ => "SETUP.W64"
  | .zero => "ZERO"
  | .pw => "PW"
  | .qw => "QW"
  | .addw => "ADDW"
  | .subw => "SUBW"
  | .xorw => "XORW"
  | .rotl => "ROTL"
  | .rotr => "ROTR"
  | .modw => "MODW"
  | .lepack => "LEPACK"
  | .leunpack => "LEUNPACK"
  | .rdw => "RDW"
  | .rdb => "RDB"
  | .mixs => "MIXS"
  | .mixl => "MIXL"
  | .ehr => "EHR"
  | .dhr => "DHR"

/-- Whether a code matches a row. -/
def covers : Row → Code → Bool
  | .command mask pattern, .command cw => cw &&& mask == pattern
  | .select mask pattern, .select uop => uop &&& mask == pattern
  | .command _ _, .select _ => false
  | .select _ _, .command _ => false

/-- The mnemonics of the rows that the instruction's code matches are exactly its own. -/
def Statement (i : Instr) : Prop := (rows.filter fun e => covers e.2 (encode i)).map Prod.fst = [mnemonic i]

theorem key : Statement .key := rfl

theorem encode : Statement .encode := rfl

theorem decode : Statement .decode := rfl

/-- A SETUP's word under its row's mask keeps nothing of the round count. -/
theorem setup_high (op : BitVec 3) (r : BitVec 8) : commandWord op r &&& 0xFF00 = commandWord op 0 := by
  apply BitVec.eq_of_getLsbD_eq
  intro i hi
  rw [commandWord, commandWord]
  simp only [BitVec.getLsbD_and, BitVec.getLsbD_append]
  interval_cases i <;> simp

/-- A command word matches no full row of another operation. -/
theorem commandWord_ne (op : BitVec 3) (r : BitVec 8) {p : BitVec 16} (h : p.toNat / 256 ≠ op.toNat) :
    (commandWord op r &&& 0xFFFF == p) = false := by
  rw [show (0xFFFF : BitVec 16) = BitVec.allOnes 16 from rfl, BitVec.and_allOnes, beq_eq_false_iff_ne]
  intro he
  have := commandWord_toNat op r
  rw [he] at this
  omega

theorem setupW8 (rounds : BitVec 8) : Statement (.setupW8 rounds) := by
  simp only [Statement, rows, covers, Sys2Proof.encode, setup_high, List.cons_append, List.nil_append, List.filter_cons,
    commandWord_ne 4 rounds (p := 0x0100) (by decide), commandWord_ne 4 rounds (p := 0x0200) (by decide),
    commandWord_ne 4 rounds (p := 0x0300) (by decide)]
  rfl

theorem setupW16 (rounds : BitVec 8) : Statement (.setupW16 rounds) := by
  simp only [Statement, rows, covers, Sys2Proof.encode, setup_high, List.cons_append, List.nil_append, List.filter_cons,
    commandWord_ne 5 rounds (p := 0x0100) (by decide), commandWord_ne 5 rounds (p := 0x0200) (by decide),
    commandWord_ne 5 rounds (p := 0x0300) (by decide)]
  rfl

theorem setupW32 (rounds : BitVec 8) : Statement (.setupW32 rounds) := by
  simp only [Statement, rows, covers, Sys2Proof.encode, setup_high, List.cons_append, List.nil_append, List.filter_cons,
    commandWord_ne 6 rounds (p := 0x0100) (by decide), commandWord_ne 6 rounds (p := 0x0200) (by decide),
    commandWord_ne 6 rounds (p := 0x0300) (by decide)]
  rfl

theorem setupW64 (rounds : BitVec 8) : Statement (.setupW64 rounds) := by
  simp only [Statement, rows, covers, Sys2Proof.encode, setup_high, List.cons_append, List.nil_append, List.filter_cons,
    commandWord_ne 7 rounds (p := 0x0100) (by decide), commandWord_ne 7 rounds (p := 0x0200) (by decide),
    commandWord_ne 7 rounds (p := 0x0300) (by decide)]
  rfl

theorem zero : Statement .zero := rfl

theorem pw : Statement .pw := rfl

theorem qw : Statement .qw := rfl

theorem addw : Statement .addw := rfl

theorem subw : Statement .subw := rfl

theorem xorw : Statement .xorw := rfl

theorem rotl : Statement .rotl := rfl

theorem rotr : Statement .rotr := rfl

theorem modw : Statement .modw := rfl

theorem lepack : Statement .lepack := rfl

theorem leunpack : Statement .leunpack := rfl

theorem rdw : Statement .rdw := rfl

theorem rdb : Statement .rdb := rfl

theorem mixs : Statement .mixs := rfl

theorem mixl : Statement .mixl := rfl

theorem ehr : Statement .ehr := rfl

theorem dhr : Statement .dhr := rfl

end Sys2Proof.Laws.RowMatch
end

