-- ==== Sys2Proof/Tests/Slice0.lean ====
section
/-! SUPPORT. Tests: ill-formed terms refused, words written out from the encoding tables, the vectors of 95_test_vectors.md one step at
a time, and a witness for the hypotheses of every statement. Every expected value stands in the spec; none is the model's own
answer. -/

namespace Sys2Proof.Tests

open Sys2Proof.Machine

/-! ### Well-formedness: an ill-formed term for each check -/

/-- R76, R80 (d): a SETUP takes no payload. -/
theorem test_wf_setup_payload : Instr.wellFormed (.setupW32 12) 1 = false := by decide

/-- R12, R70: `LEN` is a 32-bit field. -/
theorem test_wf_len_bound : Instr.wellFormed .key 4294967296 = false := by decide

/-- R85: a micro-operation stands in no packet. -/
theorem test_wf_micro_payload : Instr.wellFormed .addw 1 = false := by decide

theorem test_wf_accepts : Instr.wellFormed .key 4294967295 = true ∧ Instr.wellFormed (.setupW8 255) 0 = true := by decide

/-! ### Decoding: every constructor, by a word written out from R71, R74 and R85 -/

theorem test_decode_key : decodeCommand 0b0000000100000000 16 = .ok .key := by decide
theorem test_decode_encode : decodeCommand 0b0000001000000000 8 = .ok .encode := by decide
theorem test_decode_decode : decodeCommand 0b0000001100000000 8 = .ok .decode := by decide

/-- T20 to T23 give the command words 0x040C, 0x0510, 0x060C and 0x0718. -/
theorem test_decode_setups :
    decodeCommand 0b0000010000001100 0 = .ok (.setupW8 12) ∧ decodeCommand 0b0000010100010000 0 = .ok (.setupW16 16) ∧
      decodeCommand 0b0000011000001100 0 = .ok (.setupW32 12) ∧ decodeCommand 0b0000011100011000 0 = .ok (.setupW64 24) := by
  decide

theorem test_decode_primitives :
    decodeSelect 0b00000 = .ok .zero ∧ decodeSelect 0b00001 = .ok .pw ∧ decodeSelect 0b00010 = .ok .qw ∧
      decodeSelect 0b00011 = .ok .addw ∧ decodeSelect 0b00100 = .ok .subw ∧ decodeSelect 0b00101 = .ok .xorw ∧
      decodeSelect 0b00110 = .ok .rotl ∧ decodeSelect 0b00111 = .ok .rotr ∧ decodeSelect 0b01000 = .ok .modw ∧
      decodeSelect 0b01001 = .ok .lepack ∧ decodeSelect 0b01010 = .ok .leunpack := by
  decide

theorem test_decode_composed :
    decodeSelect 0b01011 = .ok .rdw ∧ decodeSelect 0b01100 = .ok .rdb ∧ decodeSelect 0b01101 = .ok .mixs ∧
      decodeSelect 0b01110 = .ok .mixl ∧ decodeSelect 0b01111 = .ok .ehr ∧ decodeSelect 0b10000 = .ok .dhr := by
  decide

/-- Rows of T70, each rejected under the case of R80 that the row names. -/
theorem test_decode_illegal :
    decodeCommand 0x0000 8 = .error .opZero ∧ decodeCommand 0x00FF 0 = .error .opZero ∧
      decodeCommand 0x0800 0 = .error .reservedBits ∧ decodeCommand 0x8100 4 = .error .reservedBits ∧
      decodeCommand 0x0101 4 = .error .roundsNotZero ∧ decodeCommand 0x03FF 8 = .error .roundsNotZero ∧
      decodeCommand 0x0700 16 = .error .lenNotZero ∧ decodeCommand 0xFFFF 0 = .error .reservedBits := by
  decide

theorem test_decode_unused_select : decodeSelect 0x11 = .error .unusedSelect ∧ decodeSelect 0x1F = .error .unusedSelect := by
  decide

theorem test_decode_table_word :
    decodeTableWord 16 0x060C = some (.setupW32 12) ∧ decodeTableWord 16 0x0E0C = none ∧
      decodeTableWord 8 0x0D = some .mixs ∧ decodeTableWord 8 0x2D = none := by
  decide

/-! ### Helpers -/

/-- The reset state with a width in the engine slot and three word operands in the latches. -/
def operands (W : Width) (x y k : Slot) : State :=
  { State.reset with eng := { State.reset.eng with wsel := W }, dp := { Datapath.idle with x := x, y := y, k := k } }

/-- The word result of a step. -/
def wordOf : Out → Option Nat
  | .next t => some t.dp.res.toNat
  | .fault _ => none
  | .refused _ => none

/-- The updated operand `x` of a step. -/
def xOf : Out → Option Nat
  | .next t => some t.dp.x.toNat
  | .fault _ => none
  | .refused _ => none

/-- The registers `A` and `B` after a step. -/
def pairOf : Out → Option (Nat × Nat)
  | .next t => some (t.work.A.toNat, t.work.B.toNat)
  | .fault _ => none
  | .refused _ => none

/-- `S` and `L` after a step. -/
def arraysOf : Out → Option (List Nat × List Nat)
  | .next t => some (t.eng.S.map BitVec.toNat, t.work.L.map BitVec.toNat)
  | .fault _ => none
  | .refused _ => none

/-- Status, both lengths and payload of the response after a step. -/
def answerOf : Out → Option (Status × Nat × Nat × List Byte)
  | .next t => some (t.resp.status, t.resp.info0.toNat, t.resp.info1.toNat, t.resp.payload)
  | .fault _ => none
  | .refused _ => none

/-- `s` with a key in the slot. -/
def State.keyed (s : State) (ds : List Byte) : State :=
  { s with key := { valid := true, klen := BitVec.ofNat 9 ds.length, keybuf := Memory.writeBytes [] 0 ds } }

/-- `s` with an engine in the slot. -/
def State.engine (s : State) (W : Width) (r : BitVec 8) (S : List Slot) : State :=
  { s with eng := { state := .ready, wsel := W, rounds := r, S := S } }

/-- The mixing loop's arrays and registers. -/
def mixing (W : Width) (S L : List Slot) (A B : Slot) (I J : Nat) : State :=
  { State.reset with
    eng := { State.reset.eng with wsel := W, S := S }
    work := { A := A, B := B, L := L }
    seq := { State.reset.seq with I := I, J := J } }

/-! ### The word datapath, at the vectors of T30 to T36 -/

theorem test_zero : wordOf (exec .zero (operands .w64 7 7 7)) = some 0 := by decide
theorem test_pw : wordOf (exec .pw (operands .w64 0 0 0)) = some 0xB7E151628AED2A6B := by decide
theorem test_pw_w16 : wordOf (exec .pw (operands .w16 0 0 0)) = some 0xB7E1 := by decide
theorem test_qw : wordOf (exec .qw (operands .w32 0 0 0)) = some 0x9E3779B9 := by decide
theorem test_qw_w8 : wordOf (exec .qw (operands .w8 0 0 0)) = some 0x9F := by decide

/-- T30: the carry out of bit 7 is dropped, though the store has 64 bits. -/
theorem test_addw_carry : wordOf (exec .addw (operands .w8 0x80 0x80 0)) = some 0 := by decide
theorem test_addw_w32 : wordOf (exec .addw (operands .w32 0x33221100 0xD447E233 0)) = some 0x0769F333 := by decide

/-- T31 -/
theorem test_subw_borrow : wordOf (exec .subw (operands .w8 0 1 0)) = some 0xFF := by decide
theorem test_subw_order : wordOf (exec .subw (operands .w32 0x9B14DC2D 0x728A511F 0)) = some 0x288A8B0E := by decide

/-- T32 -/
theorem test_xorw : wordOf (exec .xorw (operands .w16 0xB88A 0xCB5B 0)) = some 0x73D1 := by decide

/-- T33: only bits 5:0 of the count matter. -/
theorem test_rotl_wide_count :
    wordOf (exec .rotl (operands .w64 0x0123456789ABCDEF 0x0000000100000004 0)) = some 0x123456789ABCDEF0 := by decide
theorem test_rotl_count_w : wordOf (exec .rotl (operands .w8 0xB7 8 0)) = some 0xB7 := by decide
theorem test_rotr : wordOf (exec .rotr (operands .w16 0x1234 20 0)) = some 0x4123 := by decide
theorem test_rotr_count_255 : wordOf (exec .rotr (operands .w8 0xB7 0xFF 0)) = some 0x6F := by decide

/-- T34 -/
theorem test_modw : wordOf (exec .modw (operands .w16 0xCB5B 0 0)) = some 11 := by decide
theorem test_modw_zero : wordOf (exec .modw (operands .w8 0x08 0 0)) = some 0 := by decide

/-- T35 -/
theorem test_lepack :
    wordOf (exec .lepack { operands .w32 0 0 0 with
      dp := { Datapath.idle with bytes := #v[0x2D, 0xDC, 0x14, 0x9B, 0xFF, 0xFF, 0xFF, 0xFF] } }) = some 0x9B14DC2D := by
  decide

/-- T35: exactly `u` bytes. -/
theorem test_leunpack :
    (match exec .leunpack (operands .w16 0xA823 0 0) with
      | .next t => t.dp.resBytes
      | .fault _ => []
      | .refused _ => []) = [0x23, 0xA8] := by
  decide

/-! ### Readers, mixer, half-rounds -/

/-- T42, the last word at w=64. -/
theorem test_rdw :
    wordOf (exec .rdw { State.keyed (operands .w64 0 0 0) ((List.range 24).map (BitVec.ofNat 8)) with
      seq := { State.reset.seq with J := 2 } }) = some 0x1716151413121110 := by
  decide

/-- T43, the second block at w=32. -/
theorem test_rdb :
    pairOf (exec .rdb { State.withPayload (operands .w32 0 0 0)
        [0x00, 0x11, 0x22, 0x33, 0x44, 0x55, 0x66, 0x77, 0x88, 0x99, 0xAA, 0xBB, 0xCC, 0xDD, 0xEE, 0xFF] with
      seq := { State.reset.seq with BLK := 1 } }) = some (0xBBAA9988, 0xFFEEDDCC) := by
  decide

/-- T52, iteration 1: `S[1]` and `A` become 0x57. -/
theorem test_mixs :
    let o := exec .mixs (mixing .w8 [0xBD, 0x56] [0xD7] 0xBD 0xD7 1 0)
    arraysOf o = some ([0xBD, 0x57], [0xD7]) ∧ pairOf o = some (0x57, 0xD7) := by
  decide

/-- T52, iteration 1: with the new `A`, the count is 6 and `L[0]` and `B` become 0x41. -/
theorem test_mixl :
    let o := exec .mixl (mixing .w8 [0xBD, 0x57] [0xD7] 0x57 0xD7 1 0)
    arraysOf o = some ([0xBD, 0x57], [0x41]) ∧ pairOf o = some (0x57, 0x41) := by
  decide

/-- T22, round 1: `A` from pre-whitening's `A`, `B` and `S[2]`. -/
theorem test_ehr : xOf (exec .ehr (operands .w32 0x0769F333 0x4F954164 0x84FCE219)) = some 0x14C8078D := by decide

/-- T22, undoing round 12: `B` from `B`, `A` and `S[25]`. -/
theorem test_dhr : xOf (exec .dhr (operands .w32 0x9E8B08CF 0x9B14DC2D 0x15E8E206)) = some 0xAD58993C := by decide

/-! ### Commands -/

/-- T40: a one-byte key. -/
theorem test_key :
    (match exec .key (State.reset.withPayload [0x5A]) with
      | .next t => some (t.key, t.resp.status)
      | .fault _ => none
      | .refused _ => none) = some (⟨true, 1, [(0, 0x5A)]⟩, .ok) := by
  decide

/-- T40: a key of 257 bytes. -/
theorem test_key_257 :
    answerOf (exec .key (State.reset.withPayload (List.replicate 257 0))) = some (.invalidKeyLength, 257, 0, []) := by
  decide +kernel

/-- T51, T52: the smallest SETUP. -/
theorem test_setup_w8 : arraysOf (exec (.setupW8 0) (State.keyed State.reset [1])) = some ([0xD0, 0xA1], []) := by decide

/-- T53: more key words than subkeys. -/
theorem test_setup_w8_long_key :
    arraysOf (exec (.setupW8 0) (State.keyed State.reset [0, 1, 2, 3, 4, 5, 6, 7])) = some ([0x35, 0xCC], []) := by
  decide

/-- T51 -/
theorem test_setup_w16 : arraysOf (exec (.setupW16 0) (State.keyed State.reset [0, 0])) = some ([0x7865, 0x33F4], []) := by
  decide

/-- T50 -/
theorem test_setup_w16_odd_key :
    answerOf (exec (.setupW16 12) (State.keyed State.reset [1, 2, 3, 4, 5])) = some (.keyNotWordAligned, 5, 2, []) := by
  decide

/-- T51 -/
theorem test_setup_w32 :
    arraysOf (exec (.setupW32 0) (State.keyed State.reset [1, 2, 3, 4])) = some ([0x72D10CE6, 0x6E8B2B67], []) := by
  decide

/-- T50 -/
theorem test_setup_w32_no_key : answerOf (exec (.setupW32 12) State.reset) = some (.noKey, 0, 0, []) := by decide

/-- T51 -/
theorem test_setup_w64 :
    arraysOf (exec (.setupW64 0) (State.keyed State.reset [0, 1, 2, 3, 4, 5, 6, 7])) =
      some ([0x2355B09E5255F622, 0x5693DD5E52223DCB], []) := by
  decide

/-- T50 -/
theorem test_setup_w64_short_key :
    answerOf (exec (.setupW64 24) (State.keyed State.reset [1, 2, 3, 4])) = some (.keyNotWordAligned, 4, 8, []) := by
  decide

/-- The engine of T51 with zero rounds. -/
def whitener : State := State.engine State.reset .w8 0 [0xD0, 0xA1]

/-- The subkeys of T20. -/
def subkeysT20 : List Slot :=
  [0xF6, 0x15, 0xB4, 0x42, 0xFE, 0xA3, 0xBD, 0x6D, 0x0D, 0x09, 0x17, 0x5C, 0x13] ++
    [0x22, 0x2C, 0xD6, 0xC4, 0x61, 0x90, 0xDC, 0x09, 0xF9, 0x21, 0x5C, 0x75, 0xB5]

/-- T1, T20: twelve rounds. -/
theorem test_encode :
    answerOf (exec .encode ((State.engine State.reset .w8 12 subkeysT20).withPayload [0, 1, 0, 1])) =
      some (.ok, 0, 0, [0x21, 0x2A, 0x21, 0x2A]) := by
  decide +kernel

/-- T66 -/
theorem test_encode_misaligned : answerOf (exec .encode (whitener.withPayload [0])) = some (.inputNotBlockAligned, 1, 2, []) := by
  decide

/-- T1, T20 -/
theorem test_decode :
    answerOf (exec .decode ((State.engine State.reset .w8 12 subkeysT20).withPayload [0x21, 0x2A])) =
      some (.ok, 0, 0, [0, 1]) := by
  decide +kernel

/-- T67 -/
theorem test_decode_not_ready : answerOf (exec .decode (State.reset.withPayload [0, 1])) = some (.notReady, 0, 0, []) := by
  decide

/-- R83, from the commands of T1 and a response of T6. -/
theorem test_text :
    commandText .key [0x00, 0x2A] = "KEY 00 2A" ∧ commandText (.setupW8 12) [] = "SETUP.W8 12" ∧
      responseText ⟨.inputNotBlockAligned, 7, 8, 0, []⟩ = "InputNotBlockAligned(7, 8)" ∧
      responseText ⟨.ok, 0, 0, 2, [0x21, 0x2A]⟩ = "OK 21 2A" := by
  decide

/-! ### Witnesses: for each statement with hypotheses, a state and operands that meet all of them together -/

/-- A state with a 4-byte key and a one-round engine whose first two subkeys are T51's. -/
def session : State := State.keyed (State.engine State.reset .w8 1 [0xD0, 0xA1, 0x01, 0x02]) [0, 1, 2, 3]

/-- A state in the middle of a SETUP, with a reset standing at the port. -/
def interrupted : State :=
  { mixing .w8 [0xBD, 0x56] [0xD7] 0xBD 0xD7 1 0 with
    seq := { State.reset.seq with phase := .kxMix, I := 1 }
    port := { State.reset.port with cw := 0x0400, inbox := [.reset] } }

theorem session_idle : Idle session := ⟨rfl, rfl⟩

theorem session_ready : EngineReady session := ⟨rfl, rfl⟩

theorem session_inv : Inv session :=
  ⟨by decide, by decide, by decide, by decide, by decide, by decide, trivial⟩

/-- Both decode hypotheses, at both kinds of code. -/
theorem witness_DecodeAndEncodeAgree :
    Instr.wellFormed (.setupW64 255) 0 = true ∧ decode (.command 0x07FF) 0 = .ok (.setupW64 255) ∧
      decode (.select 0x10) 0 = .ok .dhr := by
  decide

/-- Each of the four kinds, at words of T70. -/
theorem witness_IllegalCommandsChangeNothing :
    Idle session ∧ (0x0800 : BitVec 16).toNat / 2 ^ 11 ≠ 0 ∧ (0x00FF : BitVec 16).toNat / 2 ^ 8 % 8 = 0 ∧
      ((0x0101 : BitVec 16).toNat / 2 ^ 8 % 8 ≤ 3 ∧ (0x0101 : BitVec 16).toNat % 2 ^ 8 ≠ 0) ∧
      (4 ≤ (0x060C : BitVec 16).toNat / 2 ^ 8 % 8 ∧ ([0] : List Byte).length ≠ 0) :=
  ⟨session_idle, by decide⟩

theorem witness_StepRunsTheAcceptedCommand :
    Idle (session.offer 0x0200 [0, 1]) ∧ (session.offer 0x0200 [0, 1]).port.inbox = .command 0x0200 [0, 1] :: [] ∧
      decodeCommand 0x0200 2 = .ok .encode :=
  ⟨⟨rfl, rfl⟩, rfl, by decide⟩

theorem witness_StepRunsTheDrivenMicroOperation :
    ({ session with uop := some 0x0F } : State).uop = some 0x0F ∧ decodeSelect 0x0F = .ok .ehr := by
  decide

theorem witness_IdleMachineWaits :
    Idle session ∧ session.port.inbox = [] ∧
      Idle { session with port := { session.port with inbox := [.pause] } } :=
  ⟨session_idle, rfl, ⟨rfl, rfl⟩⟩

/-- The lowest and the highest unused code, and a payload one byte too long. -/
theorem witness_MeaninglessInputsAreRefused :
    0x11 ≤ (0x11 : BitVec 5).toNat ∧ 0x11 ≤ (0x1F : BitVec 5).toNat ∧ Idle session ∧
      2 ^ 32 ≤ (List.replicate (2 ^ 32) (0 : Byte)).length :=
  ⟨by decide, by decide, session_idle, by rw [List.length_replicate]⟩

/-- In the middle of a command. -/
theorem witness_ResetAbandonsACommand :
    interrupted.uop = none ∧ interrupted.port.inbox = .reset :: [] ∧ interrupted.seq.phase ≠ .idle := by
  decide

/-- With the shortest and the longest key, and an illegal word. -/
theorem witness_FirstCommandsAfterReset :
    interrupted.uop = none ∧ interrupted.port.inbox = .reset :: [] ∧ 1 ≤ (List.replicate 1 (0 : Byte)).length ∧
      (List.replicate 256 (0 : Byte)).length ≤ 256 ∧ decodeCommand 0x0201 2 = .error .roundsNotZero := by
  refine ⟨rfl, rfl, ?_, ?_, by decide⟩ <;> rw [List.length_replicate]

/-- The highest bit of a word, and the highest byte. -/
theorem witness_XorIsTakenBitByBit : 63 < (operands .w64 0 0 0).width.bits ∧ 7 < (operands .w8 0 0 0).width.bits := by
  decide

theorem witness_RotateLeftMovesEachBit : 15 < (operands .w16 0 0 0).width.bits := by decide

theorem witness_RotateRightMovesEachBit : 31 < (operands .w32 0 0 0).width.bits := by decide

theorem witness_PackIsLittleEndian : 7 < (operands .w64 0 0 0).width.bytes ∧ 0 < (operands .w8 0 0 0).width.bytes := by
  decide

theorem witness_UnpackIsLittleEndian :
    7 < (operands .w64 0 0 0).width.bytes ∧ ([0x23, 0xA8] : List Byte).length = Width.w16.bytes := by
  decide

/-- The last word of a key. -/
theorem witness_WordReaderReadsTheKey :
    let s : State := { session with seq := { session.seq with J := 3 } }
    ∀ k, k < s.width.bytes → (Memory.read s.key.keybuf (s.seq.J * s.width.bytes + k)).isSome := by
  decide

/-- The last block of a payload. -/
theorem witness_BlockReaderLoadsTheRegisters :
    let s : State := { session.withPayload [0, 1, 2, 3] with seq := { session.seq with BLK := 1 } }
    s.seq.BLK * s.width.block + s.width.block ≤ s.len := by
  decide

theorem witness_MixSUpdatesOneSubkey : (mixing .w8 [0xBD, 0x56] [0xD7] 0xBD 0xD7 1 0).eng.S[1]? = some 0x56 := by decide

theorem witness_MixLUpdatesOneKeyWord : (mixing .w8 [0xBD, 0x56] [0xD7] 0xBD 0xD7 1 0).work.L[0]? = some 0xD7 := by decide

/-- Each clause just past the last value that is held. -/
theorem witness_ReadsOfNoValueStop :
    let s : State :=
      { session.withPayload [0, 1, 2] with seq := { session.seq with J := 4, BLK := 1, I := 4 } }
    (∃ k, k < s.width.bytes ∧ Memory.read s.key.keybuf (s.seq.J * s.width.bytes + k) = none) ∧
      s.len < s.seq.BLK * s.width.block + s.width.block ∧ s.eng.S.length ≤ s.seq.I ∧ s.work.L.length ≤ s.seq.J :=
  ⟨⟨0, by decide, by decide⟩, by decide, by decide, by decide⟩

/-- The shortest and the longest key. -/
theorem witness_KeyReplacesTheWholeKeySlot :
    1 ≤ (session.withPayload [0x5A]).len ∧ (session.withPayload (List.replicate 256 0)).len ≤ 256 :=
  ⟨by decide, Nat.le_of_eq List.length_replicate⟩

/-- The clauses of KeyLengthBoundaries at 0, 1, 255, 256 and 257 bytes. -/
theorem witness_KeyLengthBoundaries :
    Idle session ∧ ([] : List Byte).length = 0 ∧ (1 ≤ ([0x5A] : List Byte).length ∧ ([0x5A] : List Byte).length ≤ 256) ∧
      (List.replicate 256 (0 : Byte)).length ≤ 256 ∧ 256 < (List.replicate 257 (0 : Byte)).length ∧
      (List.replicate 255 (0 : Byte)).length % 2 = 1 ∧ Width.w16 ≠ .w8 := by
  refine ⟨session_idle, ?_⟩
  simp only [List.length_replicate]
  decide

theorem session_keyReady : KeyReady session := ⟨by decide, by decide, by decide, by decide⟩

theorem witness_SetupExpandsTheKey :
    KeyReady session ∧ session.key.klen.toNat % Width.w8.bytes = 0 ∧ session.key.klen.toNat % Width.w32.bytes = 0 :=
  ⟨session_keyReady, by decide, by decide⟩

theorem witness_SetupWithoutAKey : State.reset.key.valid = false := by decide

theorem witness_TransformWithoutAnEngine : State.reset.eng.state = .uninitialised := by decide

theorem witness_SetupOfAMisalignedKey :
    session.key.valid = true ∧ session.key.klen.toNat % Width.w64.bytes ≠ 0 ∧ KeyReady session :=
  ⟨by decide, by decide, session_keyReady⟩

/-- Two states with one key and different engines, and a SETUP that succeeds in both. -/
theorem witness_EqualKeysGiveEqualTables :
    session.key.klen = (State.keyed State.reset [0, 1, 2, 3]).key.klen ∧
      session.eng ≠ (State.keyed State.reset [0, 1, 2, 3]).eng ∧
      (∀ k, k < session.key.klen.toNat →
        Memory.read session.key.keybuf k = Memory.read (State.keyed State.reset [0, 1, 2, 3]).key.keybuf k) ∧
      (answerOf (exec (.setupW8 0) session)).map Prod.fst = some .ok ∧
      (answerOf (exec (.setupW8 0) (State.keyed State.reset [0, 1, 2, 3]))).map Prod.fst = some .ok := by
  decide

/-- Two blocks, and none. -/
theorem witness_EncodeTransformsEachBlock :
    EngineReady (session.withPayload [0, 1, 2, 3]) ∧ (session.withPayload [0, 1, 2, 3]).len < 2 ^ 32 ∧
      (session.withPayload [0, 1, 2, 3]).len % session.eng.wsel.block = 0 ∧ session.len % session.eng.wsel.block = 0 :=
  ⟨⟨rfl, rfl⟩, by decide⟩

theorem witness_DecodeTransformsEachBlock :
    EngineReady (session.withPayload [3, 2, 1, 0]) ∧ (session.withPayload [3, 2, 1, 0]).len < 2 ^ 32 ∧
      (session.withPayload [3, 2, 1, 0]).len % session.eng.wsel.block = 0 :=
  ⟨⟨rfl, rfl⟩, by decide⟩

theorem witness_TransformOfAMisalignedPayload :
    session.eng.state = .ready ∧ (session.withPayload [0]).len < 2 ^ 32 ∧
      (session.withPayload [0]).len % session.eng.wsel.block ≠ 0 := by
  decide

theorem witness_ZeroRoundsOnlyWhitens :
    EngineReady (whitener.withPayload [0x12, 0x34]) ∧ whitener.eng.rounds = 0 ∧
      (whitener.withPayload [0x12, 0x34]).len % whitener.eng.wsel.block = 0 ∧ KeyReady session ∧
      session.key.klen.toNat % Width.w8.bytes = 0 :=
  ⟨⟨rfl, rfl⟩, rfl, by decide, session_keyReady, by decide⟩

/-- Transforms that answer OK. -/
theorem witness_TransformsPreserveLength :
    (session.withPayload [0, 1]).len < 2 ^ 32 ∧
      (∃ t, exec .encode (session.withPayload [0, 1]) = .next t ∧ t.resp.status = .ok) ∧
      (∃ t, exec .decode (session.withPayload [0, 1]) = .next t ∧ t.resp.status = .ok) :=
  ⟨by decide, ⟨_, rfl, rfl⟩, ⟨_, rfl, rfl⟩⟩

/-- Two states that share only the engine and the payload. -/
theorem witness_TransformsArePure :
    let s : State := session.withPayload [0, 1]
    let s' : State := { session.withPayload [0, 1] with key := State.reset.key, work := { s.work with A := 9 } }
    s.eng = s'.eng ∧ s.port.payload = s'.port.payload ∧ s ≠ s' ∧ ∃ t, exec .encode s = .next t :=
  ⟨rfl, rfl, by decide, ⟨_, rfl⟩⟩

theorem witness_DecodeAndEncodeInvertEachOther :
    EngineReady session ∧ ([0, 1, 2, 3] : List Byte).length % session.eng.wsel.block = 0 :=
  ⟨session_ready, by decide⟩

theorem witness_BlocksAreIndependent :
    EngineReady session ∧ ([0, 1, 2, 3] : List Byte).length % session.eng.wsel.block = 0 ∧
      ([4, 5] : List Byte).length % session.eng.wsel.block = 0 :=
  ⟨session_ready, by decide⟩

/-- A KEY, a SETUP and a transform that each answer next. -/
theorem witness_SlotsAreIndependent :
    (∃ t, exec .key (session.withPayload [7]) = .next t) ∧ (∃ t, exec (.setupW8 0) session = .next t) ∧
      ∃ u, exec .encode (session.withPayload [0, 1]) = .next u :=
  ⟨⟨_, rfl⟩, ⟨_, rfl⟩, ⟨_, rfl⟩⟩

/-- A reset, a SETUP at the port that succeeds, one that fails, and a KEY. -/
theorem witness_EngineSlotTransitions :
    interrupted.uop = none ∧ interrupted.port.inbox = .reset :: [] ∧ Idle session ∧
      decodeCommand 0x0400 0 = .ok (setupInstr .w8 0) ∧
      (∃ t, step (session.offer 0x0400 []) = .next t ∧ t.resp.status = .ok) ∧
      (∃ t, step (session.offer 0x0700 []) = .next t ∧ t.resp.status ≠ .ok) ∧
      ∃ t, step (session.offer 0x0100 [7]) = .next t :=
  ⟨rfl, rfl, session_idle, by decide, ⟨_, rfl, rfl⟩, ⟨_, rfl, by decide⟩, ⟨_, rfl⟩⟩

theorem witness_FirstFailingCheckIsReported :
    Inv session ∧ Idle session ∧ ([0, 1] : List Byte).length < 2 ^ 32 :=
  ⟨session_inv, session_idle, by decide⟩

theorem witness_CommandsEndOnlyWithTheirStatuses :
    (∃ t, exec .key session = .next t) ∧ (∃ t, exec (.setupW64 0) session = .next t) ∧ (∃ t, exec .decode session = .next t) ∧
      ∃ t, step (session.offer 0x0000 [1]) = .next t :=
  ⟨⟨_, rfl⟩, ⟨_, rfl⟩, ⟨_, rfl⟩, ⟨_, rfl⟩⟩

/-- Each length error of R79 at the port, and a status of the last clause. -/
theorem witness_OffendingLengthsAreReported :
    (∃ t, step (session.offer 0x0100 []) = .next t ∧ t.resp.status = .invalidKeyLength) ∧
      (∃ t, step (session.offer 0x0700 []) = .next t ∧ t.resp.status = .keyNotWordAligned) ∧
      (∃ t, step (session.offer 0x0300 [1]) = .next t ∧ t.resp.status = .inputNotBlockAligned) ∧
      ∃ t, step (session.offer 0x0001 []) = .next t ∧ t.resp.status = .illegalCommand :=
  ⟨⟨_, rfl, rfl⟩, ⟨_, rfl, rfl⟩, ⟨_, rfl, rfl⟩, ⟨_, rfl, rfl⟩⟩

theorem witness_FailuresChangeNothing :
    Idle session ∧ ∃ t, step (session.offer 0x0200 [0]) = .next t ∧ t.resp.status ≠ .ok :=
  ⟨session_idle, ⟨_, rfl, by decide⟩⟩

/-- A success and a failure. -/
theorem witness_ErrorsLeaveNothingSticky :
    Idle session ∧ (∃ t, step (session.offer 0x0200 [0, 1]) = .next t) ∧
      ∃ t, step (session.offer 0x0200 [0]) = .next t ∧ t.resp.status ≠ .ok :=
  ⟨session_idle, ⟨_, rfl⟩, ⟨_, rfl, by decide⟩⟩

theorem witness_StatusIsNeverInternal : NoInternal session ∧ ∃ t, step (session.offer 0x0200 [0, 1]) = .next t :=
  ⟨⟨by decide, by decide, by decide⟩, ⟨_, rfl⟩⟩

/-- NEWENGINE with a key that is taken and one that is not. -/
theorem witness_NewEngineIsKeyThenSetup :
    Idle session ∧ (∃ t, step (session.offer 0x0100 [7]) = .next t ∧ t.resp.status = .ok) ∧
      ∃ t, step (session.offer 0x0100 []) = .next t ∧ t.resp.status ≠ .ok :=
  ⟨session_idle, ⟨_, rfl, rfl⟩, ⟨_, rfl, by decide⟩⟩

/-- Two states that differ in a key byte, and a SETUP that both answer. -/
theorem witness_KeyBytesReachNoResponse :
    let s' : State := { session with key := { session.key with keybuf := (State.keyed State.reset [9, 1, 2, 3]).key.keybuf } }
    Idle session ∧ s' = { session with key := { session.key with keybuf := s'.key.keybuf } } ∧ s' ≠ session ∧
      (∃ t, step (session.offer 0x0400 []) = .next t) ∧ ∃ t', step (s'.offer 0x0400 []) = .next t' :=
  ⟨session_idle, rfl, by decide, ⟨_, rfl⟩, ⟨_, rfl⟩⟩

/-- A session with a packet of each kind and a reset at the port. -/
def busySession : State :=
  { session with
    port := { session.port with inbox := [.paced 0x0200 [0, 1], .pause, .command 0x0100 [], .reset] } }

theorem busySession_inv : Inv busySession :=
  ⟨by decide, by decide, by decide, by decide, by decide, by decide, trivial⟩

theorem witness_StepKeepsTheInvariant : Inv busySession ∧ ∃ t, step busySession = .next t := ⟨busySession_inv, ⟨_, rfl⟩⟩

theorem witness_RunsNeverFault : Inv busySession ∧ busySession.uop = none ∧ WellFramed busySession :=
  ⟨busySession_inv, rfl, by
    intro ev hev
    simp only [busySession, List.mem_cons, List.not_mem_nil, or_false] at hev
    rcases hev with rfl | rfl | rfl | rfl
    · show ([0, 1] : List Byte).length < Config.payloadBound
      decide
    · trivial
    · show ([] : List Byte).length < Config.payloadBound
      decide
    · trivial⟩

/-- `session` with events behind the packet that is to come. -/
def withBehind (inbox : List PortEvent) : State := { session with port := { session.port with inbox := inbox } }

theorem withBehind_inv (inbox : List PortEvent) : Inv (withBehind inbox) :=
  ⟨session_inv.keybufCanonical, session_inv.key, session_inv.engine, session_inv.response, session_inv.verdict,
    session_inv.delivered, trivial⟩

/-- With nothing behind the packet, and with a packet behind it. -/
theorem witness_PacedCommandEndsAsTheAtomicOne :
    (∀ inbox, Inv (withBehind inbox) ∧ Idle (withBehind inbox)) ∧ Undisturbed (withBehind []) ∧
      Undisturbed (withBehind [.command 0x0100 [7], .reset]) ∧ ([0, 1] : List Byte).length < 2 ^ 32 :=
  ⟨fun _ => ⟨withBehind_inv _, rfl, rfl⟩, (fun _ h => nomatch h), fun ev h => by cases h; exact ⟨by decide, by decide⟩,
    by decide⟩

/-- `session` at CHECK of a command. -/
def checking (cw : BitVec 16) (payload : List Byte) : State := (session.accept cw payload []).toPhase .check

theorem checking_inv (cw : BitVec 16) (payload : List Byte) : Inv (checking cw payload) :=
  ⟨session_inv.keybufCanonical, session_inv.key, session_inv.engine, session_inv.response, session_inv.verdict,
    session_inv.delivered, trivial⟩

/-- Each clause of VisitsAreCounted: an illegal word, KEY with the shortest and with no key, a SETUP, ENCODE and DECODE. -/
theorem witness_VisitsAreCounted :
    (∀ cw payload, Inv (checking cw payload) ∧ (checking cw payload).seq.phase = .check) ∧
      decodeCommand (checking 0x0000 []).port.cw (checking 0x0000 []).len = .error .opZero ∧
      decodeCommand (checking 0x0100 [1]).port.cw (checking 0x0100 [1]).len = .ok .key ∧
      decodeCommand (checking 0x0100 []).port.cw (checking 0x0100 []).len = .ok .key ∧
      decodeCommand (checking 0x0601 []).port.cw (checking 0x0601 []).len = .ok (setupInstr .w32 1) ∧
      decodeCommand (checking 0x0200 [0, 1]).port.cw (checking 0x0200 [0, 1]).len = .ok .encode ∧
      decodeCommand (checking 0x0300 []).port.cw (checking 0x0300 []).len = .ok .decode :=
  ⟨fun _ _ => ⟨checking_inv _ _, rfl⟩, by decide⟩

/-- A SETUP at CHECK whose checks pass. -/
theorem witness_WorkCountsOfSetup :
    let s : State := (session.accept 0x0601 [] []).toPhase .check
    Inv s ∧ s.seq.phase = .check ∧ decodeCommand s.port.cw s.len = .ok (setupInstr .w32 1) ∧ s.key.valid = true ∧
      s.key.klen.toNat % Width.w32.bytes = 0 :=
  ⟨⟨by decide, by decide, by decide, by decide, by decide, by decide, trivial⟩, rfl, by decide, rfl, by decide⟩

/-- An ENCODE and a DECODE at CHECK whose checks pass. -/
theorem witness_WorkCountsOfTransforms :
    let s (cw : BitVec 16) : State := (session.accept cw [0, 1, 2, 3] []).toPhase .check
    Inv (s 0x0200) ∧ (s 0x0200).seq.phase = .check ∧ (s 0x0200).eng.state = .ready ∧
      (s 0x0200).len % (s 0x0200).eng.wsel.block = 0 ∧
      decodeCommand (s 0x0200).port.cw (s 0x0200).len = .ok .encode ∧
      decodeCommand (s 0x0300).port.cw (s 0x0300).len = .ok .decode :=
  ⟨⟨by decide, by decide, by decide, by decide, by decide, by decide, trivial⟩, rfl, rfl, by decide, by decide, by decide⟩

/-- Two states in an encode round that differ in a subkey, in `A`, and in a key byte. -/
theorem witness_ControlDoesNotDependOnData :
    let s : State := { session.accept 0x0200 [0, 1] [] with seq := { session.seq with phase := .encRound, RND := 1 } }
    let s' : State :=
      { s with
        key := { s.key with keybuf := (State.keyed State.reset [9, 1, 2, 3]).key.keybuf }
        eng := { s.eng with S := [0, 0, 0, 0] }
        work := { s.work with A := 5 } }
    SameControl s s' ∧ s ≠ s' ∧ ∃ t, visit s = .next t :=
  ⟨⟨rfl, rfl, rfl, rfl, rfl, by decide, rfl, rfl, rfl, rfl, rfl, rfl⟩, by decide, ⟨_, rfl⟩⟩

end Sys2Proof.Tests
end

section
/-! Proofs of the family 10_state.md: the key slot and the engine slot are independent (R31). -/

namespace Sys2Proof.Machine

/-- The engine slot and the payload decide the checks of ENCODE and DECODE (R169, R170, R178). -/
theorem transformCheck_congr {s s' : State} (he : s'.eng = s.eng) (hp : s'.port.payload = s.port.payload) :
    transformCheck s' = transformCheck s := by
  unfold transformCheck State.len
  rw [he, hp]

/-- The engine slot and the payload decide whether a transform answers, and what; the end value of the round counter
is scratch and does not show in the answer (R187). -/
theorem transform_resp_congr {n n' : Nat}
    {f : (W : Width) → List Slot → Nat → BitVec W.bits × BitVec W.bits → BitVec W.bits × BitVec W.bits}
    {s s' t : State} (he : s'.eng = s.eng) (hp : s'.port.payload = s.port.payload) (h : transform n f s = .next t) :
    ∃ t', transform n' f s' = .next t' ∧ t'.resp = t.resp := by
  have hcheck := transformCheck_congr he hp
  rcases transform_cases h with ⟨v, hv, rfl⟩ | ⟨hnone, hheld, rfl⟩
  · exact ⟨_, transform_fails (hcheck.trans hv), rfl⟩
  · have hheld' : ¬ (0 < s'.len ∧ s'.eng.S.length < subkeyCount s'.eng.rounds) := by
      rwa [State.len, he, hp]
    refine ⟨_, transform_succeeds (hcheck.trans hnone) hheld', ?_⟩
    rw [respond_eq, deliver_resp, respond_eq, deliver_resp, he, hp]

/-- ENCODE and DECODE answer alike in two states with the same engine slot and the same payload (R187). -/
theorem exec_transform_resp_congr {i : Instr} (hi : i = .encode ∨ i = .decode) {s s' t : State} (he : s'.eng = s.eng)
    (hp : s'.port.payload = s.port.payload) (h : exec i s = .next t) :
    ∃ t', exec i s' = .next t' ∧ t'.resp = t.resp := by
  rcases hi with rfl | rfl
  · exact transform_resp_congr he hp h
  · exact transform_resp_congr he hp h

/-- A KEY, succeeding or failing, keeps the engine slot (R31). -/
theorem execKey_eng {s t : State} (h : execKey s = .next t) : t.eng = s.eng := by
  rcases execKey_cases h with ⟨v, _, rfl⟩ | ⟨_, rfl⟩
  · rw [raise_eq, deliver_eng]
  · rw [respond_eq, deliver_eng, storeKey_eng]

/-- A SETUP, succeeding or failing, keeps the key slot (R31). -/
theorem setup_key {W : Width} {r : BitVec 8} {s t : State} (h : setup W r s = .next t) : t.key = s.key := by
  rcases setup_cases h with ⟨v, _, rfl⟩ | ⟨ds, _, _, rfl⟩
  · rw [raise_eq, deliver_key]
  · rw [respond_eq, deliver_key, installEngine_key]

/-- Settles O44: KEY keeps the engine slot, which with the payload decides every answer of ENCODE and DECODE, and SETUP
keeps the key slot. -/
theorem slotsAreIndependent : Obligations.SlotsAreIndependent := by
  unfold Obligations.SlotsAreIndependent
  refine ⟨fun s t hkey => ?_, fun W r s t hsetup => ?_⟩
  · have heng : t.eng = s.eng := execKey_eng hkey
    refine ⟨heng, fun p i hi u hu => ?_⟩
    exact exec_transform_resp_congr hi (s := s.withPayload p) (s' := t.withPayload p) heng rfl hu
  · rw [exec_setupInstr] at hsetup
    exact setup_key hsetup

end Sys2Proof.Machine
end

section
/-! Proofs of the family 30_encoding.md, the decoder: which words and lengths decode, and to what (R74, R80). -/

namespace Sys2Proof

/-! ### The rows' masks -/

/-- The mask of KEY's, ENCODE's and DECODE's rows keeps the whole word. -/
theorem and_wholeWord (cw : BitVec 16) : cw &&& 0xFFFF = cw := BitVec.and_allOnes

/-- The mask of a SETUP's row keeps the high byte. -/
theorem and_highByte_toNat (cw : BitVec 16) : (cw &&& 0xFF00).toNat = 256 * (cw.toNat / 256) := by
  have hmask : cw &&& (0xFF00 : BitVec 16) = cw >>> 8 <<< 8 :=
    (BitVec.shiftLeft_ushiftRight (x := cw) (n := 8)).symm
  rw [hmask, BitVec.toNat_shiftLeft, BitVec.toNat_ushiftRight, Nat.shiftLeft_eq, Nat.shiftRight_eq_div_pow]
  omega

/-- A word has the operation `op` and the round count `r` exactly when its high byte is that of `op`'s row and its low
byte is `r` (R71, R73). -/
theorem eq_commandWord_iff (cw : BitVec 16) (op : BitVec 3) (r : BitVec 8) :
    cw = commandWord op r ↔ cw &&& 0xFF00 = commandWord op 0 ∧ r.toNat = cw.toNat % 256 := by
  have hr := r.isLt
  have hz : (0 : BitVec 8).toNat = 0 := rfl
  rw [← BitVec.toNat_inj, ← BitVec.toNat_inj, and_highByte_toNat, commandWord_toNat, commandWord_toNat, hz]
  omega

/-! ### What decodes -/

/-- A SETUP is none of the commands that take a payload. -/
theorem ne_setupInstr {i : Instr} (hi : i.takesPayload = true) (W : Width) (r : BitVec 8) : i ≠ setupInstr W r := by
  rintro rfl
  cases W <;> cases hi

theorem setupInstr_inj {W W' : Width} {r r' : BitVec 8} : setupInstr W r = setupInstr W' r' ↔ W = W' ∧ r = r' := by
  cases W <;> cases W' <;> simp [setupInstr]

/-- The words that decode, and what to: `decodeCommand_ok` with its converse (R74, R77). -/
theorem decodeCommand_ok_iff {cw : BitVec 16} {len : Nat} {i : Instr} :
    decodeCommand cw len = .ok i ↔
      (i = .key ∧ cw = 0x0100) ∨ (i = .encode ∧ cw = 0x0200) ∨ (i = .decode ∧ cw = 0x0300) ∨
        ∃ W r, i = setupInstr W r ∧ cw = commandWord ((1 : BitVec 1) ++ W.code) r ∧ len = 0 := by
  refine ⟨decodeCommand_ok, ?_⟩
  rintro (⟨rfl, rfl⟩ | ⟨rfl, rfl⟩ | ⟨rfl, rfl⟩ | ⟨W, r, rfl, rfl, rfl⟩)
  · exact decodeCommand_keyWord len
  · exact decodeCommand_encodeWord len
  · exact decodeCommand_decodeWord len
  · exact decodeCommand_setupWord W r

theorem decodeCommand_eq_key_iff (cw : BitVec 16) (len : Nat) : decodeCommand cw len = .ok .key ↔ cw = 0x0100 := by
  simp [decodeCommand_ok_iff, ne_setupInstr (i := .key) rfl]

theorem decodeCommand_eq_encode_iff (cw : BitVec 16) (len : Nat) :
    decodeCommand cw len = .ok .encode ↔ cw = 0x0200 := by
  simp [decodeCommand_ok_iff, ne_setupInstr (i := .encode) rfl]

theorem decodeCommand_eq_decode_iff (cw : BitVec 16) (len : Nat) :
    decodeCommand cw len = .ok .decode ↔ cw = 0x0300 := by
  simp [decodeCommand_ok_iff, ne_setupInstr (i := .decode) rfl]

/-- The SETUP of a width and a round count decodes from the words of its row with the count in the low byte, beside an
empty payload (R74, R76). -/
theorem decodeCommand_eq_setup_iff (cw : BitVec 16) (len : Nat) (W : Width) (r : BitVec 8) :
    decodeCommand cw len = .ok (setupInstr W r) ↔
      cw &&& 0xFF00 = commandWord ((1 : BitVec 1) ++ W.code) 0 ∧ r.toNat = cw.toNat % 256 ∧ len = 0 := by
  have hword :
      decodeCommand cw len = .ok (setupInstr W r) ↔ cw = commandWord ((1 : BitVec 1) ++ W.code) r ∧ len = 0 := by
    constructor
    · intro h
      rcases decodeCommand_ok h with ⟨hi, _⟩ | ⟨hi, _⟩ | ⟨hi, _⟩ | ⟨W', r', hi, hcw⟩
      · exact absurd hi.symm (ne_setupInstr rfl W r)
      · exact absurd hi.symm (ne_setupInstr rfl W r)
      · exact absurd hi.symm (ne_setupInstr rfl W r)
      · obtain ⟨rfl, rfl⟩ := setupInstr_inj.1 hi
        exact hcw
    · rintro ⟨rfl, rfl⟩
      exact decodeCommand_setupWord W r
  rw [hword, eq_commandWord_iff, and_assoc]

/-- A SETUP's row has a word for each round count, so the row and the empty payload decide that some SETUP decodes. -/
theorem exists_decodeCommand_eq_setup_iff (cw : BitVec 16) (len : Nat) (W : Width) :
    (∃ r, decodeCommand cw len = .ok (setupInstr W r)) ↔
      cw &&& 0xFF00 = commandWord ((1 : BitVec 1) ++ W.code) 0 ∧ len = 0 := by
  simp only [decodeCommand_eq_setup_iff]
  constructor
  · rintro ⟨r, hrow, _, hlen⟩
    exact ⟨hrow, hlen⟩
  · rintro ⟨hrow, hlen⟩
    exact ⟨BitVec.ofNat 8 cw.toNat, hrow, BitVec.toNat_ofNat _ _, hlen⟩

/-- A word and a length have no instruction exactly when they have an error: the decoder is total (R77). -/
theorem exists_decodeCommand_error_iff (cw : BitVec 16) (len : Nat) :
    (∃ e, decodeCommand cw len = .error e) ↔ ¬ ∃ i, decodeCommand cw len = .ok i := by
  cases decodeCommand cw len <;> simp

/-- The instructions that a command word can have, as alternatives of the word (R74). -/
theorem exists_decodeCommand_ok_iff (cw : BitVec 16) (len : Nat) :
    (∃ i, decodeCommand cw len = .ok i) ↔
      cw = 0x0100 ∨ cw = 0x0200 ∨ cw = 0x0300 ∨ ∃ W r, decodeCommand cw len = .ok (setupInstr W r) := by
  constructor
  · rintro ⟨i, hi⟩
    rcases decodeCommand_ok hi with ⟨_, hcw⟩ | ⟨_, hcw⟩ | ⟨_, hcw⟩ | ⟨W, r, rfl, _⟩
    · exact .inl hcw
    · exact .inr (.inl hcw)
    · exact .inr (.inr (.inl hcw))
    · exact .inr (.inr (.inr ⟨W, r, hi⟩))
  · rintro (rfl | rfl | rfl | ⟨W, r, h⟩)
    · exact ⟨_, decodeCommand_keyWord len⟩
    · exact ⟨_, decodeCommand_encodeWord len⟩
    · exact ⟨_, decodeCommand_decodeWord len⟩
    · exact ⟨_, h⟩

theorem exists_width {p : Width → Prop} : (∃ W, p W) ↔ p .w8 ∨ p .w16 ∨ p .w32 ∨ p .w64 := by
  constructor
  · rintro ⟨W, h⟩
    cases W
    · exact .inl h
    · exact .inr (.inl h)
    · exact .inr (.inr (.inl h))
    · exact .inr (.inr (.inr h))
  · rintro (h | h | h | h) <;> exact ⟨_, h⟩

/-- A word has an instruction exactly when it is in a row of KEY, ENCODE or DECODE, or in a SETUP's row beside an empty
payload (R74). -/
theorem decodes_iff_row (cw : BitVec 16) (len : Nat) :
    (∃ i, decodeCommand cw len = .ok i) ↔
      cw = 0x0100 ∨ cw = 0x0200 ∨ cw = 0x0300 ∨
        ((cw &&& 0xFF00 = 0x0400 ∨ cw &&& 0xFF00 = 0x0500 ∨ cw &&& 0xFF00 = 0x0600 ∨ cw &&& 0xFF00 = 0x0700) ∧
          len = 0) := by
  have hsetup : (∃ W r, decodeCommand cw len = .ok (setupInstr W r)) ↔
      (cw &&& 0xFF00 = 0x0400 ∨ cw &&& 0xFF00 = 0x0500 ∨ cw &&& 0xFF00 = 0x0600 ∨ cw &&& 0xFF00 = 0x0700) ∧ len = 0 := by
    simp only [exists_decodeCommand_eq_setup_iff, exists_and_right]
    exact and_congr_left' exists_width
  rw [exists_decodeCommand_ok_iff, hsetup]

/-- Settles O3: each row by the word's equation for its instruction, the errors by what is left. -/
theorem commandWordsSelectTheirRows : Obligations.CommandWordsSelectTheirRows := by
  unfold Obligations.CommandWordsSelectTheirRows
  intro cw len
  rw [and_wholeWord]
  refine ⟨decodeCommand_eq_key_iff cw len, decodeCommand_eq_encode_iff cw len, decodeCommand_eq_decode_iff cw len,
    fun r => ⟨?_, ?_, ?_, ?_⟩, ?_⟩
  · exact decodeCommand_eq_setup_iff cw len .w8 r
  · exact decodeCommand_eq_setup_iff cw len .w16 r
  · exact decodeCommand_eq_setup_iff cw len .w32 r
  · exact decodeCommand_eq_setup_iff cw len .w64 r
  · rw [exists_decodeCommand_error_iff, decodes_iff_row]

end Sys2Proof
end

section
/-! Proofs of the family 30_encoding.md, the commands at the port: illegal commands (R80), the lengths that a response reports
(R79), and NEWENGINE (R84). -/

namespace Sys2Proof.Machine

/-! ### Illegal commands -/

/-- A word that decodes has clear reserved bits and an `OP` other than 0; its low byte is 0 unless it is a SETUP's, and a
SETUP stands beside an empty payload: none of the four kinds of R80. -/
theorem decodeCommand_ok_fields {cw : BitVec 16} {len : Nat} {i : Instr} (h : decodeCommand cw len = .ok i) :
    cw.toNat / 2 ^ 11 = 0 ∧ cw.toNat / 2 ^ 8 % 8 ≠ 0 ∧ (cw.toNat / 2 ^ 8 % 8 ≤ 3 → cw.toNat % 2 ^ 8 = 0) ∧
      (4 ≤ cw.toNat / 2 ^ 8 % 8 → len = 0) := by
  rcases decodeCommand_ok h with ⟨_, rfl⟩ | ⟨_, rfl⟩ | ⟨_, rfl⟩ | ⟨W, r, _, rfl, hlen⟩
  · exact ⟨by decide, by decide, by decide, fun hop => absurd hop (by decide)⟩
  · exact ⟨by decide, by decide, by decide, fun hop => absurd hop (by decide)⟩
  · exact ⟨by decide, by decide, by decide, fun hop => absurd hop (by decide)⟩
  · have hop : 4 ≤ ((1 : BitVec 1) ++ W.code).toNat := by cases W <;> decide
    have hr := r.isLt
    rw [commandWord_toNat]
    omega

/-- The four kinds of illegal command have no instruction (R80). -/
theorem decodeCommand_error_of_illegal {cw : BitVec 16} {len : Nat}
    (h : cw.toNat / 2 ^ 11 ≠ 0 ∨ cw.toNat / 2 ^ 8 % 8 = 0 ∨ (cw.toNat / 2 ^ 8 % 8 ≤ 3 ∧ cw.toNat % 2 ^ 8 ≠ 0) ∨
      (4 ≤ cw.toNat / 2 ^ 8 % 8 ∧ len ≠ 0)) :
    ∃ e, decodeCommand cw len = .error e := by
  rw [exists_decodeCommand_error_iff]
  rintro ⟨i, hi⟩
  obtain ⟨hrsv, hop, hrounds, hlen⟩ := decodeCommand_ok_fields hi
  rcases h with h | h | ⟨hle, h⟩ | ⟨hge, h⟩
  · exact h hrsv
  · exact hop h
  · exact h (hrounds hle)
  · exact h (hlen hge)

/-- Settles O4: an illegal packet raises the verdict of R80 on the state that has accepted it, and raising writes nothing but
the response and gives word and payload back. -/
theorem illegalCommandsChangeNothing : Obligations.IllegalCommandsChangeNothing := by
  unfold Obligations.IllegalCommandsChangeNothing
  refine ⟨rfl, fun s cw payload hidle hlen hill => ?_⟩
  obtain ⟨e, he⟩ := decodeCommand_error_of_illegal hill
  refine ⟨raise illegalVerdict (s.accept cw payload s.port.inbox), ?_, ?_, rfl, rfl⟩
  · rw [step_offer hidle cw payload hlen, runCommand_accept_error he]
  · exact raise_failsWith illegalVerdict (s.accept cw payload s.port.inbox)

/-! ### The lengths of a response -/

/-- A failed check of a command gives its settled verdict. -/
theorem settle_fails {s : State} {i : Instr} {v : Verdict} (hd : decodeCommand s.port.cw s.len = .ok i)
    (hc : commandCheck i s = some v) : settle s = v := by
  simp only [settle, hd, hc, Option.getD_some]

/-- A command whose checks pass settles on OK. -/
theorem settle_passes {s : State} {i : Instr} (hd : decodeCommand s.port.cw s.len = .ok i)
    (hc : commandCheck i s = none) : settle s = Verdict.ok := by
  simp only [settle, hd, hc, Option.getD_none]

/-- The verdict that CHECK settles on is what a command reports, in success and in failure (R210). -/
theorem runCommand_reports_settle {s t : State} (h : runCommand s = .next t) :
    ∃ bytes, t.resp = responseOf (settle s) bytes := by
  rcases runCommand_effects h with ⟨v, rfl, hv⟩ | ⟨hd, hc, rfl⟩ | ⟨W, r, ds, hd, hc, _, rfl⟩ | ⟨i, n, f, hi, hd, hc, rfl⟩
  · exact ⟨[], congrArg State.resp (runCommand_raises h hv)⟩
  · exact ⟨_, by rw [settle_passes hd hc]; rfl⟩
  · exact ⟨_, by rw [settle_passes hd ((commandCheck_setupInstr W r s).trans hc)]; rfl⟩
  · have hcheck : commandCheck i s = none := by rcases hi with rfl | rfl <;> exact hc
    exact ⟨_, by rw [settle_passes hd hcheck]; rfl⟩

/-- The verdicts a command can settle on in `s`: a length error with the lengths of R79, or another status with none. -/
inductive Reportable (s : State) : Verdict → Prop where
  /-- Every status that is no length error, but `Internal` (R78, R204). -/
  | plain {st : Status} (h : st = .ok ∨ st = .noKey ∨ st = .notReady ∨ st = .illegalCommand) : Reportable s ⟨st, 0, 0⟩
  /-- KEY's length error (R122, R201). -/
  | keyLength : Reportable s ⟨.invalidKeyLength, BitVec.ofNat 32 s.len, 0⟩
  /-- SETUP's length error (R142). -/
  | keyAlignment {W : Width} {r : BitVec 8} (h : decodeCommand s.port.cw s.len = .ok (setupInstr W r)) :
    Reportable s ⟨.keyNotWordAligned, s.key.klen.setWidth 32, BitVec.ofNat 32 W.bytes⟩
  /-- The length error of ENCODE and DECODE (R169). -/
  | inputAlignment :
    Reportable s ⟨.inputNotBlockAligned, BitVec.ofNat 32 s.len, BitVec.ofNat 32 s.eng.wsel.block⟩

theorem transformCheck_reportable {s : State} {v : Verdict} (h : transformCheck s = some v) : Reportable s v := by
  rcases transformCheck_some h with ⟨_, rfl⟩ | ⟨_, _, rfl⟩
  · exact .plain (by simp)
  · exact .inputAlignment

/-- Every command settles on one of these verdicts (R79, R207). -/
theorem settle_reportable (s : State) : Reportable s (settle s) := by
  cases hd : decodeCommand s.port.cw s.len with
  | error e =>
    have hs : settle s = illegalVerdict := by simp only [settle, hd]
    rw [hs]
    exact .plain (by simp)
  | ok i =>
    cases hc : commandCheck i s with
    | none =>
      rw [settle_passes hd hc]
      exact .plain (by simp)
    | some v =>
      rw [settle_fails hd hc]
      rcases decodeCommand_instr hd with rfl | rfl | rfl | ⟨W, r, rfl⟩
      · rw [(keyCheck_some hc).2]
        exact .keyLength
      · exact transformCheck_reportable hc
      · exact transformCheck_reportable hc
      · rw [commandCheck_setupInstr] at hc
        rcases setupCheck_some hc with ⟨_, rfl⟩ | ⟨_, _, rfl⟩
        · exact .plain (by simp)
        · exact .keyAlignment hd

theorem ofNat32_bytes_toNat (W : Width) : (BitVec.ofNat 32 W.bytes).toNat = W.bytes := by cases W <;> rfl

theorem ofNat32_block_toNat (W : Width) : (BitVec.ofNat 32 W.block).toNat = W.block := by cases W <;> rfl

/-- Settles O49: the response is that of the settled verdict, whose lengths, all below 2^32, stand in the state that has
accepted the packet. -/
theorem offendingLengthsAreReported : Obligations.OffendingLengthsAreReported := by
  unfold Obligations.OffendingLengthsAreReported
  intro s t cw payload hidle hstep
  obtain ⟨hlen, hrun⟩ := step_offer_next hidle hstep
  obtain ⟨bytes, hresp⟩ := runCommand_reports_settle hrun
  have hpayload : (BitVec.ofNat 32 payload.length).toNat = payload.length :=
    (BitVec.toNat_ofNat _ _).trans (Nat.mod_eq_of_lt hlen)
  have hklen : (s.key.klen.setWidth 32).toNat = s.key.klen.toNat := BitVec.toNat_setWidth_of_le (by decide)
  have hreport := settle_reportable (s.accept cw payload s.port.inbox)
  rw [hresp]
  generalize settle (s.accept cw payload s.port.inbox) = v at hreport
  cases hreport with
  | plain hst =>
    refine ⟨?_, ?_, ?_, fun _ => ⟨rfl, rfl⟩⟩ <;>
    · rintro rfl
      simp at hst
  | keyLength => exact ⟨fun _ => ⟨hpayload, rfl⟩, nofun, nofun, by simp [responseOf]⟩
  | @keyAlignment W r hd =>
    exact ⟨nofun, fun _ => ⟨hklen, W, r, hd, ofNat32_bytes_toNat W⟩, nofun, by simp [responseOf]⟩
  | inputAlignment =>
    exact ⟨nofun, nofun, fun _ => ⟨hpayload, ofNat32_block_toNat _⟩, by simp [responseOf]⟩

/-! ### NEWENGINE -/

/-- Settles O52: the packet of KEY answers, and SETUP's packet finds the machine idle again. -/
theorem newEngineIsKeyThenSetup : Obligations.NewEngineIsKeyThenSetup := by
  unfold Obligations.NewEngineIsKeyThenSetup
  intro W r keyBytes s hidle hlen
  obtain ⟨t, hkey⟩ := execKey_next (s.accept 0x0100 keyBytes s.port.inbox)
  have hrun : runCommand (s.accept 0x0100 keyBytes s.port.inbox) = .next t := by
    rw [runCommand_accept_ok (decodeCommand_keyWord _)]
    exact hkey
  obtain ⟨hphase, huop⟩ := runCommand_idle hrun
  have hidle' : Idle t := ⟨huop.trans hidle.1, hphase⟩
  have hexpand : newEngine W r keyBytes s =
      if t.resp.status = .ok then
        runCommand (t.accept (commandWord ((1 : BitVec 1) ++ W.code) r) [] t.port.inbox)
      else .next t := by
    have hword : commandWord 1 0 = 0x0100 := rfl
    rw [newEngine, hword, framed_fits hlen, hrun, andThen_next]
  refine ⟨t, (step_offer hidle _ _ hlen).trans hrun, fun hfail => ?_, fun hok => ?_⟩
  · rw [hexpand, if_neg hfail]
  · rw [hexpand, if_pos hok, step_offer hidle' _ [] (by decide)]

end Sys2Proof.Machine
end

section
/-! Proofs of the family 40_word_datapath.md: the eleven primitive micro-operations, each with its select code, its value and
its frame (R90 to R100). -/

namespace Sys2Proof.Machine

/-! ### The meaning of each instruction -/

theorem exec_zero (s : State) : exec .zero s = .next (s.setRes (zeroWord s.width.bits)) := rfl

theorem exec_pw (s : State) : exec .pw s = .next (s.setRes (pWord s.width)) := rfl

theorem exec_qw (s : State) : exec .qw s = .next (s.setRes (qWord s.width)) := rfl

theorem exec_addw (s : State) : exec .addw s = .next (s.setRes (addWord s.opX s.opY)) := rfl

theorem exec_subw (s : State) : exec .subw s = .next (s.setRes (subWord s.opX s.opY)) := rfl

theorem exec_xorw (s : State) : exec .xorw s = .next (s.setRes (xorWord s.opX s.opY)) := rfl

theorem exec_rotl (s : State) : exec .rotl s = .next (s.setRes (rotlWord s.opX s.opY.toNat)) := rfl

theorem exec_rotr (s : State) : exec .rotr s = .next (s.setRes (rotrWord s.opX s.opY.toNat)) := rfl

theorem exec_modw (s : State) : exec .modw s = .next (s.setRes (BitVec.ofNat s.width.bits (modWord s.opX))) := rfl

theorem exec_lepack (s : State) : exec .lepack s = .next (s.setRes (lePack s.width.bits s.opBytes)) := rfl

theorem exec_leunpack (s : State) : exec .leunpack s = .next (s.setResBytes (leUnpack s.width s.opX)) := rfl

/-! ### The operands and the result -/

/-- Writing the result latch writes nothing else (R101). -/
theorem onlyResult_setRes (s : State) {w : Nat} (v : BitVec w) : OnlyResult s (s.setRes v) := rfl

/-- The result reads back at the width in use. -/
@[simp] theorem State.result_setRes (s : State) (v : BitVec s.width.bits) : s.result (s.setRes v) = v :=
  toWord_ofWord s.width v

theorem toWord_toNat (w : Nat) (x : Slot) : (toWord w x).toNat = x.toNat % 2 ^ w := BitVec.toNat_setWidth w x

/-- A store and the word it holds agree on the word's bits (R42). -/
theorem toWord_getLsbD {w k : Nat} (x : Slot) (hk : k < w) : (toWord w x).getLsbD k = x.getLsbD k := by
  rw [toWord, BitVec.getLsbD_setWidth, decide_eq_true hk, Bool.true_and]

/-- A store and the word it holds agree on the word's bytes (R42, R50). -/
theorem toWord_byte {W : Width} {k : Nat} (x : Slot) (hk : k < W.bytes) :
    (toWord W.bits x).extractLsb' (8 * k) 8 = x.extractLsb' (8 * k) 8 := by
  have hbits := bits_eq_bytes W
  ext i hi
  rw [BitVec.getElem_extractLsb', BitVec.getElem_extractLsb', toWord_getLsbD x (by omega)]

theorem State.opX_toNat (s : State) : s.opX.toNat = s.dp.x.toNat % 2 ^ s.width.bits := toWord_toNat _ _

theorem State.opY_toNat (s : State) : s.opY.toNat = s.dp.y.toNat % 2 ^ s.width.bits := toWord_toNat _ _

theorem bytes_le_eight (W : Width) : W.bytes ≤ 8 := by cases W <;> decide

@[simp] theorem State.opBytes_length (s : State) : s.opBytes.length = s.width.bytes := by
  rw [opBytes, List.length_take, Vector.length_toList, Nat.min_eq_left (bytes_le_eight s.width)]

theorem State.opBytes_getElem? {s : State} {k : Nat} (hk : k < s.width.bytes) : s.opBytes[k]? = s.dp.bytes[k]? := by
  rw [opBytes, List.getElem?_take_of_lt hk, Vector.getElem?_toList]

/-! ### The rotators -/

/-- Settles O16: the bits of the library's rotation (`rotlWord_getLsbD`), at the operand's own bits. -/
theorem rotateLeftMovesEachBit : Obligations.RotateLeftMovesEachBit := by
  unfold Obligations.RotateLeftMovesEachBit
  refine ⟨rfl, fun s => ⟨_, exec_rotl s, onlyResult_setRes s _, fun k hk => ?_⟩⟩
  rw [State.result_setRes, ← State.opY_toNat, rotlWord_getLsbD _ _ _ hk]
  exact toWord_getLsbD _ hk

/-- Settles O17: the bits of the library's rotation (`rotrWord_getLsbD`); the bit that moves is one of the operand's, since
its index is reduced. -/
theorem rotateRightMovesEachBit : Obligations.RotateRightMovesEachBit := by
  unfold Obligations.RotateRightMovesEachBit
  refine ⟨rfl, fun s => ⟨_, exec_rotr s, onlyResult_setRes s _, fun k hk => ?_⟩⟩
  rw [State.result_setRes, ← State.opY_toNat, rotrWord_getLsbD _ _ _ hk]
  exact toWord_getLsbD _ (Nat.mod_lt _ (bits_pos s.width))

/-! ### The packers -/

/-- Settles O19: LEPACK's operand has exactly `u` bytes, so each stands where `lePack_byte` puts it. -/
theorem packIsLittleEndian : Obligations.PackIsLittleEndian := by
  unfold Obligations.PackIsLittleEndian
  refine ⟨rfl, fun s => ⟨_, exec_lepack s, onlyResult_setRes s _, fun k hk => ?_⟩⟩
  rw [State.result_setRes, ← lePack_byte s.width s.opBytes s.opBytes_length k hk, State.opBytes_getElem? hk]

/-- Settles O20: the bytes of LEUNPACK's result are those of the operand's word, hence of its store; the inverse laws are
`lePack_leUnpack` and `leUnpack_lePack`. -/
theorem unpackIsLittleEndian : Obligations.UnpackIsLittleEndian := by
  unfold Obligations.UnpackIsLittleEndian
  refine ⟨rfl, fun s => ⟨_, exec_leunpack s, rfl, leUnpack_length _ _, fun k hk => ?_⟩, lePack_leUnpack, leUnpack_lePack⟩
  calc (leUnpack s.width s.opX)[k]?
      _ = some (s.opX.extractLsb' (8 * k) 8) := leUnpack_getElem? s.width s.opX k hk
      _ = some (s.dp.x.extractLsb' (8 * k) 8) := congrArg some (toWord_byte s.dp.x hk)

/-! ### The constants -/

/-- Settles O12: the tabulated constants, width by width. -/
theorem constantsOfTheWidthInUse : Obligations.ConstantsOfTheWidthInUse := by
  unfold Obligations.ConstantsOfTheWidthInUse
  refine ⟨rfl, rfl, rfl, fun s => ⟨_, _, _, exec_zero s, exec_pw s, exec_qw s, onlyResult_setRes s _,
    onlyResult_setRes s _, onlyResult_setRes s _, ?_⟩⟩
  simp only [State.result_setRes]
  refine ⟨BitVec.toNat_zero, ?_, ?_⟩
  · cases s.width <;> rfl
  · cases s.width <;> rfl

/-! ### Arithmetic and logic -/

/-- Settles O13: the adder's value (`addWord_toNat`), at the operands' own values. -/
theorem adderAddsModuloTheWidth : Obligations.AdderAddsModuloTheWidth := by
  unfold Obligations.AdderAddsModuloTheWidth
  refine ⟨rfl, fun s => ⟨_, exec_addw s, onlyResult_setRes s _, ?_⟩⟩
  rw [State.result_setRes, addWord_toNat, State.opX_toNat, State.opY_toNat]

/-- SUBW without and with a borrow (R94). -/
theorem subWord_toNat_eq_ite {w : Nat} (x y : BitVec w) :
    (subWord x y).toNat = if y.toNat ≤ x.toNat then x.toNat - y.toNat else x.toNat + 2 ^ w - y.toNat := by
  split
  case isTrue hle => exact BitVec.toNat_sub_of_le hle
  case isFalse hlt =>
    have hy := y.isLt
    rw [subWord_toNat, Nat.mod_eq_of_lt (by omega)]
    omega

/-- Settles O14: the subtractor's two cases, at the operands' own values. -/
theorem subtractorSubtractsModuloTheWidth : Obligations.SubtractorSubtractsModuloTheWidth := by
  unfold Obligations.SubtractorSubtractsModuloTheWidth
  refine ⟨rfl, fun s => ⟨_, exec_subw s, onlyResult_setRes s _, ?_⟩⟩
  rw [State.result_setRes, ← State.opX_toNat, ← State.opY_toNat]
  exact subWord_toNat_eq_ite s.opX s.opY

/-- Settles O15: below the width, the bits of the operands' words are those of their stores. -/
theorem xorIsTakenBitByBit : Obligations.XorIsTakenBitByBit := by
  unfold Obligations.XorIsTakenBitByBit
  refine ⟨rfl, fun s => ⟨_, exec_xorw s, onlyResult_setRes s _, fun k hk => ?_⟩⟩
  rw [State.result_setRes, xorWord, BitVec.getLsbD_xor, State.opX, State.opY, toWord_getLsbD _ hk, toWord_getLsbD _ hk]

/-- Every width is a power of two, so a number's remainder modulo `w` is decided by its low `w` bits (R98). -/
theorem bits_dvd_two_pow_bits (W : Width) : W.bits ∣ 2 ^ W.bits := by cases W <;> decide

/-- A rotation count fits a word, so MODW's result is the count itself (R98). -/
theorem ofNat_modWord_toNat (W : Width) (x : BitVec W.bits) :
    (BitVec.ofNat W.bits (modWord x)).toNat = x.toNat % W.bits := by
  have hlt : modWord x < 2 ^ W.bits := (modWord_lt (bits_pos W) x).trans Nat.lt_two_pow_self
  rw [BitVec.toNat_ofNat, Nat.mod_eq_of_lt hlt, modWord]

/-- Settles O18: the count is that of the operand's word, which is that of its store since `w` divides `2^w`. -/
theorem modGivesTheRotationCount : Obligations.ModGivesTheRotationCount := by
  unfold Obligations.ModGivesTheRotationCount
  refine ⟨rfl, fun s => ⟨_, exec_modw s, onlyResult_setRes s _, ?_⟩⟩
  rw [State.result_setRes, ofNat_modWord_toNat, State.opX_toNat, Nat.mod_mod_of_dvd _ (bits_dvd_two_pow_bits s.width)]
  exact ⟨rfl, Nat.mod_lt _ (bits_pos s.width)⟩

end Sys2Proof.Machine
end

section
/-! Proofs of the family 41_key_container_and_readers.md: the lengths that KEY takes (R122, R123). -/

namespace Sys2Proof.Machine

/-- Raising a verdict fails with the numbers that its two lengths stand for (R210). -/
theorem raise_failsWith_of {v : Verdict} {s : State} {info0 info1 : Nat} (h0 : v.info0.toNat = info0)
    (h1 : v.info1.toNat = info1) : FailsWith v.status info0 info1 s (raise v s) :=
  h0 ▸ h1 ▸ raise_failsWith v s

/-- Every length up to 256 fits `KLEN`, so the stored length is the payload's (R25, R122). -/
theorem storeKey_klen_toNat {s : State} (h : s.len ≤ 256) : (storeKey s).key.klen.toNat = s.len := by
  rw [storeKey_key]
  exact (BitVec.toNat_ofNat _ _).trans (Nat.mod_eq_of_lt (by omega))

/-- KEY at the port is KEY of the accepted payload (R60, R74). -/
theorem step_offer_key {s : State} (h : Idle s) {payload : List Byte} (hlen : payload.length < 2 ^ 32) :
    step (s.offer 0x0100 payload) = execKey (s.accept 0x0100 payload s.port.inbox) :=
  (step_offer h _ _ hlen).trans (runCommand_accept_ok (decodeCommand_keyWord _))

/-- A SETUP whose `u` does not divide the length of the key in the slot reports both lengths and changes nothing
(R142). -/
theorem setup_misaligned {W : Width} {s : State} (r : BitVec 8) (hvalid : s.key.valid = true)
    (halign : s.key.klen.toNat % W.bytes ≠ 0) :
    ∃ t, exec (setupInstr W r) s = .next t ∧ FailsWith .keyNotWordAligned s.key.klen.toNat W.bytes s t := by
  have hcheck : setupCheck W s = some ⟨.keyNotWordAligned, s.key.klen.setWidth 32, BitVec.ofNat 32 W.bytes⟩ := by
    cases hc : setupCheck W s with
    | none => exact absurd (setupCheck_none.1 hc).2 halign
    | some v =>
      rcases setupCheck_some hc with ⟨hinvalid, _⟩ | ⟨_, _, rfl⟩
      · rw [hvalid] at hinvalid
        cases hinvalid
      · rfl
  have hklen : (s.key.klen.setWidth 32).toNat = s.key.klen.toNat := BitVec.toNat_setWidth_of_le (by decide)
  exact ⟨_, (exec_setupInstr W r s).trans (setup_fails hcheck), raise_failsWith_of hklen (ofNat32_bytes_toNat W)⟩

/-- Every width but 8 has an even number of bytes in a word, so no odd length is a multiple of it (R123). -/
theorem two_dvd_bytes {W : Width} (hW : W ≠ .w8) : 2 ∣ W.bytes := by
  cases W with
  | w8 => exact absurd rfl hW
  | w16 | w32 | w64 => decide

theorem mod_bytes_ne_zero_of_odd {W : Width} (hW : W ≠ .w8) {n : Nat} (hodd : n % 2 = 1) : n % W.bytes ≠ 0 := by
  intro hmod
  have heven : 2 ∣ n := (two_dvd_bytes hW).trans (Nat.dvd_of_mod_eq_zero hmod)
  omega

/-- Settles O30: KEY's check decides between the error, with the payload's length in INFO0, and the stored key, whose length
is the payload's and which a SETUP then checks. -/
theorem keyLengthBoundaries : Obligations.KeyLengthBoundaries := by
  unfold Obligations.KeyLengthBoundaries
  intro s payload hidle hlen
  rw [step_offer_key hidle hlen]
  cases hcheck : keyCheck (s.accept 0x0100 payload s.port.inbox) with
  | some v =>
    obtain ⟨hbad, rfl⟩ := keyCheck_some hcheck
    rw [accept_len] at hbad
    have hinfo : (BitVec.ofNat 32 payload.length).toNat = payload.length :=
      (BitVec.toNat_ofNat _ _).trans (Nat.mod_eq_of_lt hlen)
    exact ⟨_, execKey_fails hcheck, fun hgood => by omega, fun _ => raise_failsWith_of hinfo rfl,
      fun hle hodd => by omega⟩
  | none =>
    have hgood := keyCheck_none.1 hcheck
    rw [accept_len] at hgood
    refine ⟨_, execKey_succeeds hcheck, fun _ => respond_delivers [] s _ (by decide) rfl rfl, fun hbad => by omega,
      fun hle hodd W r hW => ?_⟩
    have hklen : (respond [] (storeKey (s.accept 0x0100 payload s.port.inbox))).key.klen.toNat = payload.length :=
      storeKey_klen_toNat hle
    rw [← hklen] at hodd ⊢
    exact setup_misaligned r rfl (mod_bytes_ne_zero_of_odd hW hodd)

end Sys2Proof.Machine
end

section
/-! Proofs of the family 42_key_expansion.md: the mixer's two micro-operations (R150, R151), and the SETUP commands: their
checks (R141, R142) and the function of the key's bytes that a successful one installs (R153). -/

namespace Sys2Proof.Machine

/-! ### The mixer -/

theorem mixSWord_eq_rotateLeft {w : Nat} (si a b : BitVec w) : mixSWord si a b = (si + a + b).rotateLeft 3 :=
  rotlWord_eq_rotateLeft _ 3

theorem mixLWord_eq_rotateLeft {w : Nat} (lj a b : BitVec w) :
    mixLWord lj a b = (lj + a + b).rotateLeft ((a + b).toNat % w) :=
  rotlWord_eq_rotateLeft _ _

/-- Settles O23: with its subkey at hand MIXS writes the one mixed word to `A` and to `S[I]`, and the word that `A` then holds
at the width in use is the rotated sum. -/
theorem mixSUpdatesOneSubkey : Obligations.MixSUpdatesOneSubkey := by
  unfold Obligations.MixSUpdatesOneSubkey
  refine ⟨rfl, fun s si hsi => ⟨_, execMixs_eq hsi, rfl, ?_⟩⟩
  exact (toWord_ofWord s.width _).trans (mixSWord_eq_rotateLeft _ _ _)

/-- Settles O24: with its key word at hand MIXL writes the one mixed word to `B` and to `L[J]`; sum and count are of the
state before it, so both use the old `B`. -/
theorem mixLUpdatesOneKeyWord : Obligations.MixLUpdatesOneKeyWord := by
  unfold Obligations.MixLUpdatesOneKeyWord
  refine ⟨rfl, fun s lj hlj => ⟨_, execMixl_eq hlj, rfl, ?_⟩⟩
  exact (toWord_ofWord s.width _).trans (mixLWord_eq_rotateLeft _ _ _)

/-! ### The checks of a SETUP -/

/-- With no key in the slot the first check decides, whatever `KLEN` holds (R141). -/
theorem setupCheck_noKey {s : State} (W : Width) (h : s.key.valid = false) : setupCheck W s = some ⟨.noKey, 0, 0⟩ :=
  if_pos h

/-- Every length is a multiple of one byte, so at w=8 only the first check can fail (R142). -/
theorem setupCheck_w8_none {s : State} (h : s.key.valid = true) : setupCheck .w8 s = none :=
  setupCheck_none.2 ⟨h, Nat.mod_one _⟩

/-- Settles O32: the check for a key is the first, and raising its verdict writes nothing but the response. -/
theorem setupWithoutAKey : Obligations.SetupWithoutAKey := by
  unfold Obligations.SetupWithoutAKey
  intro W r s hinvalid
  exact ⟨_, (exec_setupInstr W r s).trans (setup_fails (setupCheck_noKey W hinvalid)), raise_failsWith _ s, rfl⟩

/-- Settles O33: a misaligned key fails the check with both lengths; at w=8 no key is misaligned, and the key's bytes are all
there to be read. -/
theorem setupOfAMisalignedKey : Obligations.SetupOfAMisalignedKey := by
  unfold Obligations.SetupOfAMisalignedKey
  refine ⟨fun W r s hvalid hmis => setup_misaligned r hvalid hmis, fun r s hkey => ?_⟩
  have ⟨hvalid, _⟩ := hkey
  obtain ⟨ds, hread, _⟩ := memReadKeybuf_of_keyReady hkey
  exact ⟨_, setup_succeeds (setupCheck_w8_none hvalid) hread, rfl⟩

/-! ### The engine that a SETUP installs -/

/-- No check of a SETUP reports OK (R141, R142). -/
theorem setupCheck_status_ne_ok {W : Width} {s : State} {v : Verdict} (h : setupCheck W s = some v) : v.status ≠ .ok := by
  rcases setupCheck_some h with ⟨_, rfl⟩ | ⟨_, _, rfl⟩ <;> exact Status.noConfusion

/-- A SETUP that ends OK has read the whole key, and leaves an engine that is a function of its width, its round count and
the key's bytes: the state before it does not enter (R152, R153). -/
theorem setup_eng_of_ok {W : Width} {r : BitVec 8} {s t : State} (h : setup W r s = .next t) (hok : t.resp.status = .ok) :
    ∃ ds, memReadKeybuf s 0 s.key.klen.toNat = some ds ∧
      t.eng = { state := .ready, wsel := W, rounds := r, S := (expandKey W r ds).S.map ofWord } := by
  rcases setup_cases h with ⟨v, hv, rfl⟩ | ⟨ds, _, hread, rfl⟩
  · exact absurd hok (setupCheck_status_ne_ok hv)
  · exact ⟨ds, hread, rfl⟩

/-- Reads of `n` bytes answer alike in two memories that agree on those bytes (R56). -/
theorem Memory.readBytes_congr {m m' : Memory} {a n : Nat}
    (h : ∀ k, k < n → Memory.read m (a + k) = Memory.read m' (a + k)) : Memory.readBytes m a n = Memory.readBytes m' a n := by
  ext1 ds
  rw [Memory.readBytes_eq_some_iff, Memory.readBytes_eq_some_iff]
  exact and_congr_right fun _ => forall₂_congr fun k hk => by rw [h k hk]

/-- Keys of equal length and equal bytes are read alike. -/
theorem memReadKeybuf_congr {s s' : State} (hlen : s.key.klen = s'.key.klen)
    (hbytes : ∀ k, k < s.key.klen.toNat → Memory.read s.key.keybuf k = Memory.read s'.key.keybuf k) :
    memReadKeybuf s 0 s.key.klen.toNat = memReadKeybuf s' 0 s'.key.klen.toNat := by
  rw [← hlen]
  exact Memory.readBytes_congr (by simpa using hbytes)

/-- Settles O34: both SETUPs have read the same bytes, so both have installed the same engine, and the engine with the
payload decides the answer of a transform. -/
theorem equalKeysGiveEqualTables : Obligations.EqualKeysGiveEqualTables := by
  unfold Obligations.EqualKeysGiveEqualTables
  intro W r s s' t t' hlen hbytes h h' hok hok'
  rw [exec_setupInstr] at h h'
  obtain ⟨ds, hread, heng⟩ := setup_eng_of_ok h hok
  obtain ⟨ds', hread', heng'⟩ := setup_eng_of_ok h' hok'
  have hds : ds = ds' := Option.some.inj (hread.symm.trans ((memReadKeybuf_congr hlen hbytes).trans hread'))
  have hsame : t.eng = t'.eng := by rw [heng, heng', hds]
  refine ⟨hsame, fun p i hi u hu => ?_⟩
  exact exec_transform_resp_congr hi (s := t.withPayload p) (s' := t'.withPayload p) hsame.symm rfl hu

end Sys2Proof.Machine
end

section
/-! Proofs of the family 43_block_transform.md: what ENCODE and DECODE reject (R169, R170, R178), what they answer and keep
(R185, R186, R187), and that they undo each other (R184). -/

namespace Sys2Proof.Machine

/-! ### The checks of a transform -/

/-- With no engine in the slot the first check decides, whatever the payload (R169). -/
theorem transformCheck_uninitialised {s : State} (h : s.eng.state = .uninitialised) :
    transformCheck s = some ⟨.notReady, 0, 0⟩ := if_pos h

/-- With an engine in the slot a misaligned payload fails the second check (R170, R178). -/
theorem transformCheck_misaligned {s : State} (hready : s.eng.state = .ready) (hmis : s.len % s.eng.wsel.block ≠ 0) :
    transformCheck s =
      some ⟨.inputNotBlockAligned, BitVec.ofNat 32 s.len, BitVec.ofNat 32 s.eng.wsel.block⟩ := by
  have hstate : s.eng.state ≠ .uninitialised := by rw [hready]; exact EngineState.noConfusion
  rw [transformCheck, if_neg hstate, if_pos hmis]

/-- No check of a transform reports OK (R169, R170). -/
theorem transformCheck_status_ne_ok {s : State} {v : Verdict} (h : transformCheck s = some v) : v.status ≠ .ok := by
  rcases transformCheck_some h with ⟨_, rfl⟩ | ⟨_, _, rfl⟩ <;> exact Status.noConfusion

/-- A length that a packet can state is the number its INFO field shows (R12, R79). -/
theorem ofNat32_toNat_of_lt {n : Nat} (h : n < 2 ^ 32) : (BitVec.ofNat 32 n).toNat = n :=
  (BitVec.toNat_ofNat _ _).trans (Nat.mod_eq_of_lt h)

/-! ### What a transform answers -/

section
variable {n : Nat} {f : (W : Width) → List Slot → Nat → BitVec W.bits × BitVec W.bits → BitVec W.bits × BitVec W.bits}
  {s t : State}

/-- A transform of a misaligned payload reports both lengths and changes nothing (R170, R178). -/
theorem transform_misaligned (hready : s.eng.state = .ready) (hlen : s.len < 2 ^ 32)
    (hmis : s.len % s.eng.wsel.block ≠ 0) :
    ∃ t, transform n f s = .next t ∧ FailsWith .inputNotBlockAligned s.len s.eng.wsel.block s t ∧
      t.eng.state = .ready :=
  ⟨_, transform_fails (transformCheck_misaligned hready hmis),
    raise_failsWith_of (ofNat32_toNat_of_lt hlen) (ofNat32_block_toNat _), hready⟩

/-- A transform, succeeding or failing, keeps the engine slot (R187). -/
theorem transform_eng (h : transform n f s = .next t) : t.eng = s.eng := by
  rcases transform_cases h with ⟨v, _, rfl⟩ | ⟨_, _, rfl⟩
  · rw [raise_eq, deliver_eng]
  · rw [respond_eq, deliver_eng, transformScratch_eng]

/-- A complete engine answers an aligned payload of any length: OK, with the image of every block (R171, R179). -/
theorem transform_answers (n : Nat)
    (f : (W : Width) → List Slot → Nat → BitVec W.bits × BitVec W.bits → BitVec W.bits × BitVec W.bits)
    (hready : EngineReady s) (halign : s.len % s.eng.wsel.block = 0) :
    ∃ t, transform n f s = .next t ∧ t.resp.status = .ok ∧
      t.resp.payload = bytesOut s.eng.wsel (f s.eng.wsel s.eng.S s.eng.rounds.toNat) s.port.payload := by
  obtain ⟨hstate, hsubkeys⟩ := hready
  have hheld : ¬ (0 < s.len ∧ s.eng.S.length < subkeyCount s.eng.rounds) := fun h =>
    absurd (hsubkeys ▸ h.2) (Nat.lt_irrefl _)
  exact ⟨_, transform_succeeds (transformCheck_none.2 ⟨hstate, halign⟩) hheld, rfl, rfl⟩

/-- A transform that ends OK answers as many bytes as it was given (R186). -/
theorem transform_length_of_ok (h : transform n f s = .next t) (hlen : s.len < 2 ^ 32) (hok : t.resp.status = .ok) :
    t.resp.payload.length = s.len ∧ t.resp.rlen.toNat = s.len := by
  rcases transform_cases h with ⟨v, hv, rfl⟩ | ⟨hnone, _, rfl⟩
  · exact absurd hok (transformCheck_status_ne_ok hv)
  · obtain ⟨_, halign⟩ := transformCheck_none.1 hnone
    have hout := bytesOut_length s.eng.wsel (f s.eng.wsel s.eng.S s.eng.rounds.toNat) s.port.payload halign
    refine ⟨hout, ?_⟩
    rw [respond_eq, deliver_resp, responseOf, hout]
    exact ofNat32_toNat_of_lt hlen

end

/-- ENCODE and DECODE keep the engine slot (R187). -/
theorem exec_transform_eng {i : Instr} (hi : i = .encode ∨ i = .decode) {s t : State} (h : exec i s = .next t) :
    t.eng = s.eng := by
  rcases hi with rfl | rfl
  · exact transform_eng h
  · exact transform_eng h

/-! ### The two directions undo each other -/

/-- With a complete engine, a transform of an aligned buffer and then one of its answer give the buffer back, if the second
block function undoes the first: the first keeps the engine and the length, so the second passes the same checks
(R184). -/
theorem transform_inverse (n n' : State → Nat)
    {f g : (W : Width) → List Slot → Nat → BitVec W.bits × BitVec W.bits → BitVec W.bits × BitVec W.bits}
    (hgf : ∀ W S r p, g W S r (f W S r p) = p) {s : State} {ds : List Byte} (hready : EngineReady s)
    (halign : ds.length % s.eng.wsel.block = 0) :
    ∃ t t', transform (n (s.withPayload ds)) f (s.withPayload ds) = .next t ∧
      transform (n' (t.withPayload t.resp.payload)) g (t.withPayload t.resp.payload) = .next t' ∧
      t.resp.status = .ok ∧ t'.resp.status = .ok ∧ t'.resp.payload = ds := by
  obtain ⟨t, ht, hok, hout⟩ := transform_answers (s := s.withPayload ds) (n (s.withPayload ds)) f hready halign
  have heng : t.eng = s.eng := transform_eng (s := s.withPayload ds) ht
  have hlen : t.resp.payload.length = ds.length := by rw [hout]; exact bytesOut_length _ _ ds halign
  have hready' : EngineReady (t.withPayload t.resp.payload) := by
    rw [EngineReady, State.withPayload, heng]
    exact hready
  have halign' : (t.withPayload t.resp.payload).len % (t.withPayload t.resp.payload).eng.wsel.block = 0 := by
    rw [State.len, State.withPayload, hlen, heng]
    exact halign
  obtain ⟨t', ht', hok', hout'⟩ := transform_answers (n' (t.withPayload t.resp.payload)) g hready' halign'
  refine ⟨t, t', ht, ht', hok, hok', ?_⟩
  rw [hout', State.withPayload, heng, hout]
  exact bytesOut_inverse s.eng.wsel _ _ (hgf _ _ _) ds halign

/-- Settles O43: on each block DECODE's rounds undo ENCODE's and the other way round, by induction over the rounds, and so on
every aligned buffer, by induction over its blocks. -/
theorem decodeAndEncodeInvertEachOther : Obligations.DecodeAndEncodeInvertEachOther := by
  unfold Obligations.DecodeAndEncodeInvertEachOther
  intro s p hready halign
  constructor
  · exact transform_inverse (fun u => u.eng.rounds.toNat + 1) (fun _ => 0) decodeBlock_encodeBlock hready halign
  · exact transform_inverse (fun _ => 0) (fun u => u.eng.rounds.toNat + 1) encodeBlock_decodeBlock hready halign

/-! ### Zero rounds -/

/-- Each block of a buffer has its image at its own offsets in the output (R172, R175). -/
theorem wordAt_bytesOut {W : Width} (f : BitVec W.bits × BitVec W.bits → BitVec W.bits × BitVec W.bits)
    {ds : List Byte} {n : Nat} {a b : BitVec W.bits} (hn : n < ds.length / W.block) (ha : WordAt W ds (n * W.block) a)
    (hb : WordAt W ds (n * W.block + W.bytes) b) :
    WordAt W (bytesOut W f ds) (n * W.block) (f (a, b)).1 ∧
      WordAt W (bytesOut W f ds) (n * W.block + W.bytes) (f (a, b)).2 := by
  have hblock : (blocksOut W f ds)[n]? = some (f (a, b)) := by
    rw [blocksOut, List.getElem?_map, readBlocks_getElem? W _ ds n hn, ← wordAt_unique ha, ← wordAt_unique hb]
    rfl
  exact wordAt_blocks W _ n _ hblock

/-- With no round to run ENCODE only whitens (R185). -/
theorem encodeBlock_zero (W : Width) (S : List Slot) (a b : BitVec W.bits) :
    encodeBlock W S 0 (a, b) = (a + subkeyWord W S 0, b + subkeyWord W S 1) := rfl

/-- With no round to undo DECODE only takes the whitening away (R185). -/
theorem decodeBlock_zero (W : Width) (S : List Slot) (a b : BitVec W.bits) :
    decodeBlock W S 0 (a, b) = (a - subkeyWord W S 0, b - subkeyWord W S 1) := rfl

/-- The subkeys that a claim names are the words the block functions use. -/
theorem State.subkeys_eq (s : State) : s.subkeys = subkeyWord s.eng.wsel s.eng.S := rfl

/-- A SETUP with an aligned key in the slot ends OK and leaves its round count and `2·(r+1)` subkeys (R143). -/
theorem setup_answers {W : Width} (r : BitVec 8) {s : State} (hkey : KeyReady s)
    (halign : s.key.klen.toNat % W.bytes = 0) :
    ∃ t, exec (setupInstr W r) s = .next t ∧ t.resp.status = .ok ∧ t.eng.rounds = r ∧
      t.eng.S.length = subkeyCount r := by
  have ⟨hvalid, _⟩ := hkey
  obtain ⟨ds, hread, _⟩ := memReadKeybuf_of_keyReady hkey
  refine ⟨_, (exec_setupInstr W r s).trans (setup_succeeds (setupCheck_none.2 ⟨hvalid, halign⟩) hread), rfl, rfl, ?_⟩
  rw [respond_eq, deliver_eng, installEngine_eng, List.length_map, expandKey_S_length]

/-- Settles O39: at round count 0 the block functions are the two additions and the two subtractions, taken at every block's
offsets; and a SETUP of 0 rounds is one of the decoder's words and installs two subkeys. -/
theorem zeroRoundsOnlyWhitens : Obligations.ZeroRoundsOnlyWhitens := by
  unfold Obligations.ZeroRoundsOnlyWhitens
  refine ⟨fun s hready hrounds halign => ?_, fun W => ⟨decodeCommand_setupWord W 0, fun s hkey hmod => ?_⟩⟩
  · obtain ⟨t, ht, hok, hout⟩ := transform_answers (s.eng.rounds.toNat + 1) encodeBlock hready halign
    obtain ⟨t', ht', hok', hout'⟩ := transform_answers 0 decodeBlock hready halign
    have hzero : s.eng.rounds.toNat = 0 := by rw [hrounds]; rfl
    refine ⟨t, t', ht, ht', hok, hok', fun n hn a b ha hb => ?_⟩
    obtain ⟨hencA, hencB⟩ := wordAt_bytesOut (encodeBlock s.eng.wsel s.eng.S 0) hn ha hb
    obtain ⟨hdecA, hdecB⟩ := wordAt_bytesOut (decodeBlock s.eng.wsel s.eng.S 0) hn ha hb
    rw [encodeBlock_zero] at hencA hencB
    rw [decodeBlock_zero] at hdecA hdecB
    rw [hout, hout', hzero, State.subkeys_eq]
    exact ⟨hencA, hencB, hdecA, hdecB⟩
  · exact setup_answers 0 hkey hmod

/-! ### Length and purity -/

/-- Settles O40: only a transform that has passed its checks ends OK, and it answers a block for each block. -/
theorem transformsPreserveLength : Obligations.TransformsPreserveLength := by
  unfold Obligations.TransformsPreserveLength
  intro s t hlen hrun hok
  rcases hrun with hrun | hrun
  · exact transform_length_of_ok hrun hlen hok
  · exact transform_length_of_ok hrun hlen hok

/-- Settles O41: the answer is a function of the engine slot and the payload, and the command keeps the engine slot, so the
state it leaves, with the payload lent again, is one more state with the same engine and payload. -/
theorem transformsArePure : Obligations.TransformsArePure := by
  unfold Obligations.TransformsArePure
  intro s s' t i hi heng hpayload hrun
  have hkept : t.eng = s.eng := exec_transform_eng hi hrun
  exact ⟨hkept, exec_transform_resp_congr hi heng.symm hpayload.symm hrun,
    exec_transform_resp_congr hi (s' := t.withPayload s.port.payload) hkept rfl hrun⟩

/-! ### What a transform rejects -/

/-- Settles O37: the check for an engine is the first, and raising its verdict writes nothing but the response. -/
theorem transformWithoutAnEngine : Obligations.TransformWithoutAnEngine := by
  unfold Obligations.TransformWithoutAnEngine
  intro s hstate
  have hcheck := transformCheck_uninitialised hstate
  exact ⟨⟨_, transform_fails hcheck, raise_failsWith _ s⟩, ⟨_, transform_fails hcheck, raise_failsWith _ s⟩, rfl⟩

/-- Settles O38: the check of the length fails with both lengths, for either command. -/
theorem transformOfAMisalignedPayload : Obligations.TransformOfAMisalignedPayload := by
  unfold Obligations.TransformOfAMisalignedPayload
  intro s hready hlen hmis
  exact ⟨transform_misaligned hready hlen hmis, transform_misaligned hready hlen hmis⟩

end Sys2Proof.Machine
end

section
/-! Proofs of the family 60_exceptions.md: which status a command reports (R207), what a failing one leaves (R210, R212), and that
no step produces `Internal` (R204). -/

namespace Sys2Proof.Machine

/-! ### The status that the checks give -/

theorem settle_of_error {s : State} {e : DecodeError} (hd : decodeCommand s.port.cw s.len = .error e) :
    settle s = illegalVerdict := by
  simp only [settle, hd]

theorem settle_of_ok {s : State} {i : Instr} (hd : decodeCommand s.port.cw s.len = .ok i) :
    settle s = (commandCheck i s).getD Verdict.ok := by
  simp only [settle, hd]

/-- KEY's check, as a status (R122, R201). -/
theorem keyCheck_status (s : State) :
    ((keyCheck s).getD Verdict.ok).status = if s.len = 0 ∨ 256 < s.len then .invalidKeyLength else .ok := by
  have hbound : (s.len < Config.keyMin ∨ Config.keyMax < s.len) ↔ (s.len = 0 ∨ 256 < s.len) :=
    or_congr_left Nat.lt_one_iff
  rw [keyCheck, ← if_congr hbound rfl rfl]
  split <;> rfl

/-- The checks of a SETUP, as a status (R141, R142). -/
theorem setupCheck_status (W : Width) (s : State) :
    ((setupCheck W s).getD Verdict.ok).status =
      if s.key.valid = false then .noKey
      else if s.key.klen.toNat % W.bytes ≠ 0 then .keyNotWordAligned else .ok := by
  unfold setupCheck
  split
  · rfl
  · split <;> rfl

/-- The checks of a transform, as a status (R169, R170, R178). -/
theorem transformCheck_status (s : State) :
    ((transformCheck s).getD Verdict.ok).status =
      if s.eng.state = .uninitialised then .notReady
      else if s.len % s.eng.wsel.block ≠ 0 then .inputNotBlockAligned else .ok := by
  unfold transformCheck
  split
  · rfl
  · split <;> rfl

/-- A command that answers reports the status that CHECK settles on (R207). -/
theorem runCommand_status {s t : State} (h : runCommand s = .next t) : t.resp.status = (settle s).status := by
  obtain ⟨bytes, hresp⟩ := runCommand_reports_settle h
  rw [hresp, responseOf]

/-- Settles O46: from a state of the invariant the command answers, with the status that its checks settle on, and each
command's checks are those of its row. -/
theorem firstFailingCheckIsReported : Obligations.FirstFailingCheckIsReported := by
  unfold Obligations.FirstFailingCheckIsReported
  intro s cw payload hinv hidle hlen
  obtain ⟨t, hrun⟩ := runCommand_next (hinv.accept hidle.2 cw payload s.port.inbox)
  refine ⟨t, (step_offer hidle cw payload hlen).trans hrun, ?_⟩
  rw [runCommand_status hrun]
  cases hd : decodeCommand cw payload.length with
  | error e => rw [settle_of_error (s := s.accept cw payload s.port.inbox) hd, illegalVerdict]
  | ok i =>
    rw [settle_of_ok (s := s.accept cw payload s.port.inbox) hd]
    rcases decodeCommand_instr hd with rfl | rfl | rfl | ⟨W, r, rfl⟩
    · exact keyCheck_status _
    · exact transformCheck_status _
    · exact transformCheck_status _
    · rw [commandCheck_setupInstr, setupCheck_status]
      cases W with
      | w8 => simp [setupInstr, Width.bytes, Nat.mod_one]
      | w16 | w32 | w64 => rfl

/-! ### Failures -/

/-- Settles O48: a command that does not end OK has raised the verdict of its checks on the state that has accepted the packet,
and accepting writes only what the port lends. -/
theorem failuresChangeNothing : Obligations.FailuresChangeNothing := by
  unfold Obligations.FailuresChangeNothing
  refine ⟨raise_failsWith, fun s t cw payload hidle hstep hfail => ?_⟩
  obtain ⟨_, hrun⟩ := step_offer_next hidle hstep
  obtain rfl := runCommand_raises hrun hfail
  obtain ⟨_, hnothing⟩ := raise_failsWith (settle (s.accept cw payload s.port.inbox)) (s.accept cw payload s.port.inbox)
  exact ⟨hnothing, rfl, rfl, rfl, hidle.1, rfl⟩

/-- A command whose checks settle on a failure raises it: `runCommand_raises` with its converse (R210). -/
theorem runCommand_of_settle_fails {s : State} (h : (settle s).status ≠ .ok) :
    runCommand s = .next (raise (settle s) s) := by
  cases hd : decodeCommand s.port.cw s.len with
  | error e => rw [runCommand_error hd, settle_of_error hd]
  | ok i =>
    cases hc : commandCheck i s with
    | none => exact absurd (congrArg Verdict.status (settle_passes hd hc)) h
    | some v =>
      rw [runCommand_ok hd, settle_fails hd hc]
      rcases decodeCommand_instr hd with rfl | rfl | rfl | ⟨W, r, rfl⟩
      · exact execKey_fails hc
      · exact transform_fails hc
      · exact transform_fails hc
      · rw [commandCheck_setupInstr] at hc
        rw [exec_setupInstr, setup_fails hc]

/-- Raising a verdict keeps all that the checks of a command look at, so the same packet, accepted again, settles on the
same verdict (R212). -/
theorem settle_accept_raise (v : Verdict) (s : State) (cw : BitVec 16) (payload : List Byte)
    (rest rest' : List PortEvent) :
    settle ((raise v (s.accept cw payload rest)).accept cw payload rest') = settle (s.accept cw payload rest) := rfl

/-- Settles O50: every command ends in IDLE; and one that fails has raised its settled verdict, on which the same packet
settles again. -/
theorem errorsLeaveNothingSticky : Obligations.ErrorsLeaveNothingSticky := by
  unfold Obligations.ErrorsLeaveNothingSticky
  intro s t cw payload hidle hstep
  obtain ⟨hlen, hrun⟩ := step_offer_next hidle hstep
  obtain ⟨hphase, huop⟩ := runCommand_idle hrun
  have hidle' : Idle t := ⟨huop.trans hidle.1, hphase⟩
  refine ⟨hidle', fun hfail => ?_⟩
  obtain rfl := runCommand_raises hrun hfail
  have hsettle := settle_accept_raise (settle (s.accept cw payload s.port.inbox)) s cw payload s.port.inbox s.port.inbox
  refine ⟨_, (step_offer hidle' cw payload hlen).trans (runCommand_of_settle_fails ?_), ?_⟩
  · exact fun hok => hfail ((congrArg Verdict.status hsettle).symm.trans hok)
  · exact congrArg (responseOf · []) hsettle

/-! ### What a step can do -/

/-- The ways a step goes on, each with the guard under which it is taken (R60, R85, R223, R230, R232). -/
inductive StepsTo (s : State) : State → Prop where
  /-- A driven micro-operation (R85). -/
  | driven {uop : BitVec 5} {i : Instr} {t : State} (hu : s.uop = some uop) (hd : decodeSelect uop = .ok i)
      (hx : exec i { s with uop := none } = .next t) : StepsTo s t
  /-- A reset, in any phase (R230, R232). -/
  | reset {rest : List PortEvent} (hu : s.uop = none) (hin : s.port.inbox = .reset :: rest) : StepsTo s (s.afterReset rest)
  /-- IDLE with nothing at the port (R223). -/
  | wait (hs : Idle s) (hin : s.port.inbox = []) : StepsTo s s
  /-- IDLE while the host pauses. -/
  | pause {rest : List PortEvent} (hs : Idle s) (hin : s.port.inbox = .pause :: rest) :
      StepsTo s { s with port := { s.port with inbox := rest } }
  /-- A packet run whole (R60). -/
  | command {cw : BitVec 16} {payload : List Byte} {rest : List PortEvent} {t : State} (hs : Idle s)
      (hin : s.port.inbox = .command cw payload :: rest) (hl : payload.length < 2 ^ 32)
      (hx : runCommand (s.accept cw payload rest) = .next t) : StepsTo s t
  /-- A packet accepted, to be run visit by visit (R36). -/
  | paced {cw : BitVec 16} {payload : List Byte} {rest : List PortEvent} (hs : Idle s)
      (hin : s.port.inbox = .paced cw payload :: rest) (hl : payload.length < 2 ^ 32) :
      StepsTo s ((s.accept cw payload rest).toPhase .check)
  /-- A visit of the present phase (R36). -/
  | visit {t : State} (hu : s.uop = none) (hp : s.seq.phase ≠ .idle) (hq : Undisturbed s)
      (hx : Machine.visit s = .next t) : StepsTo s t
  /-- A visit while the host pauses. -/
  | visitPaused {rest : List PortEvent} {t : State} (hu : s.uop = none) (hp : s.seq.phase ≠ .idle)
      (hin : s.port.inbox = .pause :: rest)
      (hx : Machine.visit { s with port := { s.port with inbox := rest } } = .next t) : StepsTo s t

theorem framed_eq_next {payload : List Byte} {o : Out} {t : State} (h : framed payload o = .next t) :
    payload.length < 2 ^ 32 ∧ o = .next t := by
  by_cases hl : payload.length < 2 ^ 32
  · exact ⟨hl, (framed_fits hl o).symm.trans h⟩
  · rw [framed_tooLong hl] at h
    cases h

theorem runSelect_eq_next {uop : BitVec 5} {s t : State} (h : runSelect uop s = .next t) :
    ∃ i, decodeSelect uop = .ok i ∧ exec i { s with uop := none } = .next t := by
  unfold runSelect at h
  split at h
  · cases h
  · exact ⟨_, ‹_›, h⟩

/-- A machine in IDLE takes what stands first at the port (R60, R223). -/
theorem idleStep_stepsTo {s t : State} (hs : Idle s) (h : idleStep s = .next t) : StepsTo s t := by
  unfold idleStep at h
  split at h <;> rename_i hin
  · cases h
    exact .wait hs hin
  · cases h
    exact .pause hs hin
  · cases h
    exact .reset hs.1 hin
  · obtain ⟨hl, hx⟩ := framed_eq_next h
    exact .command hs hin hl hx
  · obtain ⟨hl, hx⟩ := framed_eq_next h
    cases hx
    exact .paced hs hin hl

/-- A machine with a command in progress is reset, or visits its phase (R60, R232). -/
theorem busyStep_stepsTo {s t : State} (hu : s.uop = none) (hp : s.seq.phase ≠ .idle) (h : busyStep s = .next t) :
    StepsTo s t := by
  unfold busyStep at h
  split at h <;> rename_i hin
  · cases h
    exact .reset hu hin
  · exact .visitPaused hu hp hin h
  all_goals exact .visit hu hp (by simp [Undisturbed, hin]) h

/-- Every step that goes on does so in one of these ways. -/
theorem step_stepsTo {s t : State} (h : step s = .next t) : StepsTo s t := by
  cases hu : s.uop with
  | some uop =>
    rw [step_select hu] at h
    obtain ⟨i, hd, hx⟩ := runSelect_eq_next h
    exact .driven hu hd hx
  | none =>
    by_cases hp : s.seq.phase = .idle
    · rw [step_idle ⟨hu, hp⟩] at h
      exact idleStep_stepsTo ⟨hu, hp⟩ h
    · rw [step_busy hu hp] at h
      exact busyStep_stepsTo hu hp h

/-! ### The statuses of a state -/

/-- The statuses of two states are the same where they stand: in the response, in the verdict and in what is delivered. -/
theorem NoInternal.of_eq {s t : State} (h : NoInternal s) (hr : t.resp.status = s.resp.status)
    (hv : t.verdict = s.verdict) (ho : t.port.outbox = s.port.outbox) : NoInternal t := by
  rw [NoInternal, hr, hv, ho]
  exact h

/-- The end of a command puts its verdict into the response and into what is delivered. -/
theorem NoInternal.deliver {s : State} (h : NoInternal s) {v : Verdict} (hv : v.status ≠ .internal) (bytes : List Byte) :
    NoInternal (deliver v bytes s) := by
  obtain ⟨_, _, hdelivered⟩ := h
  refine ⟨hv, ok_ne_internal, fun r hr => ?_⟩
  rcases List.mem_append.1 hr with hold | hnew
  · exact hdelivered r hold
  · rw [List.mem_singleton.1 hnew]
    exact hv

/-- A command run whole delivers the verdict that it settles on, which is never `Internal` (R204). -/
theorem runCommand_noInternal {s t : State} (hx : runCommand s = .next t) (h : NoInternal s) : NoInternal t := by
  rcases runCommand_effects hx with ⟨v, rfl, hv⟩ | ⟨_, _, rfl⟩ | ⟨W, r, ds, _, _, _, rfl⟩ | ⟨i, n, f, _, _, _, rfl⟩
  · rw [runCommand_raises hx hv]
    exact h.deliver (settle_ne_internal s) []
  · exact NoInternal.deliver (s := storeKey s) h ok_ne_internal []
  · exact NoInternal.deliver (s := installEngine W r _ _ s) h ok_ne_internal []
  · obtain ⟨_, _, _, _, _, _, _, hport, hresp, hverdict, _⟩ :=
      transformScratch_frame s.eng.wsel n (blocksOut s.eng.wsel f s.port.payload) s
    exact (h.of_eq (congrArg _ hresp) hverdict (congrArg _ hport)).deliver ok_ne_internal _

/-- A visit that drives the datapath touches no status. -/
theorem dataVisit_statuses {s t : State} (h : dataVisit s = .next t) :
    t.resp.status = s.resp.status ∧ t.verdict = s.verdict ∧ t.port = s.port := by
  obtain ⟨u, hrun, hadvance⟩ := andThen_eq_next.1 h
  cases hadvance
  have hdriven := runProgram_frame (program_micro _) hrun
  obtain ⟨_, hport, hverdict, _, hresp, _⟩ := prepare_frame s
  obtain ⟨_, hport', hverdict', _, hresp'⟩ := advance_frame u
  refine ⟨?_, hverdict'.trans (hdriven.verdict.trans hverdict), hport'.trans (hdriven.port.trans hport)⟩
  rw [hresp', hdriven.status, hresp]

/-- CHECK leaves its outcome in the verdict, and touches no other status (log 10). -/
theorem checkVisit_statuses (s : State) :
    (checkVisit s).resp.status = s.resp.status ∧ (checkVisit s).verdict = settle s ∧ (checkVisit s).port = s.port := by
  cases hd : decodeCommand s.port.cw s.len with
  | error e =>
    rw [checkVisit_error hd, settle_of_error hd]
    exact ⟨rfl, rfl, rfl⟩
  | ok i =>
    cases hc : commandCheck i s with
    | some v =>
      rw [checkVisit_fails hd hc, settle_fails hd hc]
      exact ⟨rfl, rfl, rfl⟩
    | none =>
      rw [checkVisit_passes hd hc, settle_passes hd hc]
      cases i <;> exact ⟨rfl, rfl, rfl⟩

/-- CHECK settles a verdict that is not `Internal`, RESPOND delivers the verdict, and no other visit touches a status
(R36, R204). -/
theorem visit_noInternal {s t : State} (hx : visit s = .next t) (h : NoInternal s) : NoInternal t := by
  have ⟨hresp, hverdict, hdelivered⟩ := h
  cases hphase : s.seq.phase <;> simp only [visit, hphase] at hx
  case idle =>
    cases hx
    exact h
  case check =>
    cases hx
    obtain ⟨hr, hv, hp⟩ := checkVisit_statuses s
    exact ⟨hr ▸ hresp, hv ▸ settle_ne_internal s, hp ▸ hdelivered⟩
  case keyStore =>
    cases hx
    exact h
  case respond =>
    cases hx
    exact h.deliver hverdict _
  all_goals
    obtain ⟨hr, hv, hp⟩ := dataVisit_statuses hx
    exact h.of_eq hr hv (congrArg _ hp)

/-- Settles O51: a reset makes the status OK, a command delivers and CHECK records only what the checks settle on, and no other step
writes a status. -/
theorem statusIsNeverInternal : Obligations.StatusIsNeverInternal := by
  unfold Obligations.StatusIsNeverInternal
  intro s t hstep h
  cases step_stepsTo hstep with
  | driven _ hd hx =>
    obtain ⟨_, _, hresp, hport, hverdict, _⟩ := exec_micro_frame (decodeSelect_ok hd) hx
    exact h.of_eq (congrArg _ hresp) hverdict (congrArg _ hport)
  | reset =>
    obtain ⟨_, _, hdelivered⟩ := h
    exact ⟨Status.noConfusion, ok_ne_internal, hdelivered⟩
  | wait => exact h
  | pause => exact h
  | command _ _ _ hx => exact runCommand_noInternal hx h
  | paced => exact h
  | visit _ _ _ hx => exact visit_noInternal hx h
  | visitPaused _ _ _ hx => exact visit_noInternal hx h

end Sys2Proof.Machine
end

section
/-! Proofs of the family 70_reset_and_hazards.md: what the first command after a reset does (R230). Each answer is that of an idle
machine whose slots hold nothing, so it is stated of any idle machine first. -/

namespace Sys2Proof.Machine

/-- A packet whose checks settle on a failure gets exactly that error, and changes nothing else (R210). -/
theorem step_offer_fails {s : State} (h : Idle s) {cw : BitVec 16} {payload : List Byte} (hlen : payload.length < 2 ^ 32)
    {v : Verdict} (hsettle : settle (s.accept cw payload s.port.inbox) = v) (hv : v.status ≠ .ok) :
    ∃ t, step (s.offer cw payload) = .next t ∧ FailsWith v.status v.info0.toNat v.info1.toNat s t := by
  subst hsettle
  exact ⟨_, (step_offer h cw payload hlen).trans (runCommand_of_settle_fails hv),
    raise_failsWith _ (s.accept cw payload s.port.inbox)⟩

/-- KEY with a length that the slot takes ends OK and leaves a valid key (R122). -/
theorem step_offer_key_installs {s : State} (h : Idle s) {payload : List Byte} (hmin : 1 ≤ payload.length)
    (hmax : payload.length ≤ 256) :
    ∃ t, step (s.offer 0x0100 payload) = .next t ∧ t.resp.status = .ok ∧ t.key.valid = true := by
  have hcheck : keyCheck (s.accept 0x0100 payload s.port.inbox) = none := keyCheck_none.2 ⟨hmin, hmax⟩
  exact ⟨_, (step_offer_key h (by omega)).trans (execKey_succeeds hcheck), rfl, rfl⟩

/-- With no key in the slot a SETUP at the port gets NoKey (R141). -/
theorem step_offer_setup_noKey {s : State} (h : Idle s) (hkey : s.key.valid = false) (W : Width) (r : BitVec 8) :
    ∃ t, step (s.offer (commandWord ((1 : BitVec 1) ++ W.code) r) []) = .next t ∧ FailsWith .noKey 0 0 s t := by
  have hsettle :
      settle (s.accept (commandWord ((1 : BitVec 1) ++ W.code) r) [] s.port.inbox) = ⟨.noKey, 0, 0⟩ :=
    settle_fails (decodeCommand_setupWord W r) ((commandCheck_setupInstr W r _).trans (setupCheck_noKey W hkey))
  exact step_offer_fails h (by decide) hsettle Status.noConfusion

/-- With no engine in the slot the word of ENCODE or DECODE gets NotReady, whatever its payload (R169). -/
theorem step_offer_transform_notReady {s : State} (h : Idle s) (heng : s.eng.state = .uninitialised) {i : Instr}
    (hi : i = .encode ∨ i = .decode) {cw : BitVec 16} {payload : List Byte}
    (hd : decodeCommand cw payload.length = .ok i) (hlen : payload.length < 2 ^ 32) :
    ∃ t, step (s.offer cw payload) = .next t ∧ FailsWith .notReady 0 0 s t := by
  have hcheck : commandCheck i (s.accept cw payload s.port.inbox) = some ⟨.notReady, 0, 0⟩ := by
    rcases hi with rfl | rfl
    · exact transformCheck_uninitialised heng
    · exact transformCheck_uninitialised heng
  exact step_offer_fails h hlen (settle_fails hd hcheck) Status.noConfusion

/-- A word that does not decode beside its payload gets IllegalCommand (R80). -/
theorem step_offer_illegal {s : State} (h : Idle s) {cw : BitVec 16} {payload : List Byte} {e : DecodeError}
    (he : decodeCommand cw payload.length = .error e) (hlen : payload.length < 2 ^ 32) :
    ∃ t, step (s.offer cw payload) = .next t ∧ FailsWith .illegalCommand 0 0 s t :=
  step_offer_fails h hlen (settle_of_error he) Status.noConfusion

theorem afterReset_idle (s : State) (rest : List PortEvent) : Idle (s.afterReset rest) := ⟨rfl, rfl⟩

/-- Settles O11: a reset leaves an idle machine with neither key nor engine, whose first command is then answered by its first
check; KEY, which asks for neither, succeeds. -/
theorem firstCommandsAfterReset : Obligations.FirstCommandsAfterReset := by
  unfold Obligations.FirstCommandsAfterReset
  intro s rest huop hreset
  have hidle := afterReset_idle s rest
  have hkey : (s.afterReset rest).key.valid = false := rfl
  have heng : (s.afterReset rest).eng.state = .uninitialised := rfl
  refine ⟨_, step_reset huop hreset, heng, hkey, hidle.2, fun payload hlen => ⟨?_, ?_, ?_, ?_, ?_⟩⟩
  · exact step_offer_key_installs hidle
  · exact step_offer_setup_noKey hidle hkey
  · exact step_offer_transform_notReady hidle heng (.inl rfl) (decodeCommand_encodeWord _) hlen
  · exact step_offer_transform_notReady hidle heng (.inr rfl) (decodeCommand_decodeWord _) hlen
  · exact fun cw e he => step_offer_illegal hidle he hlen

end Sys2Proof.Machine
end

section
/-! Proofs of the encoding: decoding and encoding agree (R74, R77, R85). -/

namespace Sys2Proof

/-- The code of a SETUP is the word that names its width (R74, R75). -/
theorem encode_setupInstr (W : Width) (r : BitVec 8) :
    encode (setupInstr W r) = .command (commandWord ((1 : BitVec 1) ++ W.code) r) := by
  cases W <;> rfl

/-- A SETUP's code gives the SETUP back, beside an empty payload (R76). -/
theorem decode_encode_setupInstr (W : Width) (r : BitVec 8) :
    decode (encode (setupInstr W r)) 0 = .ok (setupInstr W r) := by
  rw [encode_setupInstr]
  exact decodeCommand_setupWord W r

/-- What may stand beside an instruction: an empty payload, or any payload if it takes one (R70, R76, R85). -/
theorem Instr.wellFormed_payload {i : Instr} {len : Nat} (h : i.wellFormed len = true) : i.takesPayload = true ∨ len = 0 := by
  simp only [Instr.wellFormed, Bool.and_eq_true, Bool.or_eq_true, decide_eq_true_eq] at h
  exact h.2

/-- Decoding undoes encoding, beside every payload that the instruction takes (R77). -/
theorem decode_encode {i : Instr} {len : Nat} (h : i.takesPayload = true ∨ len = 0) : decode (encode i) len = .ok i := by
  cases i with
  | key => exact decodeCommand_keyWord len
  | encode => exact decodeCommand_encodeWord len
  | decode => exact decodeCommand_decodeWord len
  | setupW8 r => obtain rfl := h.resolve_left nofun; exact decode_encode_setupInstr .w8 r
  | setupW16 r => obtain rfl := h.resolve_left nofun; exact decode_encode_setupInstr .w16 r
  | setupW32 r => obtain rfl := h.resolve_left nofun; exact decode_encode_setupInstr .w32 r
  | setupW64 r => obtain rfl := h.resolve_left nofun; exact decode_encode_setupInstr .w64 r
  | _ => obtain rfl := h.resolve_left nofun; rfl

/-- A select code that decodes is the code of what it decodes to (R85). -/
theorem encode_of_decodeSelect {uop : BitVec 5} {i : Instr} (h : decodeSelect uop = .ok i) : encode i = .select uop := by
  unfold decodeSelect at h
  split at h <;> cases h
  all_goals exact congrArg Code.select (BitVec.eq_of_toNat_eq (Eq.symm ‹_›))

/-- A select code decodes beside an empty payload only (R85). -/
theorem decode_select_ok {uop : BitVec 5} {len : Nat} {i : Instr} (h : decode (.select uop) len = .ok i) :
    len = 0 ∧ decodeSelect uop = .ok i := by
  simp only [decode] at h
  split at h
  · exact ⟨‹_›, h⟩
  · cases h

/-- A command word that decodes is the code of what it decodes to, and stands beside a payload that the command takes (R74,
R76). -/
theorem encode_of_decodeCommand {cw : BitVec 16} {len : Nat} {i : Instr} (h : decodeCommand cw len = .ok i) :
    encode i = .command cw ∧ (i.takesPayload = true ∨ len = 0) := by
  rcases decodeCommand_ok h with ⟨rfl, rfl⟩ | ⟨rfl, rfl⟩ | ⟨rfl, rfl⟩ | ⟨W, r, rfl, rfl, hlen⟩
  · exact ⟨rfl, .inl rfl⟩
  · exact ⟨rfl, .inl rfl⟩
  · exact ⟨rfl, .inl rfl⟩
  · exact ⟨encode_setupInstr W r, .inr hlen⟩

/-- Settles O2: one direction by the instructions, the other by what each kind of code can decode to. -/
theorem decodeAndEncodeAgree : Obligations.DecodeAndEncodeAgree := by
  unfold Obligations.DecodeAndEncodeAgree
  refine ⟨fun i len hwf => decode_encode (Instr.wellFormed_payload hwf), fun c len i h => ?_⟩
  cases c with
  | command cw => exact encode_of_decodeCommand h
  | select uop =>
    obtain ⟨hlen, hsel⟩ := decode_select_ok h
    exact ⟨encode_of_decodeSelect hsel, .inr hlen⟩

/-- Settles O1: eleven words written out, each evaluated by the decoder. -/
theorem writtenOutWordsDecode : Obligations.WrittenOutWordsDecode := by
  unfold Obligations.WrittenOutWordsDecode
  exact ⟨rfl, rfl, rfl, rfl, rfl, rfl, rfl, rfl, rfl, rfl, rfl⟩

end Sys2Proof
end

section
/-! Proofs of the invariant (R35): every step keeps it, and from it no run of commands meets a fault or a refusal (R41). -/

namespace Sys2Proof.Machine

/-- A visit that goes on keeps the invariant. -/
theorem Inv.visit_next {s t : State} (h : Inv s) (hx : visit s = .next t) : Inv t := by
  obtain ⟨t', hx', ht'⟩ := visit_inv h
  rw [hx] at hx'
  cases hx'
  exact ht'

/-- Settles O54: each way in which a step goes on keeps the invariant: a micro-operation, a reset, the port's moves, a command
run whole, and a visit. -/
theorem stepKeepsTheInvariant : Obligations.StepKeepsTheInvariant := by
  unfold Obligations.StepKeepsTheInvariant
  intro s t h hstep
  cases step_stepsTo hstep with
  | driven _ hd hx => exact (h.withUop none).micro (decodeSelect_ok hd) hx
  | reset => exact h.afterReset _
  | wait => exact h
  | pause => exact h.withInbox _
  | command hs _ _ hx => exact runCommand_inv (h.accept hs.2 _ _ _) hx
  | paced hs => exact (h.accept hs.2 _ _ _).toCheck
  | visit _ _ _ hx => exact h.visit_next hx
  | visitPaused _ _ _ hx => exact (h.withInbox _).visit_next hx

/-! ### What a step leaves of the port -/

/-- A command takes nothing from the port but its own packet (R60). -/
theorem runCommand_inbox {s t : State} (h : runCommand s = .next t) : t.port.inbox = s.port.inbox := by
  rcases runCommand_effects h with ⟨_, rfl, _⟩ | ⟨_, _, rfl⟩ | ⟨_, _, _, _, _, _, rfl⟩ | ⟨_, n, f, _, _, _, rfl⟩
  · rfl
  · rfl
  · rfl
  · rw [respond_eq, deliver_port, transformScratch_port]

/-- A step leaves of the host's events what it has not taken from their front, and no select code driven (R60, R85). -/
theorem StepsTo.port {s t : State} (h : StepsTo s t) : t.uop = none ∧ t.port.inbox <:+ s.port.inbox := by
  cases h with
  | driven hu hd hx =>
    obtain ⟨_, _, _, hport, _, huop, _⟩ := exec_micro_frame (decodeSelect_ok hd) hx
    exact ⟨huop, by rw [hport]⟩
  | reset _ hin => exact ⟨rfl, hin ▸ List.suffix_cons _ _⟩
  | wait hs => exact ⟨hs.1, List.suffix_refl _⟩
  | pause hs hin => exact ⟨hs.1, hin ▸ List.suffix_cons _ _⟩
  | command hs hin _ hx =>
    refine ⟨(runCommand_idle hx).2.trans hs.1, ?_⟩
    rw [runCommand_inbox hx, hin]
    exact List.suffix_cons _ _
  | paced hs hin => exact ⟨hs.1, hin ▸ List.suffix_cons _ _⟩
  | visit hu _ _ hx =>
    obtain ⟨huop, hinbox⟩ := visit_port hx
    exact ⟨huop.trans hu, by rw [hinbox]⟩
  | visitPaused hu _ hin hx =>
    obtain ⟨huop, hinbox⟩ := visit_port hx
    refine ⟨huop.trans hu, ?_⟩
    rw [hinbox, hin]
    exact List.suffix_cons _ _

/-- What is left of well-framed packets is well framed. -/
theorem WellFramed.of_suffix {s t : State} (h : WellFramed s) (hsub : t.port.inbox <:+ s.port.inbox) : WellFramed t :=
  fun ev hev => h ev (hsub.subset hev)

/-! ### Progress -/

/-- An idle machine of the invariant takes what stands first at the port (R41, R60). -/
theorem idleStep_next {s : State} (h : Inv s) (hs : Idle s) (hf : WellFramed s) : ∃ t, idleStep s = .next t := by
  unfold idleStep
  split <;> rename_i hin
  · exact ⟨_, rfl⟩
  · exact ⟨_, rfl⟩
  · exact ⟨_, rfl⟩
  · rw [framed_fits (hf _ (hin ▸ List.mem_cons_self))]
    exact runCommand_next (h.accept hs.2 _ _ _)
  · rw [framed_fits (hf _ (hin ▸ List.mem_cons_self))]
    exact ⟨_, rfl⟩

/-- A command in progress goes on in every phase (R41). -/
theorem busyStep_next {s : State} (h : Inv s) : ∃ t, busyStep s = .next t := by
  have visits : ∀ {u : State}, Inv u → ∃ t, visit u = .next t := fun hu => (visit_inv hu).imp fun _ ht => ht.1
  unfold busyStep
  split
  · exact ⟨_, rfl⟩
  · exact visits (h.withInbox _)
  · exact visits h
  · exact visits h
  · exact visits h

/-- With the invariant, no select code driven and well-framed packets at the port, a step goes on (R41). -/
theorem step_next {s : State} (h : Inv s) (hu : s.uop = none) (hf : WellFramed s) : ∃ t, step s = .next t := by
  by_cases hp : s.seq.phase = .idle
  · rw [step_idle ⟨hu, hp⟩]
    exact idleStep_next h ⟨hu, hp⟩ hf
  · rw [step_busy hu hp]
    exact busyStep_next h

/-- Settles O55: by induction over the steps; each goes on, and leaves the invariant, no select code driven and well-framed packets. -/
theorem runsNeverFault : Obligations.RunsNeverFault := by
  unfold Obligations.RunsNeverFault
  intro n
  induction n with
  | zero => exact fun s _ _ _ => ⟨s, rfl⟩
  | succ n ih =>
    intro s h hu hf
    obtain ⟨t, hstep⟩ := step_next h hu hf
    obtain ⟨hu', hsub⟩ := (step_stepsTo hstep).port
    obtain ⟨v, hrun⟩ := ih t (stepKeepsTheInvariant s t h hstep) hu' (hf.of_suffix hsub)
    exact ⟨v, (run_next hstep).trans hrun⟩

end Sys2Proof.Machine
end

section
/-! Proofs of the sequencer's runs: a command run phase by phase ends as the command run at once, after a counted number of visits
(R36, R37), and drives a counted number of micro-operations (R244). -/

namespace Sys2Proof.Machine

/-- Accepting a packet to be run visit by visit takes one step (R36). -/
theorem step_offerPaced {s : State} (h : Idle s) (cw : BitVec 16) (payload : List Byte) (hl : payload.length < 2 ^ 32) :
    step (s.offerPaced cw payload) = .next ((s.accept cw payload s.port.inbox).toPhase .check) := by
  rw [step_idle (s := s.offerPaced cw payload) h]
  exact framed_fits hl _

/-- Settles O56: the visits of the accepted packet lead where its command leads when it is run at once, and no part of them reaches
IDLE. -/
theorem pacedCommandEndsAsTheAtomicOne : Obligations.PacedCommandEndsAsTheAtomicOne := by
  unfold Obligations.PacedCommandEndsAsTheAtomicOne
  intro s cw payload h hidle hquiet hlen
  have hinv := (h.accept hidle.2 cw payload s.port.inbox).toCheck
  have hquiet' : Undisturbed ((s.accept cw payload s.port.inbox).toPhase .check) := hquiet
  have hfirst := step_offerPaced hidle cw payload hlen
  obtain ⟨t, us, hrun, hgoes⟩ := command_goes rfl hinv
  rw [runCommand_toPhase] at hrun
  refine ⟨⟨t, (step_offer hidle cw payload hlen).trans hrun, (runCommand_idle hrun).1, ?_⟩, fun k hk => ?_⟩
  · rw [Nat.add_comm]
    exact (run_next hfirst).trans (hgoes.run hidle.1 hquiet')
  · obtain ⟨u, vs, hpart, hphase⟩ := hgoes.take hk
    refine ⟨u, ?_, hphase⟩
    rw [Nat.add_comm]
    exact (run_next hfirst).trans (hpart.run hidle.1 hquiet')

/-! ### The number of visits -/

/-- A KEY takes three visits, or two when its length is out of range (R122). -/
theorem visitCount_key {s : State} (hd : decodeCommand s.port.cw s.len = .ok .key) :
    visitCount s = if 1 ≤ s.len ∧ s.len ≤ 256 then 3 else 2 := by
  cases hc : keyCheck s with
  | none => rw [if_pos (keyCheck_none.1 hc), visitCount_passes hd hc]; rfl
  | some v =>
    have hbad := (keyCheck_some hc).1
    rw [if_neg (by omega), visitCount_fails hd hc]

/-- A SETUP takes CHECK, KX_LOAD, KX_INIT, `3·max(t, c)` iterations and RESPOND, or two visits when a check fails (R147). -/
theorem visitCount_setup {s : State} {W : Width} {r : BitVec 8} (hd : decodeCommand s.port.cw s.len = .ok (setupInstr W r)) :
    visitCount s = if s.key.valid = true ∧ s.key.klen.toNat % W.bytes = 0 then
      4 + 3 * max (2 * (r.toNat + 1)) (s.key.klen.toNat / W.bytes) else 2 := by
  have hcheck := commandCheck_setupInstr W r s
  cases hc : setupCheck W s with
  | none =>
    rw [if_pos (setupCheck_none.1 hc), visitCount_passes hd (hcheck.trans hc), successVisits_setupInstr]
    rfl
  | some v =>
    have hbad : ¬ (s.key.valid = true ∧ s.key.klen.toNat % W.bytes = 0) := by rw [← setupCheck_none, hc]; nofun
    rw [if_neg hbad, visitCount_fails hd (hcheck.trans hc)]

/-- A transform takes CHECK, `3 + r` visits for each block and RESPOND, or two visits when a check fails (R171, R179). -/
theorem visitCount_transform {s : State} {i : Instr} (hi : i = .encode ∨ i = .decode)
    (hd : decodeCommand s.port.cw s.len = .ok i) :
    visitCount s = if s.eng.state = .ready ∧ s.len % s.eng.wsel.block = 0 then
      2 + s.len / s.eng.wsel.block * (3 + s.eng.rounds.toNat) else 2 := by
  have hcheck : commandCheck i s = transformCheck s := by rcases hi with rfl | rfl <;> rfl
  cases hc : transformCheck s with
  | none =>
    rw [if_pos (transformCheck_none.1 hc), visitCount_passes hd (hcheck.trans hc)]
    rcases hi with rfl | rfl <;> rfl
  | some v =>
    have hbad : ¬ (s.eng.state = .ready ∧ s.len % s.eng.wsel.block = 0) := by rw [← transformCheck_none, hc]; nofun
    rw [if_neg hbad, visitCount_fails hd (hcheck.trans hc)]

/-- Settles O57: a command at CHECK ends after exactly `visitCount` visits, and that is the number of each row. -/
theorem visitsAreCounted : Obligations.VisitsAreCounted := by
  unfold Obligations.VisitsAreCounted
  intro s h hp
  obtain ⟨t, us, hrun, hgoes⟩ := command_goes hp h
  have hends : EndsAfter (visitCount s) s := hgoes.endsAfter (runCommand_idle hrun).1
  refine ⟨?_, ?_, ?_, ?_, hends⟩
  · rintro ⟨e, he⟩
    rwa [visitCount_error he] at hends
  · intro hd
    rwa [visitCount_key hd] at hends
  · intro W r hd
    rwa [visitCount_setup hd] at hends
  · rintro (hd | hd)
    · rwa [visitCount_transform (.inl rfl) hd] at hends
    · rwa [visitCount_transform (.inr rfl) hd] at hends

/-! ### The micro-operations driven -/

/-- What a SETUP drives with `c` key words, `t + 1` subkeys and `m` iterations (R143, R244). -/
def setupWork (c t m : Nat) : List Instr :=
  List.replicate c Instr.rdw ++ ([Instr.pw, Instr.qw] ++ List.replicate t Instr.addw ++ [Instr.zero, Instr.zero]) ++
    (List.replicate m [Instr.mixs, Instr.mixl]).flatten

/-- What one block of ENCODE drives with `r` rounds (R171 to R175, R244). -/
def encodeWork (r : Nat) : List Instr :=
  [Instr.rdb, Instr.addw, Instr.addw] ++ (List.replicate r [Instr.ehr, Instr.ehr]).flatten ++
    [Instr.leunpack, Instr.leunpack]

/-- What one block of DECODE drives with `r` rounds (R179 to R182, R244). -/
def decodeWork (r : Nat) : List Instr :=
  [Instr.rdb] ++ (List.replicate r [Instr.dhr, Instr.dhr]).flatten ++
    [Instr.subw, Instr.subw, Instr.leunpack, Instr.leunpack]

/-- A SETUP whose checks pass drives `setupWork`. -/
theorem drivenIn_setup {s : State} {W : Width} {r : BitVec 8} (h : Inv s) (hp : s.seq.phase = .check)
    (hd : decodeCommand s.port.cw s.len = .ok (setupInstr W r)) (hc : setupCheck W s = none) :
    drivenIn (visitCount s) s =
      setupWork (keyWordCount W s) (subkeyCount r - 1) (mixCount (subkeyCount r) (keyWordCount W s)) := by
  have hkey := keyReady_of_inv h (setupCheck_none.1 hc).1
  have ⟨_, hpos, _⟩ := hkey
  obtain ⟨ds, hread, _⟩ := memReadKeybuf_of_keyReady hkey
  rw [visitCount_passes hd ((commandCheck_setupInstr W r s).trans hc), successVisits_setupInstr]
  exact (goes_setup hp hd hc hread hpos).driven

/-- An ENCODE whose checks pass drives `encodeWork` for each block. -/
theorem drivenIn_encode {s : State} (h : Inv s) (hp : s.seq.phase = .check)
    (hd : decodeCommand s.port.cw s.len = .ok .encode) (hc : transformCheck s = none) :
    drivenIn (visitCount s) s =
      (List.replicate (s.len / s.eng.wsel.block) (encodeWork s.eng.rounds.toNat)).flatten := by
  obtain ⟨_, _, hgoes⟩ := goes_encode hp hd hc (h.engine (transformCheck_none.1 hc).1)
  rw [visitCount_transform (.inl rfl) hd, if_pos (transformCheck_none.1 hc)]
  exact hgoes.driven

/-- A DECODE whose checks pass drives `decodeWork` for each block. -/
theorem drivenIn_decode {s : State} (h : Inv s) (hp : s.seq.phase = .check)
    (hd : decodeCommand s.port.cw s.len = .ok .decode) (hc : transformCheck s = none) :
    drivenIn (visitCount s) s =
      (List.replicate (s.len / s.eng.wsel.block) (decodeWork s.eng.rounds.toNat)).flatten := by
  obtain ⟨_, _, hgoes⟩ := goes_decode hp hd hc (h.engine (transformCheck_none.1 hc).1)
  rw [visitCount_transform (.inr rfl) hd, if_pos (transformCheck_none.1 hc)]
  exact hgoes.driven

/-! ### Counting what is driven -/

/-- Settles O58: a SETUP drives `setupWork`, whose parts are counted one by one. -/
theorem workCountsOfSetup : Obligations.WorkCountsOfSetup := by
  unfold Obligations.WorkCountsOfSetup
  intro s W r h hp hd hvalid halign
  have hwork := drivenIn_setup h hp hd (setupCheck_none.2 ⟨hvalid, halign⟩)
  unfold keyWordCount subkeyCount mixCount at hwork
  dsimp only
  rw [hwork]
  generalize s.key.klen.toNat / W.bytes = c
  generalize 2 * (r.toNat + 1) - 1 = t
  generalize 3 * max (2 * (r.toNat + 1)) c = m
  simp +arith [setupWork, unitsOf, count_flatten_replicate, flatMap_flatten_replicate, List.count_replicate,
    List.flatMap_replicate]

/-- Settles O59: a transform drives `encodeWork` or `decodeWork` for each block, whose parts are counted one by one. -/
theorem workCountsOfTransforms : Obligations.WorkCountsOfTransforms := by
  unfold Obligations.WorkCountsOfTransforms
  intro s h hp hready halign
  have hc := transformCheck_none.2 ⟨hready, halign⟩
  dsimp only
  refine ⟨fun hd => ?_, fun hd => ?_⟩
  · rw [drivenIn_encode h hp hd hc]
    simp [encodeWork, unitsOf, count_flatten_replicate, flatMap_flatten_replicate]
    and_intros <;> ring
  · rw [drivenIn_decode h hp hd hc]
    simp [decodeWork, unitsOf, count_flatten_replicate, flatMap_flatten_replicate]
    and_intros <;> ring

end Sys2Proof.Machine
end

section
/-! Proofs of the step around the instructions: what runs, what waits, what is refused (R60, R85, R223, U8, U20), and reset (R40,
R230, R232). -/

namespace Sys2Proof.Machine

/-- Settles O5: an idle machine takes the packet, which fits, and runs what its word decodes to. -/
theorem stepRunsTheAcceptedCommand : Obligations.StepRunsTheAcceptedCommand := by
  unfold Obligations.StepRunsTheAcceptedCommand
  intro s cw payload rest i hidle hin hlen hd
  calc step s
      _ = framed payload (runCommand (s.accept cw payload rest)) := by rw [step_idle hidle, idleStep, hin]
      _ = exec i (s.accept cw payload rest) := by rw [framed_fits hlen, runCommand_accept_ok hd]

theorem runSelect_ok {uop : BitVec 5} {i : Instr} (h : decodeSelect uop = .ok i) (s : State) :
    runSelect uop s = exec i { s with uop := none } := by
  simp only [runSelect, h]

theorem runSelect_error {uop : BitVec 5} {e : DecodeError} (h : decodeSelect uop = .error e) (s : State) :
    runSelect uop s = .refused .unusedSelectCode := by
  simp only [runSelect, h]

/-- Settles O6: the driven select code is run before anything else. -/
theorem stepRunsTheDrivenMicroOperation : Obligations.StepRunsTheDrivenMicroOperation := by
  unfold Obligations.StepRunsTheDrivenMicroOperation
  intro s uop i huop hd
  rw [step_select huop, runSelect_ok hd]

/-- Settles O7: an idle machine looks at what stands first at the port. -/
theorem idleMachineWaits : Obligations.IdleMachineWaits := by
  unfold Obligations.IdleMachineWaits
  intro s hidle
  rw [step_idle hidle]
  refine ⟨fun hin => ?_, fun rest hin => ?_⟩
  · rw [idleStep, hin]
  · rw [idleStep, hin]

/-- The select codes above 0x10 are unused (R85, U8). -/
theorem decodeSelect_unused {uop : BitVec 5} (h : 0x11 ≤ uop.toNat) : decodeSelect uop = .error .unusedSelect := by
  unfold decodeSelect
  split
  case h_18 => rfl
  all_goals omega

/-- Settles O8: an unused code decodes to nothing, and a payload that does not fit is not framed, whichever way its packet is to
be run. -/
theorem meaninglessInputsAreRefused : Obligations.MeaninglessInputsAreRefused := by
  unfold Obligations.MeaninglessInputsAreRefused
  refine ⟨fun s uop huop hunused => ?_, fun s cw payload hidle hlong => ⟨?_, ?_⟩⟩
  · rw [step_select huop, runSelect_error (decodeSelect_unused hunused)]
  · rw [step_offer_framed hidle, framed_tooLong (by omega)]
  · rw [step_idle (s := s.offerPaced cw payload) hidle]
    exact framed_tooLong (by omega) _

/-- Settles O9: both slots and every status are empty, so the invariant asks nothing of them. -/
theorem resetMeetsTheInvariant : Obligations.ResetMeetsTheInvariant := by
  unfold Obligations.ResetMeetsTheInvariant
  have hinv : Inv State.reset :=
    { keybufCanonical := List.Pairwise.nil
      key := nofun
      engine := nofun
      response := ok_ne_internal
      verdict := ok_ne_internal
      delivered := nofun
      phase := trivial }
  exact ⟨hinv, ⟨rfl, rfl⟩, rfl, rfl, rfl⟩

/-- Settles O10: a reset is taken in any phase, and leaves only the host's two lists. -/
theorem resetAbandonsACommand : Obligations.ResetAbandonsACommand := by
  unfold Obligations.ResetAbandonsACommand
  intro s rest huop hreset
  exact ⟨s.afterReset rest, step_reset huop hreset, rfl, rfl, rfl⟩

end Sys2Proof.Machine
end

section
/-! Proofs of the readers (R126, R128), of the half-rounds (R177, R183, R184), and of what stops at storage that holds no value (R41,
R56). -/

namespace Sys2Proof.Machine

/-! ### The readers -/

/-- The word packed from bytes of `KEYBUF` stands where they stand (R50, R126). -/
theorem keyWordAt_lePack {W : Width} {m : Memory} {off : Nat} {ds : List Byte}
    (h : Memory.readBytes m off W.bytes = some ds) : KeyWordAt W m off (lePack W.bits ds) := by
  obtain ⟨hlen, hread⟩ := (Memory.readBytes_eq_some_iff _ _ _ _).1 h
  intro k hk
  rw [hread k hk, lePack_byte W ds hlen k hk]

/-- Settles O21: the bytes are read, and the word packed from them stands where they stand. -/
theorem wordReaderReadsTheKey : Obligations.WordReaderReadsTheKey := by
  unfold Obligations.WordReaderReadsTheKey
  intro s hheld
  obtain ⟨ds, hds⟩ := Memory.readBytes_isSome _ _ _ hheld
  refine ⟨_, execRdw_eq hds, onlyResult_setRes s _, ?_⟩
  rw [State.result_setRes]
  exact keyWordAt_lePack hds

/-- A word put into a store is read back by its low `w` bits (R42). -/
theorem setWidth_ofWord (W : Width) (v : BitVec W.bits) : (ofWord v).setWidth W.bits = v := toWord_ofWord W v

/-- Settles O22: with the block inside the payload both halves are packed into the registers. -/
theorem blockReaderLoadsTheRegisters : Obligations.BlockReaderLoadsTheRegisters := by
  unfold Obligations.BlockReaderLoadsTheRegisters
  intro s hblock
  have hhalves := block_eq s.width
  refine ⟨_, execRdb_eq hblock, rfl, ?_, ?_⟩
  · rw [setWidth_ofWord]
    exact wordAt_lePack _ _ _ (by unfold State.len at hblock; omega)
  · rw [setWidth_ofWord]
    exact wordAt_lePack _ _ _ (by unfold State.len at hblock; omega)

/-! ### The half-rounds -/

theorem exec_ehr (s : State) : exec .ehr s = .next (s.setX (ehrWord s.opX s.opY s.opK)) := rfl

theorem exec_dhr (s : State) : exec .dhr s = .next (s.setX (dhrWord s.opX s.opY s.opK)) := rfl

/-- The updated operand reads back at the width in use. -/
theorem State.opX_setX (s : State) (v : BitVec s.width.bits) : (s.setX v).opX = v := toWord_ofWord s.width v

theorem ehrWord_eq_rotateLeft {w : Nat} (x y k : BitVec w) : ehrWord x y k = (x ^^^ y).rotateLeft (y.toNat % w) + k := by
  rw [ehrWord, rotlWord_eq_rotateLeft]
  rfl

theorem dhrWord_eq_rotateRight {w : Nat} (x y k : BitVec w) :
    dhrWord x y k = (x - k).rotateRight (y.toNat % w) ^^^ y := by
  rw [dhrWord, rotrWord_eq_rotateRight]
  rfl

/-- Settles O25: EHR writes the one word to `x`, and it is the rotated sum. -/
theorem encodeHalfRoundUpdatesX : Obligations.EncodeHalfRoundUpdatesX := by
  unfold Obligations.EncodeHalfRoundUpdatesX
  refine ⟨rfl, fun s => ⟨_, exec_ehr s, rfl, ?_⟩⟩
  exact (s.opX_setX _).trans (ehrWord_eq_rotateLeft _ _ _)

/-- Settles O26: DHR writes the one word to `x`, and it is the rotated difference. -/
theorem decodeHalfRoundUpdatesX : Obligations.DecodeHalfRoundUpdatesX := by
  unfold Obligations.DecodeHalfRoundUpdatesX
  refine ⟨rfl, fun s => ⟨_, exec_dhr s, rfl, ?_⟩⟩
  exact (s.opX_setX _).trans (dhrWord_eq_rotateRight _ _ _)

/-- A half-round finds the updated `x`, and `y`, `k` and the width as they were. -/
theorem dhrWord_setX (s : State) (v : BitVec s.width.bits) :
    dhrWord (s.setX v).opX (s.setX v).opY (s.setX v).opK = dhrWord v s.opY s.opK :=
  congrArg (fun x => dhrWord x s.opY s.opK) (s.opX_setX v)

theorem ehrWord_setX (s : State) (v : BitVec s.width.bits) :
    ehrWord (s.setX v).opX (s.setX v).opY (s.setX v).opK = ehrWord v s.opY s.opK :=
  congrArg (fun x => ehrWord x s.opY s.opK) (s.opX_setX v)

/-- DHR after an update of `x` to `v`, and what it leaves in `x`. -/
theorem exec_dhr_setX (s : State) (v : BitVec s.width.bits) :
    ∃ t, exec .dhr (s.setX v) = .next t ∧ t.dp.x.setWidth s.width.bits = dhrWord v s.opY s.opK :=
  ⟨_, exec_dhr (s.setX v), (setWidth_ofWord s.width _).trans (dhrWord_setX s v)⟩

/-- EHR after an update of `x` to `v`, and what it leaves in `x`. -/
theorem exec_ehr_setX (s : State) (v : BitVec s.width.bits) :
    ∃ t, exec .ehr (s.setX v) = .next t ∧ t.dp.x.setWidth s.width.bits = ehrWord v s.opY s.opK :=
  ⟨_, exec_ehr (s.setX v), (setWidth_ofWord s.width _).trans (ehrWord_setX s v)⟩

/-- Settles O27: the second half-round finds the first one's word in `x`, and `y` and `k` as they were, so it undoes it. -/
theorem halfRoundsUndoEachOther : Obligations.HalfRoundsUndoEachOther := by
  unfold Obligations.HalfRoundsUndoEachOther
  intro s
  constructor
  · obtain ⟨t, ht, hx⟩ := exec_dhr_setX s (ehrWord s.opX s.opY s.opK)
    exact ⟨_, t, exec_ehr s, ht, hx.trans (dhrWord_ehrWord s.opX s.opY s.opK)⟩
  · obtain ⟨t, ht, hx⟩ := exec_ehr_setX s (dhrWord s.opX s.opY s.opK)
    exact ⟨_, t, exec_dhr s, ht, hx.trans (ehrWord_dhrWord s.opX s.opY s.opK)⟩

/-! ### Reads of no value -/

/-- A read of bytes one of which holds no value answers none (R56). -/
theorem Memory.readBytes_none {m : Memory} {a n k : Nat} (hk : k < n) (h : Memory.read m (a + k) = none) :
    Memory.readBytes m a n = none := by
  rw [Option.eq_none_iff_forall_ne_some]
  intro ds hds
  obtain ⟨hlen, hread⟩ := (Memory.readBytes_eq_some_iff _ _ _ _).1 hds
  have hnone : ds[k]? = none := (hread k hk).symm.trans h
  rw [List.getElem?_eq_none_iff] at hnone
  omega

/-- Settles O28: each of the four looks up what it reads before it writes anything. -/
theorem readsOfNoValueStop : Obligations.ReadsOfNoValueStop := by
  unfold Obligations.ReadsOfNoValueStop
  refine fun s => ⟨?_, fun hlen => ?_, fun hI => ?_, fun hJ => ?_⟩
  · rintro ⟨k, hk, hnone⟩
    have hread : memReadKeybuf s (s.seq.J * s.width.bytes) s.width.bytes = none := Memory.readBytes_none hk hnone
    simp only [exec, execRdw, hread]
  · have hhalves := block_eq s.width
    have hread : memReadPayload s (s.seq.BLK * s.width.block + s.width.bytes) s.width.bytes = none := if_neg (by omega)
    simp only [exec, execRdb, hread]
    cases memReadPayload s (s.seq.BLK * s.width.block) s.width.bytes <;> rfl
  · have hread : s.subkey? s.seq.I = none := List.getElem?_eq_none hI
    simp only [exec, execMixs, hread]
  · have hread : s.keyWord? s.seq.J = none := List.getElem?_eq_none hJ
    simp only [exec, execMixl, hread]

end Sys2Proof.Machine
end

section
/-! Proofs of the commands' results: KEY (R122), the expanded table of a SETUP (R143 to R152), and the blocks of ENCODE and DECODE
(R171 to R182). -/

namespace Sys2Proof.Machine

/-! ### KEY -/

/-- The space written from the bytes of a sequence reads as the sequence does, at every offset (R25, R122). -/
theorem Memory.read_writeBytes_nil (bs : List Byte) (k : Nat) : Memory.read (Memory.writeBytes [] 0 bs) k = bs[k]? := by
  by_cases hk : k < bs.length
  · have h := Memory.read_writeBytes [] 0 bs k hk
    rwa [Nat.zero_add] at h
  · rw [Memory.read_writeBytes_above [] 0 bs k (by omega), Memory.read_nil, List.getElem?_eq_none (by omega)]

/-- Settles O29: the check passes, and the stored space reads as the payload at every offset. -/
theorem keyReplacesTheWholeKeySlot : Obligations.KeyReplacesTheWholeKeySlot := by
  unfold Obligations.KeyReplacesTheWholeKeySlot
  intro s hmin hmax
  exact ⟨_, execKey_succeeds (keyCheck_none.2 ⟨hmin, hmax⟩), respond_delivers [] s (storeKey s) (by decide) rfl rfl, rfl,
    storeKey_klen_toNat hmax, Memory.read_writeBytes_nil s.port.payload,
    Memory.writeBytes_wf [] 0 s.port.payload List.Pairwise.nil, rfl, rfl, rfl, rfl⟩

/-! ### SETUP -/

/-- Key word `j` of the loop's start is the word that stands at offset `j·u` of `KEYBUF` (R126, R144). -/
theorem mixStart_keyWordAt {W : Width} {m : Memory} {n : Nat} {ds : List Byte} (hread : Memory.readBytes m 0 n = some ds)
    (t : Nat) {j : Nat} (hj : j < n / W.bytes) :
    KeyWordAt W m (j * W.bytes) ((mixStart W t (n / W.bytes) ds).L.getD j 0) := by
  have hfits : j * W.bytes + W.bytes ≤ n := by
    rw [← Nat.succ_mul]
    exact (Nat.mul_le_mul_right _ hj).trans (Nat.div_mul_le_self n W.bytes)
  have hword : (mixStart W t (n / W.bytes) ds).L.getD j 0 = lePack W.bits ((ds.drop (j * W.bytes)).take W.bytes) := by
    rw [List.getD_eq_getElem?_getD, mixStart, readWords_getElem? W _ ds j hj]
    rfl
  rw [hword]
  exact keyWordAt_lePack (Memory.readBytes_slice hread hfits)

/-- Subkey `i` of the loop's start is `P_w + i·Q_w` (R145). -/
theorem mixStart_subkey_toNat (W : Width) (c : Nat) (ds : List Byte) {t i : Nat} (hi : i < t) :
    ((mixStart W t c ds).S.getD i 0).toNat = ((pWord W).toNat + i * (qWord W).toNat) % 2 ^ W.bits := by
  obtain ⟨v, hv, hvalue⟩ := subkeysFrom_getElem? W (pWord W) t i hi
  rw [List.getD_eq_getElem?_getD, mixStart, hv]
  exact hvalue

/-- The arrays, accumulators and indices after `k` mixing iterations (R146, R148). -/
def mixAfter (W : Width) (t c : Nat) (ds : List Byte) (k : Nat) : Mix W.bits := mixLoop t c k (mixStart W t c ds)

/-- A stored table lists its words, zero-extended (R42). -/
theorem getElem?_map_ofWord {w i : Nat} {l : List (BitVec w)} (hi : i < l.length) :
    (l.map ofWord)[i]? = some ((l.getD i 0).setWidth 64) := by
  rw [List.getElem?_map, List.getD_eq_getElem?_getD, List.getElem?_eq_getElem hi]
  rfl

/-- The table of a key expansion is the one that the rules determine: its values after each iteration are those of the mixing loop
(R143 to R149). -/
theorem expandKey_isExpansion {W : Width} {r : BitVec 8} {m : Memory} {n : Nat} {ds : List Byte}
    (hread : Memory.readBytes m 0 n = some ds) (hpos : 0 < n / W.bytes) :
    IsExpansion W r.toNat m n ((expandKey W r ds).S.map ofWord) := by
  obtain ⟨rfl, _⟩ := (Memory.readBytes_eq_some_iff _ _ _ _).1 hread
  have hstep := mixLoop_step W (subkeyCount r) (ds.length / W.bytes) ds (subkeyCount_pos r) hpos
  have hsize := expandKey_S_length W r ds
  let after := mixAfter W (subkeyCount r) (ds.length / W.bytes) ds
  refine ⟨fun k i => (after k).S.getD i 0, fun k j => (after k).L.getD j 0, fun k => (after k).A, fun k => (after k).B,
    fun j hj => mixStart_keyWordAt hread _ hj, fun i hi => mixStart_subkey_toNat W _ ds hi, rfl, rfl, fun k _ => hstep k,
    ?_, fun i hi => ?_⟩
  · rw [List.length_map, hsize, subkeyCount]
  · exact getElem?_map_ofWord (hsize.symm ▸ hi)

/-- Settles O31: the whole key is read, and the installed table is the expansion of its bytes. -/
theorem setupExpandsTheKey : Obligations.SetupExpandsTheKey := by
  unfold Obligations.SetupExpandsTheKey
  intro W r s hkey halign
  have ⟨hvalid, hmin, _⟩ := hkey
  obtain ⟨ds, hread, _⟩ := memReadKeybuf_of_keyReady hkey
  have hpos : 0 < s.key.klen.toNat / W.bytes :=
    Nat.div_pos (Nat.le_of_dvd hmin (Nat.dvd_of_mod_eq_zero halign)) (bytes_pos W)
  exact ⟨_, (exec_setupInstr W r s).trans (setup_succeeds (setupCheck_none.2 ⟨hvalid, halign⟩) hread),
    respond_delivers [] s (installEngine W r _ _ s) (by decide) rfl rfl, rfl, rfl, rfl,
    expandKey_isExpansion hread hpos, rfl, rfl, rfl, rfl, rfl⟩

/-! ### ENCODE and DECODE -/

/-- Block `n` of a buffer, as the words that stand in its two halves (R51, R128). -/
theorem wordAt_block {W : Width} {ds : List Byte} {n : Nat} (hn : n < ds.length / W.block) :
    ∃ a b, WordAt W ds (n * W.block) a ∧ WordAt W ds (n * W.block + W.bytes) b := by
  have hhalves := block_eq W
  have hfits : n * W.block + W.block ≤ ds.length := by
    rw [← Nat.succ_mul]
    exact (Nat.mul_le_mul_right _ hn).trans (Nat.div_mul_le_self _ _)
  exact ⟨_, _, wordAt_lePack W ds _ (by omega), wordAt_lePack W ds _ (by omega)⟩

/-- A transform of an aligned payload by a complete engine delivers the image of each block at the block's own offsets, and writes
neither slot, nor `L`, nor a mixing index; `Image` is what is known of the block function (R171, R179). -/
theorem transform_delivers_blocks (n : Nat)
    {f : (W : Width) → List Slot → Nat → BitVec W.bits × BitVec W.bits → BitVec W.bits × BitVec W.bits} {s : State}
    {Image : BitVec s.eng.wsel.bits → BitVec s.eng.wsel.bits → BitVec s.eng.wsel.bits → BitVec s.eng.wsel.bits → Prop}
    (hf : ∀ p, Image p.1 p.2 (f s.eng.wsel s.eng.S s.eng.rounds.toNat p).1 (f s.eng.wsel s.eng.S s.eng.rounds.toNat p).2)
    (hready : EngineReady s) (hlen : s.len < 2 ^ 32) (halign : s.len % s.eng.wsel.block = 0) :
    ∃ t out, transform n f s = .next t ∧ Delivers .ok 0 0 out s t ∧ out.length = s.len ∧
      (∀ n, n < s.len / s.eng.wsel.block → ∃ a b a' b',
        WordAt s.eng.wsel s.port.payload (n * s.eng.wsel.block) a ∧
        WordAt s.eng.wsel s.port.payload (n * s.eng.wsel.block + s.eng.wsel.bytes) b ∧
        Image a b a' b' ∧
        WordAt s.eng.wsel out (n * s.eng.wsel.block) a' ∧
        WordAt s.eng.wsel out (n * s.eng.wsel.block + s.eng.wsel.bytes) b') ∧
      SlotsKept s t ∧ t.work.L = s.work.L ∧ t.seq.I = s.seq.I ∧ t.seq.J = s.seq.J ∧ t.seq.K = s.seq.K ∧ t.uop = s.uop := by
  obtain ⟨hstate, hsubkeys⟩ := hready
  have hheld : ¬ (0 < s.len ∧ s.eng.S.length < subkeyCount s.eng.rounds) := fun h =>
    absurd (hsubkeys ▸ h.2) (Nat.lt_irrefl _)
  have hout : (bytesOut s.eng.wsel (f s.eng.wsel s.eng.S s.eng.rounds.toNat) s.port.payload).length = s.len :=
    bytesOut_length _ _ _ halign
  obtain ⟨hkey, heng, hL, hI, hJ, hK, _, hport, _, _, huop, _⟩ := transformScratch_frame s.eng.wsel n
    (blocksOut s.eng.wsel (f s.eng.wsel s.eng.S s.eng.rounds.toNat) s.port.payload) s
  refine ⟨_, _, transform_succeeds (transformCheck_none.2 ⟨hstate, halign⟩) hheld,
    respond_delivers _ s _ (hout ▸ hlen) (congrArg _ hport) (congrArg _ hport), hout, fun k hk => ?_, ⟨hkey, heng⟩, hL, hI,
    hJ, hK, huop⟩
  obtain ⟨a, b, ha, hb⟩ := wordAt_block hk
  obtain ⟨ha', hb'⟩ := wordAt_bytesOut (f s.eng.wsel s.eng.S s.eng.rounds.toNat) hk ha hb
  exact ⟨a, b, _, _, ha, hb, hf (a, b), ha', hb'⟩

/-- Settles O35: ENCODE is a transform whose block function gives the encoded image. -/
theorem encodeTransformsEachBlock : Obligations.EncodeTransformsEachBlock := by
  unfold Obligations.EncodeTransformsEachBlock
  intro s hready hlen halign
  exact transform_delivers_blocks (s.eng.rounds.toNat + 1) (encodeBlock_isEncoded _ _ _) hready hlen halign

/-- Settles O36: DECODE is a transform whose block function gives the decoded image. -/
theorem decodeTransformsEachBlock : Obligations.DecodeTransformsEachBlock := by
  unfold Obligations.DecodeTransformsEachBlock
  intro s hready hlen halign
  exact transform_delivers_blocks 0 (decodeBlock_isDecoded _ _ _) hready hlen halign

/-- A complete engine answers an aligned payload with the image of every block, for the block function of the command (R171,
R179). -/
theorem exec_transform_answers {i : Instr} (hi : i = .encode ∨ i = .decode) {s : State} (hready : EngineReady s) :
    ∃ f, ∀ ds : List Byte, ds.length % s.eng.wsel.block = 0 →
      ∃ t, exec i (s.withPayload ds) = .next t ∧ t.resp.payload = bytesOut s.eng.wsel f ds := by
  rcases hi with rfl | rfl
  · refine ⟨encodeBlock s.eng.wsel s.eng.S s.eng.rounds.toNat, fun ds halign => ?_⟩
    obtain ⟨t, ht, _, hout⟩ := transform_answers (s := s.withPayload ds) (s.eng.rounds.toNat + 1) encodeBlock hready halign
    exact ⟨t, ht, hout⟩
  · refine ⟨decodeBlock s.eng.wsel s.eng.S s.eng.rounds.toNat, fun ds halign => ?_⟩
    obtain ⟨t, ht, _, hout⟩ := transform_answers (s := s.withPayload ds) 0 decodeBlock hready halign
    exact ⟨t, ht, hout⟩

/-- Settles O42: the blocks of a buffer cut at a block boundary are those of its parts. -/
theorem blocksAreIndependent : Obligations.BlocksAreIndependent := by
  unfold Obligations.BlocksAreIndependent
  intro s i p q hi hready hp hq
  obtain ⟨f, hf⟩ := exec_transform_answers hi hready
  have hpq : (p ++ q).length % s.eng.wsel.block = 0 := by rw [List.length_append, Nat.add_mod, hp, hq]; rfl
  obtain ⟨t, ht, hout⟩ := hf (p ++ q) hpq
  obtain ⟨t₁, ht₁, hout₁⟩ := hf p hp
  obtain ⟨t₂, ht₂, hout₂⟩ := hf q hq
  refine ⟨t, t₁, t₂, ht, ht₁, ht₂, ?_⟩
  rw [hout, hout₁, hout₂, bytesOut_append _ f p q hp]

end Sys2Proof.Machine
end

section
/-! Proofs of the rules about every command: what becomes of the engine slot (R30), with which statuses a command ends (R200, R206),
and that no response depends on the bytes of `KEYBUF` (R25, R218). -/

namespace Sys2Proof.Machine

/-! ### The engine slot -/

/-- A command that ends OK and is a SETUP installs its engine (R30, R152). -/
theorem runCommand_setup_eng {s t : State} (h : runCommand s = .next t) {W : Width} {r : BitVec 8}
    (hd : decodeCommand s.port.cw s.len = .ok (setupInstr W r)) (hok : t.resp.status = .ok) :
    t.eng.state = .ready ∧ t.eng.wsel = W ∧ t.eng.rounds = r := by
  rw [runCommand_ok hd, exec_setupInstr] at h
  obtain ⟨ds, _, heng⟩ := setup_eng_of_ok h hok
  rw [heng]
  exact ⟨rfl, rfl, rfl⟩

/-- A command that fails, or is no SETUP, keeps the engine slot (R30). -/
theorem runCommand_eng_kept {s t : State} (h : runCommand s = .next t)
    (hkept : t.resp.status ≠ .ok ∨ ∀ (W : Width) (r : BitVec 8), decodeCommand s.port.cw s.len ≠ .ok (setupInstr W r)) :
    t.eng = s.eng := by
  rcases runCommand_effects h with ⟨v, rfl, _⟩ | ⟨_, _, rfl⟩ | ⟨W, r, ds, hd, _, _, rfl⟩ | ⟨i, n, f, _, _, _, rfl⟩
  · rfl
  · rfl
  · rcases hkept with hfail | hnone
    · exact absurd rfl hfail
    · exact absurd hd (hnone W r)
  · rw [respond_eq, deliver_eng, transformScratch_eng]

/-- Settles O45: the reset state has no engine; a command at the port runs on the state that has accepted it, whose engine slot is
the same. -/
theorem engineSlotTransitions : Obligations.EngineSlotTransitions := by
  unfold Obligations.EngineSlotTransitions
  refine ⟨fun s rest huop hreset => ⟨s.afterReset rest, step_reset huop hreset, rfl⟩, fun s t cw payload hidle hstep => ?_⟩
  obtain ⟨_, hrun⟩ := step_offer_next hidle hstep
  exact ⟨fun W r hd hok => runCommand_setup_eng hrun hd hok, fun hkept =>
    runCommand_eng_kept (s := s.accept cw payload s.port.inbox) hrun hkept⟩

/-! ### The statuses of each command -/

/-- KEY ends with OK, or with the status of its check (R206). -/
theorem execKey_status_mem {s t : State} (h : execKey s = .next t) :
    t.resp.status ∈ [Status.ok, .invalidKeyLength] := by
  rcases execKey_cases h with ⟨v, hv, rfl⟩ | ⟨_, rfl⟩
  · obtain ⟨_, rfl⟩ := keyCheck_some hv
    simp [responseOf]
  · simp [responseOf, Verdict.ok]

/-- A SETUP ends with OK, or with the status of one of its checks (R206). -/
theorem setup_status_mem {W : Width} {r : BitVec 8} {s t : State} (h : setup W r s = .next t) :
    t.resp.status ∈ [Status.ok, .keyNotWordAligned, .noKey] := by
  rcases setup_cases h with ⟨v, hv, rfl⟩ | ⟨_, _, _, rfl⟩
  · rcases setupCheck_some hv with ⟨_, rfl⟩ | ⟨_, _, rfl⟩ <;> simp [responseOf]
  · simp [responseOf, Verdict.ok]

/-- At w=8 every key is aligned, so NoKey is the only failure (R142, R206). -/
theorem setup_w8_status_mem {r : BitVec 8} {s t : State} (h : setup .w8 r s = .next t) :
    t.resp.status ∈ [Status.ok, .noKey] := by
  rcases setup_cases h with ⟨v, hv, rfl⟩ | ⟨_, _, _, rfl⟩
  · rcases setupCheck_some hv with ⟨_, rfl⟩ | ⟨_, hmis, _⟩
    · simp [responseOf]
    · exact absurd (Nat.mod_one _) hmis
  · simp [responseOf, Verdict.ok]

/-- A transform ends with OK, or with the status of one of its checks (R206). -/
theorem transform_status_mem {n : Nat}
    {f : (W : Width) → List Slot → Nat → BitVec W.bits × BitVec W.bits → BitVec W.bits × BitVec W.bits} {s t : State}
    (h : transform n f s = .next t) : t.resp.status ∈ [Status.ok, .inputNotBlockAligned, .notReady] := by
  rcases transform_cases h with ⟨v, hv, rfl⟩ | ⟨_, _, rfl⟩
  · rcases transformCheck_some hv with ⟨_, rfl⟩ | ⟨_, _, rfl⟩ <;> simp [responseOf]
  · simp [responseOf, Verdict.ok]

/-- Settles O47: the numbers by evaluation; each command ends OK or with a verdict of its own checks. -/
theorem commandsEndOnlyWithTheirStatuses : Obligations.CommandsEndOnlyWithTheirStatuses := by
  unfold Obligations.CommandsEndOnlyWithTheirStatuses
  refine ⟨⟨rfl, rfl, rfl, rfl, rfl, rfl, rfl, rfl⟩, fun s t h => execKey_status_mem h, fun r s t h => setup_w8_status_mem h,
    ?_, ?_, ?_⟩
  · rintro r s t (h | h | h)
    · exact setup_status_mem (W := .w16) h
    · exact setup_status_mem (W := .w32) h
    · exact setup_status_mem (W := .w64) h
  · rintro s t (h | h)
    · exact transform_status_mem h
    · exact transform_status_mem h
  · intro s t cw payload e hidle he hstep
    obtain ⟨_, hrun⟩ := step_offer_next hidle hstep
    rw [runCommand_accept_error he] at hrun
    cases hrun
    rfl

/-! ### The bytes of `KEYBUF` -/

/-- A command that is no transform answers with no payload, so its response is its settled verdict's (R78). -/
theorem runCommand_resp_of_no_transform {s t : State} (h : runCommand s = .next t)
    (hi : decodeCommand s.port.cw s.len ≠ .ok .encode ∧ decodeCommand s.port.cw s.len ≠ .ok .decode) :
    t.resp = responseOf (settle s) [] := by
  rcases runCommand_effects h with ⟨v, rfl, hv⟩ | ⟨hd, hc, rfl⟩ | ⟨W, r, ds, hd, hc, _, rfl⟩ | ⟨i, n, f, htr, hd, _, rfl⟩
  · exact congrArg State.resp (runCommand_raises h hv)
  · rw [settle_passes hd hc]
    rfl
  · rw [settle_passes hd ((commandCheck_setupInstr W r s).trans hc)]
    rfl
  · rcases htr with rfl | rfl
    · exact absurd hd hi.1
    · exact absurd hd hi.2

/-- The checks of a command look at no byte of `KEYBUF`. -/
theorem settle_keybuf (s : State) (m : Memory) : settle { s with key := { s.key with keybuf := m } } = settle s := rfl

/-- Two states that differ only in `KEYBUF` answer a command alike, if both answer it. -/
theorem runCommand_resp_keybuf {s t t' : State} (m : Memory) (h : runCommand s = .next t)
    (h' : runCommand { s with key := { s.key with keybuf := m } } = .next t') : t'.resp = t.resp := by
  by_cases hi : ∃ i, (i = .encode ∨ i = .decode) ∧ decodeCommand s.port.cw s.len = .ok i
  · obtain ⟨i, hi, hd⟩ := hi
    rw [runCommand_ok hd] at h
    rw [runCommand_ok (s := { s with key := { s.key with keybuf := m } }) hd] at h'
    obtain ⟨u, hu, hresp⟩ := exec_transform_resp_congr (s := s) (s' := { s with key := { s.key with keybuf := m } }) hi rfl rfl h
    rw [h'] at hu
    cases hu
    exact hresp
  · have hno : decodeCommand s.port.cw s.len ≠ .ok .encode ∧ decodeCommand s.port.cw s.len ≠ .ok .decode :=
      ⟨fun hd => hi ⟨_, .inl rfl, hd⟩, fun hd => hi ⟨_, .inr rfl, hd⟩⟩
    rw [runCommand_resp_of_no_transform h hno, runCommand_resp_of_no_transform h' hno, settle_keybuf]

/-- Settles O53: a transform's response is a function of the engine slot and the payload, and every other response is that of the
verdict, which no byte of `KEYBUF` enters. -/
theorem keyBytesReachNoResponse : Obligations.KeyBytesReachNoResponse := by
  unfold Obligations.KeyBytesReachNoResponse
  intro s s' t t' cw payload hidle hs' hstep hstep'
  generalize s'.key.keybuf = m at hs'
  subst hs'
  obtain ⟨_, hrun⟩ := step_offer_next hidle hstep
  obtain ⟨_, hrun'⟩ := step_offer_next (s := { s with key := { s.key with keybuf := m } }) hidle hstep'
  exact runCommand_resp_keybuf m hrun hrun'

end Sys2Proof.Machine
end

section
/-! Proofs of noninterference: the sequencer's control depends on no key byte, subkey or byte of data (R32, R36). A visit either
stops or goes on by what `SameControl` says alone; what it leaves of the control state is then computed from that alone. -/

namespace Sys2Proof.Machine

/-! ### What a micro-operation needs -/

/-- The storage that a micro-operation reads holds a value (R41). -/
def ReadsHeld (i : Instr) (s : State) : Prop :=
  match i with
  | .rdw => ∀ k, k < s.width.bytes → (Memory.read s.key.keybuf (s.seq.J * s.width.bytes + k)).isSome
  | .rdb => s.seq.BLK * s.width.block + s.width.block ≤ s.len
  | .mixs => s.seq.I < s.eng.S.length
  | .mixl => s.seq.J < s.work.L.length
  | _ => True

/-- A micro-operation that goes on has found the values it reads (R41). -/
theorem readsHeld_of_exec {i : Instr} {s t : State} (h : exec i s = .next t) : ReadsHeld i s := by
  obtain ⟨hrdw, hrdb, hmixs, hmixl⟩ := readsOfNoValueStop s
  cases i with
  | rdw =>
    intro k hk
    by_contra hnone
    rw [hrdw ⟨k, hk, Option.not_isSome_iff_eq_none.1 hnone⟩] at h
    cases h
  | rdb =>
    show _ ≤ _
    by_contra hlen
    rw [hrdb (by omega)] at h
    cases h
  | mixs =>
    show _ < _
    by_contra hI
    rw [hmixs (by omega)] at h
    cases h
  | mixl =>
    show _ < _
    by_contra hJ
    rw [hmixl (by omega)] at h
    cases h
  | _ => trivial

/-- A micro-operation that finds the values it reads goes on (R41). -/
theorem exec_of_readsHeld {i : Instr} (hi : IsMicro i) {s : State} (h : ReadsHeld i s) : ∃ t, exec i s = .next t := by
  cases i with
  | rdw =>
    obtain ⟨ds, hds⟩ := Memory.readBytes_isSome _ _ _ h
    exact ⟨_, execRdw_eq hds⟩
  | rdb => exact ⟨_, execRdb_eq h⟩
  | mixs => exact ⟨_, execMixs_eq (List.getElem?_eq_getElem h)⟩
  | mixl => exact ⟨_, execMixl_eq (List.getElem?_eq_getElem h)⟩
  | key | encode | decode | setupW8 | setupW16 | setupW32 | setupW64 => simp [IsMicro] at hi
  | _ => exact ⟨_, rfl⟩

/-! ### Agreement on control -/

theorem SameControl.refl (s : State) : SameControl s s := ⟨rfl, rfl, rfl, rfl, rfl, rfl, rfl, rfl, rfl, rfl, rfl, rfl⟩

theorem SameControl.symm {s s' : State} (h : SameControl s s') : SameControl s' s := by
  obtain ⟨hseq, hcw, hlen, hvalid, hklen, hkeys, hstate, hwsel, hrounds, hS, hL, hverdict⟩ := h
  exact ⟨hseq.symm, hcw.symm, hlen.symm, hvalid.symm, hklen.symm, hkeys.symm, hstate.symm, hwsel.symm, hrounds.symm,
    hS.symm, hL.symm, hverdict.symm⟩

theorem SameControl.trans {s u v : State} (h : SameControl s u) (h' : SameControl u v) : SameControl s v := by
  obtain ⟨hseq, hcw, hlen, hvalid, hklen, hkeys, hstate, hwsel, hrounds, hS, hL, hverdict⟩ := h
  obtain ⟨hseq', hcw', hlen', hvalid', hklen', hkeys', hstate', hwsel', hrounds', hS', hL', hverdict'⟩ := h'
  exact ⟨hseq.trans hseq', hcw.trans hcw', hlen.trans hlen', hvalid.trans hvalid', hklen.trans hklen', hkeys.trans hkeys',
    hstate.trans hstate', hwsel.trans hwsel', hrounds.trans hrounds', hS.trans hS', hL.trans hL', hverdict.trans hverdict'⟩

/-- The command word and the engine's width decide the width in use (R21). -/
theorem SameControl.width {s s' : State} (h : SameControl s s') : s.width = s'.width := by
  obtain ⟨_, hcw, _, _, _, _, _, hwsel, _⟩ := h
  rw [State.width, State.width, hcw, hwsel]

theorem SameControl.keyWordCount {s s' : State} (h : SameControl s s') :
    keyWordCount s.width s = keyWordCount s'.width s' := by
  have hwidth := h.width
  obtain ⟨_, _, _, _, hklen, _⟩ := h
  rw [Machine.keyWordCount, Machine.keyWordCount, hwidth, hklen]

/-- Control decides whether a micro-operation finds the values it reads. -/
theorem SameControl.readsHeld {s s' : State} (h : SameControl s s') {i : Instr} (hi : ReadsHeld i s) : ReadsHeld i s' := by
  have hwidth := h.width
  obtain ⟨hseq, _, hlen, _, _, hkeys, _, _, _, hS, hL, _⟩ := h
  cases i with
  | rdw =>
    intro k hk
    rw [← hwidth] at hk ⊢
    rw [Memory.read_isSome_iff, ← hkeys, ← hseq, ← Memory.read_isSome_iff]
    exact hi k hk
  | rdb =>
    show _ ≤ _
    rw [← hseq, ← hwidth, ← hlen]
    exact hi
  | mixs =>
    show _ < _
    rw [← hseq, ← hS]
    exact hi
  | mixl =>
    show _ < _
    rw [← hseq, ← hL]
    exact hi
  | _ => trivial

/-! ### Operations in lockstep -/

/-- From two states that agree on control the operation goes on in both or in none, to states that agree on control. -/
def Lockstep (f : State → Out) : Prop :=
  ∀ s s' t : State, SameControl s s' → f s = .next t → ∃ t', f s' = .next t' ∧ SameControl t t'

/-- An operation that always goes on is in lockstep if it keeps agreement. -/
theorem Lockstep.next {g : State → State} (hg : ∀ {s s' : State}, SameControl s s' → SameControl (g s) (g s')) :
    Lockstep fun s => .next (g s) := by
  intro s s' t h ht
  cases ht
  exact ⟨g s', rfl, hg h⟩

theorem Lockstep.andThen {f g : State → Out} (hf : Lockstep f) (hg : Lockstep g) :
    Lockstep fun s => andThen (f s) g := by
  intro s s' t h ht
  obtain ⟨u, hu, ht⟩ := andThen_eq_next.1 ht
  obtain ⟨u', hu', h'⟩ := hf s s' u h hu
  obtain ⟨t', ht', h''⟩ := hg u u' t h' ht
  exact ⟨t', andThen_eq_next.2 ⟨u', hu', ht'⟩, h''⟩

/-- A micro-operation changes nothing of control. -/
theorem exec_micro_sameControl {i : Instr} (hi : IsMicro i) {s t : State} (h : exec i s = .next t) : SameControl s t := by
  obtain ⟨hkey, hseq, _, hport, hverdict, _, hstate, hwsel, hrounds, hS, hL⟩ := exec_micro_frame hi h
  refine ⟨hseq.symm, ?_, ?_, ?_, ?_, ?_, hstate.symm, hwsel.symm, hrounds.symm, hS.symm, hL.symm, hverdict.symm⟩
  · rw [hport]
  · rw [State.len, State.len, hport]
  · rw [hkey]
  · rw [hkey]
  · rw [hkey]

theorem exec_micro_lockstep {i : Instr} (hi : IsMicro i) : Lockstep (exec i) := by
  intro s s' t h ht
  obtain ⟨t', ht'⟩ := exec_of_readsHeld hi (h.readsHeld (readsHeld_of_exec ht))
  exact ⟨t', ht', (exec_micro_sameControl hi ht).symm.trans (h.trans (exec_micro_sameControl hi ht'))⟩

/-- Routing a subkey goes on or stops by the number of subkeys, and the subkey goes to a latch. -/
theorem withSubkey_lockstep (i : Nat) {f : State → Slot → State} (hf : ∀ s k, SameControl s (f s k)) :
    Lockstep fun s => withSubkey i (f s) s := by
  intro s s' t h ht
  have ⟨_, _, _, _, _, _, _, _, _, hS, _⟩ := h
  cases hk : s.subkey? i with
  | none =>
    simp only [withSubkey, hk] at ht
    cases ht
  | some k =>
    simp only [withSubkey, hk] at ht
    cases ht
    have hi : i < s'.eng.S.length := hS ▸ (List.getElem?_eq_some_iff.1 hk).1
    refine ⟨f s' (s'.eng.S.getD i 0), ?_, (hf s k).symm.trans (h.trans (hf s' _))⟩
    simp only [withSubkey, subkey?_of_lt hi]

theorem applyRoute_lockstep (r : Route) : Lockstep (applyRoute r) := by
  cases r with
  | keep => exact Lockstep.next id
  | keyWord q =>
    refine Lockstep.next fun h => ?_
    obtain ⟨hseq, hrest⟩ := h
    exact ⟨by rw [hseq], hrest⟩
  | aSubkey i => exact withSubkey_lockstep i fun s _ => SameControl.refl s
  | bSubkey i => exact withSubkey_lockstep i fun s _ => SameControl.refl s
  | aHalf i => exact withSubkey_lockstep i fun s _ => SameControl.refl s
  | bHalf i => exact withSubkey_lockstep i fun s _ => SameControl.refl s
  | onlyA => exact Lockstep.next id
  | onlyB => exact Lockstep.next id

/-- A result's place decides by how much `S` or `L` grows. -/
theorem applyDest_sameControl (d : Dest) {s s' : State} (h : SameControl s s') :
    SameControl (applyDest d s) (applyDest d s') := by
  have ⟨hseq, hcw, hlen, hvalid, hklen, hkeys, hstate, hwsel, hrounds, hS, hL, hverdict⟩ := h
  cases d with
  | pushL =>
    refine ⟨hseq, hcw, hlen, hvalid, hklen, hkeys, hstate, hwsel, hrounds, hS, ?_, hverdict⟩
    simp only [applyDest, List.length_append, hL, List.length_singleton]
  | pushS =>
    refine ⟨hseq, hcw, hlen, hvalid, hklen, hkeys, hstate, hwsel, hrounds, ?_, hL, hverdict⟩
    simp only [applyDest, List.length_append, hS, List.length_singleton]
  | _ => exact h

theorem drive_lockstep {m : Micro} (hm : IsMicro m.uop) : Lockstep (drive m) :=
  (applyRoute_lockstep m.route).andThen ((exec_micro_lockstep hm).andThen (Lockstep.next (applyDest_sameControl m.dest)))

theorem runProgram_lockstep {ms : List Micro} (hm : ∀ m ∈ ms, IsMicro m.uop) : Lockstep (runProgram ms) := by
  induction ms with
  | nil => exact Lockstep.next id
  | cons m ms ih =>
    exact (drive_lockstep (hm m List.mem_cons_self)).andThen (ih fun m' hm' => hm m' (List.mem_cons_of_mem m hm'))

/-! ### The parts of a visit -/

theorem prepare_sameControl {s s' : State} (h : SameControl s s') : SameControl (prepare s) (prepare s') := by
  have ⟨hseq, hcw, hlen, hvalid, hklen, hkeys, hstate, hwsel, hrounds, hS, hL, hverdict⟩ := h
  unfold prepare
  rw [← congrArg Sequencer.phase hseq]
  cases s.seq.phase with
  | kxLoad => exact ⟨hseq, hcw, hlen, hvalid, hklen, hkeys, rfl, hwsel, hrounds, hS, rfl, hverdict⟩
  | kxInit => exact ⟨hseq, hcw, hlen, hvalid, hklen, hkeys, hstate, hwsel, hrounds, rfl, hL, hverdict⟩
  | _ => exact h

/-- The micro-operations of a visit are chosen by control alone. -/
theorem program_congr {s s' : State} (h : SameControl s s') : program s = program s' := by
  have hcount := h.keyWordCount
  obtain ⟨hseq, hcw, _⟩ := h
  unfold program
  rw [hseq, hcw, hcount]

theorem advanceMix_sameControl {s s' : State} (h : SameControl s s') : SameControl (advanceMix s) (advanceMix s') := by
  have hcount := h.keyWordCount
  have hwidth := h.width
  obtain ⟨hseq, hcw, hlen, hvalid, hklen, hkeys, hstate, hwsel, hrounds, hS, hL, hverdict⟩ := h
  unfold advanceMix
  dsimp only
  rw [hseq, hcw, hcount]
  split
  · exact ⟨rfl, hcw, hlen, hvalid, hklen, hkeys, hstate, hwsel, hrounds, hS, hL, hverdict⟩
  · exact ⟨rfl, hcw, hlen, hvalid, hklen, hkeys, rfl, hwidth, rfl, hS, rfl, hverdict⟩

/-- The counters and the next phase are chosen by control alone (R36). -/
theorem advance_sameControl {s s' : State} (h : SameControl s s') : SameControl (advance s) (advance s') := by
  have hwidth := h.width
  have ⟨hseq, hcw, hlen, hvalid, hklen, hkeys, hstate, hwsel, hrounds, hS, hL, hverdict⟩ := h
  have moved : ∀ {q q' : Sequencer}, q = q' → SameControl { s with seq := q } { s' with seq := q' } := fun hq =>
    ⟨hq, hcw, hlen, hvalid, hklen, hkeys, hstate, hwsel, hrounds, hS, hL, hverdict⟩
  unfold advance
  rw [← hseq]
  cases s.seq.phase with
  | kxMix => exact advanceMix_sameControl h
  | blkRead =>
    dsimp only
    rw [← hcw]
    split
    · exact moved (by rw [hrounds])
    · exact moved (by rw [hseq])
  | encPre => exact moved (by rw [hrounds])
  | encRound => exact moved (by rw [hrounds])
  | decRound => exact moved rfl
  | blkWrite => exact moved (by rw [hwidth, hlen])
  | kxLoad | kxInit | decPost => exact moved (by rw [hseq])
  | idle | check | keyStore | respond => exact h

theorem dataVisit_lockstep : Lockstep dataVisit := by
  intro s s' t h ht
  have hprepared := prepare_sameControl h
  have hrun := (runProgram_lockstep (program_micro (prepare s))).andThen (Lockstep.next advance_sameControl)
  obtain ⟨t', ht', h'⟩ := hrun _ _ t hprepared ht
  rw [program_congr hprepared] at ht'
  exact ⟨t', ht', h'⟩

/-- The checks look at control alone (R207). -/
theorem commandCheck_congr {s s' : State} (h : SameControl s s') (i : Instr) : commandCheck i s = commandCheck i s' := by
  obtain ⟨_, _, hlen, hvalid, hklen, _, hstate, hwsel, _⟩ := h
  simp only [commandCheck, keyCheck, setupCheck, transformCheck, hlen, hvalid, hklen, hstate, hwsel]

theorem toPhase_sameControl (p : Phase) {s s' : State} (h : SameControl s s') :
    SameControl (s.toPhase p) (s'.toPhase p) := by
  obtain ⟨hseq, hrest⟩ := h
  exact ⟨by rw [State.toPhase_seq, State.toPhase_seq, hseq], hrest⟩

theorem startBlocks_sameControl (i : Instr) {s s' : State} (h : SameControl s s') :
    SameControl (startBlocks i s) (startBlocks i s') := by
  have ⟨hseq, hrest⟩ := h
  cases i with
  | encode | decode => exact ⟨by rw [startBlocks, startBlocks, hseq], hrest⟩
  | _ => exact h

/-- CHECK settles the verdict and the first phase by control alone (R36, R207). -/
theorem checkVisit_sameControl {s s' : State} (h : SameControl s s') : SameControl (checkVisit s) (checkVisit s') := by
  have hcheck := commandCheck_congr h
  have ⟨hseq, hcw, hlen, hvalid, hklen, hkeys, hstate, hwsel, hrounds, hS, hL, _⟩ := h
  have settled (v : Verdict) : SameControl { s with verdict := v, resp := { s.resp with payload := [] } }
      { s' with verdict := v, resp := { s'.resp with payload := [] } } :=
    ⟨hseq, hcw, hlen, hvalid, hklen, hkeys, hstate, hwsel, hrounds, hS, hL, rfl⟩
  have hdecode : decodeCommand s'.port.cw s'.len = decodeCommand s.port.cw s.len := by rw [hcw, hlen]
  cases hd : decodeCommand s.port.cw s.len with
  | error e =>
    rw [checkVisit_error hd, checkVisit_error (hdecode.trans hd)]
    exact toPhase_sameControl .respond (settled _)
  | ok i =>
    cases hc : commandCheck i s with
    | some v =>
      rw [checkVisit_fails hd hc, checkVisit_fails (hdecode.trans hd) (hcheck i ▸ hc)]
      exact toPhase_sameControl .respond (settled v)
    | none =>
      have hphase : firstPhase i s = firstPhase i s' := by simp only [firstPhase, hlen]
      rw [checkVisit_passes hd hc, checkVisit_passes (hdecode.trans hd) (hcheck i ▸ hc), hphase]
      exact toPhase_sameControl _ (startBlocks_sameControl i (settled _))

/-- KEY_STORE leaves a key of the payload's length, at the offsets below it (R25, R122). -/
theorem storeKey_sameControl {s s' : State} (h : SameControl s s') :
    SameControl ((storeKey s).toPhase .respond) ((storeKey s').toPhase .respond) := by
  obtain ⟨hseq, hcw, hlen, _, _, _, hstate, hwsel, hrounds, hS, hL, hverdict⟩ := h
  refine ⟨?_, hcw, hlen, rfl, ?_, ?_, hstate, hwsel, hrounds, hS, hL, hverdict⟩
  · simp only [State.toPhase_seq, storeKey_seq, hseq]
  · simp only [State.toPhase_key, storeKey_key, hlen]
  · simp only [State.toPhase_key, storeKey_key, Memory.writeBytes_nil_keys]
    exact congrArg List.range hlen

/-- RESPOND gives back the word and the payload, whatever was answered (R39). -/
theorem deliver_sameControl {s s' : State} (h : SameControl s s') :
    SameControl (deliver s.verdict s.resp.payload s) (deliver s'.verdict s'.resp.payload s') := by
  obtain ⟨hseq, _, _, hvalid, hklen, hkeys, hstate, hwsel, hrounds, hS, hL, _⟩ := h
  exact ⟨by rw [deliver_seq, deliver_seq, hseq], rfl, rfl, hvalid, hklen, hkeys, hstate, hwsel, hrounds, hS, hL, rfl⟩

/-- Settles O60: agreement on control includes the phase, and the visit of each phase goes in lockstep. -/
theorem controlDoesNotDependOnData : Obligations.ControlDoesNotDependOnData := by
  unfold Obligations.ControlDoesNotDependOnData
  intro s s' t h ht
  have ⟨hseq, _⟩ := h
  unfold visit at ht ⊢
  rw [← hseq]
  cases hp : s.seq.phase <;> simp only [hp] at ht ⊢
  case idle => exact Lockstep.next id s s' t h ht
  case check => exact Lockstep.next checkVisit_sameControl s s' t h ht
  case keyStore => exact Lockstep.next storeKey_sameControl s s' t h ht
  case respond => exact Lockstep.next deliver_sameControl s s' t h ht
  all_goals exact dataVisit_lockstep s s' t h ht

end Sys2Proof.Machine
end
